-- ==== Sys2Proof/Word.lean ====
section
/-! DEFINITION. The word types of SLNV (00_scope.md R5): byte-wide data, 16-bit addresses, 32-bit host registers. -/

namespace Sys2Proof

/-- Every ring slot, NV cell, block slot, line symbol and checksum (R5). -/
abbrev Byte := BitVec 8

/-- An NV address or block-buffer index as a command carries it (R5, R90). -/
abbrev Addr := BitVec 16

/-- A host register (R5). -/
abbrev Word := BitVec 32

end Sys2Proof
end

