-- ==== Sys2Proof/Config.lean ====
section
/-! DEFINITION. What an implementation of SLNV fixes (00_scope.md section 3), and the values the spec leaves free. -/

namespace Sys2Proof

/-- The build parameters of 00_scope.md section 3. `State` carries one such record that no step changes, so that a
statement about every state is a statement about every configuration (log 5). Which records are legal: `Config.Wf`. -/
structure Config where
  rxCap : Nat
  txCap : Nat
  highWm : Nat
  lowWm : Nat
  flowControl : Bool
  xonByte : Byte
  xoffByte : Byte
  rtStatus : Byte
  rtCycleStart : Byte
  rtFeedHold : Byte
  rtReset : Byte
  rateThreshold : Word
  nvSize : Nat
  blockMax : Nat
  deriving DecidableEq, Repr

/-- The spec's defaults (00_scope.md section 3). PRESUMED, unsafe: the six byte codes are general knowledge in the spec's
own words (93_implementation_defined.md G1, G2; log 6). -/
def Config.standard : Config where
  rxCap := 128
  txCap := 64
  highWm := 96
  lowWm := 64
  flowControl := true
  xonByte := 0x11#8
  xoffByte := 0x13#8
  rtStatus := 0x3F#8
  rtCycleStart := 0x7E#8
  rtFeedHold := 0x21#8
  rtReset := 0x18#8
  rateThreshold := 57600#32
  nvSize := 1024
  blockMax := 128

/-- FREE VALUE, safe: `NV_INIT`, the byte of each NV cell at the first power-up (R234, U3; log 7). -/
opaque Config.nvInit : Nat → Byte

/-- FREE VALUE, safe: the byte of an RX ring slot not written since the given power loss (R23, R232, U1; log 8). -/
opaque Config.rxDraw (powerLosses slot : Nat) : Byte

/-- FREE VALUE, safe: the byte of a TX ring slot not written since the given power loss (R23, R232, U1; log 8). -/
opaque Config.txDraw (powerLosses slot : Nat) : Byte

/-- FREE VALUE, safe: what the given power loss leaves in the cell it catches in flight (R233, U4; log 9). -/
opaque Config.interruptedCell (powerLosses : Nat) : Byte

/-- OPEN parameter `BAUD_DIVISOR(rate, double)`, read by no rule (R113, R248, U7; log 18). -/
opaque Config.baudDivisor (rate : Word) (double : Bool) : Nat

/-- OPEN parameter `T_PROG(mode)`, the mode as `NVMODE` encodes it; read by no rule (R164, R248, U6; log 18). -/
opaque Config.tProg (mode : BitVec 2) : Nat

/-- OPEN parameter `SLNV_BASE`, read by no rule (R216, U8; log 18). -/
opaque Config.slnvBase : Nat

end Sys2Proof
end

