-- ==== Sys2Proof/Syntax.lean ====
section
/-! DEFINITION. The commands of SLNV: one constructor per row of the opcode map (30_encoding.md R92). -/

namespace Sys2Proof

/-- A command with the operands it takes from its command word (R90, R92). The fields R92 marks ignored are not part of a
command (R94); the operand `ARG` is read from the machine (R91). An illegal word is no command: see `decode` (R93). -/
inductive Instr where
  /-- 0x00 `NOP` (R112) -/
  | nop
  /-- 0x01 `SER_INIT`, rate in ARG (R113) -/
  | serInit
  /-- 0x02 `SER_WRITE byte` (R114) -/
  | serWrite (data : Byte)
  /-- 0x03 `SER_READ` (R115) -/
  | serRead
  /-- 0x04 `SER_RESET_RX` (R116) -/
  | serResetRx
  /-- 0x05 `RTSIG_CLEAR mask` (R117) -/
  | rtsigClear (mask : Byte)
  /-- 0x10 `NV_READ addr` (R161) -/
  | nvRead (addr : Addr)
  /-- 0x11 `NV_WRITE addr, value` (R165) -/
  | nvWrite (addr : Addr) (value : Byte)
  /-- 0x12 `NV_WRITE_BLOCK addr`, length in ARG (R169) -/
  | nvWriteBlock (addr : Addr)
  /-- 0x13 `NV_READ_BLOCK addr`, length in ARG (R172) -/
  | nvReadBlock (addr : Addr)
  /-- 0x14 `BUF_PUT index, value` (R167) -/
  | bufPut (index : Addr) (value : Byte)
  /-- 0x15 `BUF_GET index` (R168) -/
  | bufGet (index : Addr)
  deriving DecidableEq, Repr

end Sys2Proof
end

