-- ==== Sys2Proof/WellFormed.lean ====
section
/-! DEFINITION. Well-formedness: the configurations the machine is defined for (00_scope.md R4). Every term of `Instr` is
well-formed, since its operands have the widths of R90 and no value of a field is illegal (R94). -/

namespace Sys2Proof

/-- The legal ranges of 00_scope.md section 3 that the types do not already give (R4 (1)). -/
abbrev Config.InRange (c : Config) : Prop :=
  (2 ≤ c.rxCap ∧ c.rxCap ≤ 256) ∧ (2 ≤ c.txCap ∧ c.txCap ≤ 256) ∧
  (1 ≤ c.nvSize ∧ c.nvSize ≤ 65536) ∧ (1 ≤ c.blockMax ∧ c.blockMax ≤ 256)

/-- `1 <= LOW_WM <= HIGH_WM <= RX_CAP-1` (R4 (2)). -/
abbrev Config.WatermarksOrdered (c : Config) : Prop :=
  1 ≤ c.lowWm ∧ c.lowWm ≤ c.highWm ∧ c.highWm ≤ c.rxCap - 1

/-- `XON_BYTE != XOFF_BYTE` (R4 (3)). -/
abbrev Config.FlowBytesDistinct (c : Config) : Prop := c.xonByte ≠ c.xoffByte

/-- The four realtime bytes are pairwise distinct (R4 (4)). -/
abbrev Config.RealtimeBytesDistinct (c : Config) : Prop :=
  c.rtStatus ≠ c.rtCycleStart ∧ c.rtStatus ≠ c.rtFeedHold ∧ c.rtStatus ≠ c.rtReset ∧
  c.rtCycleStart ≠ c.rtFeedHold ∧ c.rtCycleStart ≠ c.rtReset ∧ c.rtFeedHold ≠ c.rtReset

/-- A configuration is well-formed iff all four conditions of R4 hold; the step refuses every other one. -/
abbrev Config.Wf (c : Config) : Prop :=
  c.InRange ∧ c.WatermarksOrdered ∧ c.FlowBytesDistinct ∧ c.RealtimeBytesDistinct

end Sys2Proof
end

