-- ==== Sys2Proof/Decode.lean ====
section
/-! DEFINITION. Decoding and encoding of the one command format `CMD32` (30_encoding.md R90 to R97). -/

namespace Sys2Proof

/-- Why a word is no command of R92. -/
inductive DecodeError where
  /-- `OP` is 0x06 to 0x0F or 0x16 to 0xFF: the illegal command of R93, which the machine completes with `ERR_OPCODE`. -/
  | illegalOpcode (op : Byte)
  deriving DecidableEq, Repr

/-- `OP = w[7:0]` (R90). -/
def opField (w : Word) : Byte := w.extractLsb' 0 8

/-- `DATA = w[15:8]` (R90). -/
def dataField (w : Word) : Byte := w.extractLsb' 8 8

/-- `ADDR = w[31:16]` (R90). -/
def addrField (w : Word) : Addr := w.extractLsb' 16 16

/-- The command an `OP` selects, with the fields it takes; recognised from `OP` alone (R92). -/
def decodeFields (addr : Addr) (data op : Byte) : Except DecodeError Instr :=
  match op.toNat with
  | 0x00 => .ok .nop
  | 0x01 => .ok .serInit
  | 0x02 => .ok (.serWrite data)
  | 0x03 => .ok .serRead
  | 0x04 => .ok .serResetRx
  | 0x05 => .ok (.rtsigClear data)
  | 0x10 => .ok (.nvRead addr)
  | 0x11 => .ok (.nvWrite addr data)
  | 0x12 => .ok (.nvWriteBlock addr)
  | 0x13 => .ok (.nvReadBlock addr)
  | 0x14 => .ok (.bufPut addr data)
  | 0x15 => .ok (.bufGet addr)
  | _ => .error (.illegalOpcode op)

/-- Total decoding of a command word (R91, R95). -/
def decode (w : Word) : Except DecodeError Instr := decodeFields (addrField w) (dataField w) (opField w)

/-- The word `zext(ADDR) << 16 | DATA << 8 | OP` of R97. -/
def packWord (addr : Addr) (data op : Byte) : Word :=
  addr.setWidth 32 <<< 16 ||| data.setWidth 32 <<< 8 ||| op.setWidth 32

/-- The word of a command; fields it does not take are 0 (R97). -/
def encode : Instr → Word
  | .nop => packWord 0 0 0x00
  | .serInit => packWord 0 0 0x01
  | .serWrite b => packWord 0 b 0x02
  | .serRead => packWord 0 0 0x03
  | .serResetRx => packWord 0 0 0x04
  | .rtsigClear m => packWord 0 m 0x05
  | .nvRead a => packWord a 0 0x10
  | .nvWrite a v => packWord a v 0x11
  | .nvWriteBlock a => packWord a 0 0x12
  | .nvReadBlock a => packWord a 0 0x13
  | .bufPut j v => packWord j v 0x14
  | .bufGet j => packWord j 0 0x15

/-- The bits of its command word a command takes: `OP`, and `DATA` and `ADDR` where R92 does not mark them ignored (R94). -/
def usedBits : Instr → Word
  | .nop => 0x000000FF#32
  | .serInit => 0x000000FF#32
  | .serWrite _ => 0x0000FFFF#32
  | .serRead => 0x000000FF#32
  | .serResetRx => 0x000000FF#32
  | .rtsigClear _ => 0x0000FFFF#32
  | .nvRead _ => 0xFFFF00FF#32
  | .nvWrite _ _ => 0xFFFFFFFF#32
  | .nvWriteBlock _ => 0xFFFF00FF#32
  | .nvReadBlock _ => 0xFFFF00FF#32
  | .bufPut _ _ => 0xFFFFFFFF#32
  | .bufGet _ => 0xFFFF00FF#32

/-- The command word whose low `nbits` bits are those of `w` and whose other bits are 0. -/
def tableWord (nbits w : Nat) : Word := BitVec.ofNat 32 (w % 2 ^ nbits)

/-- What `decode` reads from the word of an opcode-table row (the host's interface; log 20). -/
def decodeTableWord (nbits w : Nat) : Option Instr :=
  match decode (tableWord nbits w) with
  | .ok i => some i
  | .error _ => none

end Sys2Proof
end

