-- ==== Sys2Proof/Machine/State.lean ====
section
/-! DEFINITION. The state of SLNV (10_state.md R23, R24), the model's own bookkeeping of the host and of the interleaving,
and the state at the first power-up (70_reset_and_hazards.md R231, R234). -/

namespace Sys2Proof.Machine

/-- Why a run stops (60_exceptions.md R203): the model faults of the spec, which no later step clears (log 14). -/
inductive Fault where
  /-- Raised by the HOST step of an access that is not a 32-bit aligned access in 0x00..0x3C (R67). Safe: the spec gives
  such an access no meaning. -/
  | busAccess
  /-- Raised by `BUF_GET` and `NV_WRITE_BLOCK` on a `BLK` slot not written since reset (R43, R168, R169). Safe: the spec
  gives the slot no byte (log 10). -/
  | unwrittenBlk
  deriving DecidableEq, Repr

/-- Why the machine is not defined at a state. -/
inductive Refusal where
  /-- An instruction without a meaning; no arm of `exec` answers so. Safe. -/
  | notModelled (mnemonic : String)
  /-- Raised by every step of a machine whose configuration breaks R4 (R203, U14). Safe. -/
  | illFormedConfig
  deriving DecidableEq, Repr

/-- `FLOW` (R38); its encoding is `Flow.code`. -/
inductive Flow where
  | xonAsserted
  | xoffPending
  | xoffAsserted
  | xonPending
  deriving DecidableEq, Repr

/-- A programming mode (R162); its encoding is `NvMode.code`. -/
inductive NvMode where
  | noOp
  | eraseOnly
  | writeOnly
  | eraseAndWrite
  deriving DecidableEq, Repr

/-- The error codes a command can leave in `ERR` (R200); codes 5 to 15 are never produced (log 26). -/
inductive Err where
  | ok
  | opcode
  | addr
  | len
  | arg
  deriving DecidableEq, Repr

/-- An event of the observation record (R24). -/
inductive Event where
  | lineOut (b : Byte)
  | lineIn (b : Byte)
  | rxDrop (b : Byte)
  | abortHook
  | reset
  | powerLoss
  deriving DecidableEq, Repr

/-- A byte memory: the cells written so far, at strictly rising addresses (`Memory.wf`). An unlisted address reads as no
value; what the machine sees there is said by the operation that reads it (`nvByte`, `rxSlot`, `txSlot`, `blkByte`). -/
abbrev Memory := List Host.Cell

/-- The pending-command record (R39). -/
structure Pend where
  op : Byte
  data : Byte
  addr : Addr
  arg : Word
  i : BitVec 17
  acc : Byte
  deriving DecidableEq, Repr

/-- The in-flight programming operation (R40). -/
structure InFlight where
  addr : Addr
  mode : NvMode
  value : Byte
  deriving DecidableEq, Repr

/-- `CNT[0..3]`, one counter per mode (R34). -/
structure ModeCounts where
  noOp : Word
  eraseOnly : Word
  writeOnly : Word
  eraseAndWrite : Word
  deriving DecidableEq, Repr

/-- A host access to the register window: width in bits and byte offset as the host puts them on the bus (R67), or the
polling of a register (R96 `POLL`). -/
inductive HostOp where
  | read (width offset : Nat)
  | write (width offset : Nat) (value : Word)
  | poll (offset : Nat) (mask value : Word)
  deriving DecidableEq, Repr

/-- Which agent moves (R22), with the input the environment gives that step (R130, R213). -/
inductive Turn where
  /-- HOST: its next bus access, or the completion of its held one -/
  | host
  /-- CE: one step of the pending command -/
  | ce
  /-- RXE: the line delivers byte `b` -/
  | rxe (b : Byte)
  /-- TXE: one transmit-ready event -/
  | txe
  /-- NVE: the programming time has passed -/
  | nve
  /-- ENV drives `ABORT_IN` to a level -/
  | abort (level : Bool)
  /-- ENV asserts reset -/
  | reset
  /-- ENV cuts power -/
  | powerLoss
  deriving DecidableEq, Repr

/-- A statement of the host script (R21, R96): an access of the host's own, or a step of another agent that the script names
(`ENV …`, `STEP CE`). -/
inductive ScriptStep where
  | access (op : HostOp)
  | named (t : Turn)
  deriving DecidableEq, Repr

/-- The state. The fields down to `abortIn` are R23's record, `obs` is R24's, and the rest is the model's own: the host's
side of the bus (log 3, log 4) and the statements its script still has (log 27), the interleaving (log 1) and the counter of the draws (log 9). -/
structure State where
  cfg : Config
  arg : Word
  result : Word
  err : Err
  pend : Option Pend
  serEn : Bool
  rate : Word
  doubleSpeed : Bool
  rxHead : Byte
  rxTail : Byte
  rxMem : Memory
  txHead : Byte
  txTail : Byte
  txMem : Memory
  txArmed : Bool
  flow : Flow
  rtsig : Byte
  nv : Memory
  nvInflight : Option InFlight
  nvmodeLast : NvMode
  nvmodeValid : Bool
  cnt : ModeCounts
  blk : Memory
  abortIn : Bool
  obs : List Event
  held : Option Word
  script : List ScriptStep
  hostReads : List (Nat × Word)
  turns : List Turn
  powerLosses : Nat
  deriving DecidableEq, Repr

/-- The machine right after its first power-up, in the spec's default configuration: the values of R231, every NV cell at
`NV_INIT` (R234: nothing listed), nothing observed, nothing for the host to do and no agent's turn given. DESIGN CHOICE,
unsafe: `ABORT_IN` is 0 (log 12); the rest of the model's own fields: log 13. -/
def State.reset : State where
  cfg := Config.standard
  arg := 0
  result := 0
  err := .ok
  pend := none
  serEn := false
  rate := 0
  doubleSpeed := false
  rxHead := 0
  rxTail := 0
  rxMem := []
  txHead := 0
  txTail := 0
  txMem := []
  txArmed := false
  flow := .xonAsserted
  rtsig := 0
  nv := []
  nvInflight := none
  nvmodeLast := .noOp
  nvmodeValid := false
  cnt := ⟨0, 0, 0, 0⟩
  blk := []
  abortIn := false
  obs := []
  held := none
  script := []
  hostReads := []
  turns := []
  powerLosses := 0

end Sys2Proof.Machine
end

