-- ==== Sys2Proof/Machine/Ops.lean ====
section
/-! DEFINITION. The named operations over values, memories, rings and registers that the rules share, with the one
operation by which a command ends in an error (60_exceptions.md R201). -/

namespace Sys2Proof.Machine

/-! Arithmetic (00_scope.md R7) -/

/-- `rotl8(v) = ((v << 1) | (v >> 7)) & 0xFF` (R7). -/
def rotl8 (v : Byte) : Byte := (v <<< 1) ||| (v >>> 7)

/-- `csum_step(c, b) = add8(rotl8(c), b)` (R7; 90_conflicts.md C1). -/
def csumStep (c b : Byte) : Byte := rotl8 c + b

/-- `csum(bs) = foldl csum_step 0x00 bs` (R7). -/
def csum (bs : List Byte) : Byte := bs.foldl csumStep 0x00#8

/-- `inc(i, C) = (i + 1) mod C` (R7). -/
def inc (i : Byte) (cap : Nat) : Byte := BitVec.ofNat 8 ((i.toNat + 1) % cap)

/-- `occ(h, t, C) = (h - t) mod C`, in `0..C-1` (R7). -/
def occ (head tail : Byte) (cap : Nat) : Nat := (((head.toNat : Int) - tail.toNat) % cap).toNat

/-! Memories (20_memory.md R60, R62, R64, R65) -/

/-- The byte last written at an address, if one was. -/
def Memory.read : Memory → Nat → Option Byte
  | [], _ => none
  | (k, b) :: m, a => if k = a then some b else Memory.read m a

/-- Write one byte, keeping addresses strictly rising. -/
def Memory.write : Memory → Nat → Byte → Memory
  | [], a, v => [(a, v)]
  | (k, b) :: m, a, v =>
    if a < k then (a, v) :: (k, b) :: m
    else if k = a then (a, v) :: m
    else (k, b) :: Memory.write m a v

/-- The canonical form: every address lies below all later ones. An unlisted address reads as no value, which no entry
can equal. -/
def Memory.wf : Memory → Bool
  | [] => true
  | (k, _) :: m => m.all (fun e => decide (k < e.1)) && Memory.wf m

/-- An NV cell: what was last programmed into it, else its byte at the first power-up (R65, R234; free value, log 7). -/
def State.nvByte (s : State) (a : Nat) : Byte := (s.nv.read a).getD (Config.nvInit a)

/-- A slot of RX_MEM; one not written since the last power loss holds a free value (R23, R232; log 8). -/
def State.rxSlot (s : State) (j : Nat) : Byte := (s.rxMem.read j).getD (Config.rxDraw s.powerLosses j)

/-- A slot of TX_MEM; one not written since the last power loss holds a free value (R23, R232; log 8). -/
def State.txSlot (s : State) (j : Nat) : Byte := (s.txMem.read j).getD (Config.txDraw s.powerLosses j)

/-- A block-buffer slot, `none` while unwritten since reset (R43). -/
def State.blkByte (s : State) (j : Nat) : Option Byte := s.blk.read j

/-! Rings (20_memory.md R61) -/

/-- RX occupancy (R61). -/
def State.rxOcc (s : State) : Nat := occ s.rxHead s.rxTail s.cfg.rxCap

/-- TX occupancy (R61). -/
def State.txOcc (s : State) : Nat := occ s.txHead s.txTail s.cfg.txCap

/-- RX is full iff `inc(head, C) == tail` (R61). -/
def State.rxFull (s : State) : Bool := inc s.rxHead s.cfg.rxCap == s.rxTail

/-- TX is full iff `inc(head, C) == tail` (R61). -/
def State.txFull (s : State) : Bool := inc s.txHead s.cfg.txCap == s.txTail

/-- RX is empty iff `head == tail` (R61). -/
def State.rxEmpty (s : State) : Bool := s.rxHead == s.rxTail

/-- TX is empty iff `head == tail` (R61). -/
def State.txEmpty (s : State) : Bool := s.txHead == s.txTail

/-- The RX write port: slot `RX_HEAD`, then the head advances (R60, R132). -/
def State.rxPush (s : State) (b : Byte) : State :=
  { s with rxMem := s.rxMem.write s.rxHead.toNat b, rxHead := inc s.rxHead s.cfg.rxCap }

/-- The byte at the RX read port, slot `RX_TAIL` (R60). -/
def State.rxFront (s : State) : Byte := s.rxSlot s.rxTail.toNat

/-- The RX tail advances past the byte read (R60, R115). -/
def State.rxPop (s : State) : State := { s with rxTail := inc s.rxTail s.cfg.rxCap }

/-- The TX write port: slot `TX_HEAD`, then the head advances (R62, R114). -/
def State.txPush (s : State) (b : Byte) : State :=
  { s with txMem := s.txMem.write s.txHead.toNat b, txHead := inc s.txHead s.cfg.txCap }

/-- The byte at the TX read port, slot `TX_TAIL` (R62). -/
def State.txFront (s : State) : Byte := s.txSlot s.txTail.toNat

/-- The TX tail advances past the byte read (R62, R135). -/
def State.txPop (s : State) : State := { s with txTail := inc s.txTail s.cfg.txCap }

/-! Events, commands and their ends -/

/-- `emit E`: append an event to the observation record (R8, R24). -/
def State.emit (s : State) (e : Event) : State := { s with obs := s.obs ++ [e] }

/-- The record a command word becomes at acceptance, with the `ARG` of that moment (R39, R110). -/
def acceptedCommand (w arg : Word) : Pend where
  op := opField w
  data := dataField w
  addr := addrField w
  arg := arg
  i := 0
  acc := 0

/-- Acceptance of a command word (R110). -/
def State.accept (s : State) (w : Word) : State := { s with pend := some (acceptedCommand w s.arg) }

/-- The command word a pending record was accepted from (R110). -/
def Pend.word (p : Pend) : Word := packWord p.addr p.data p.op

/-- The pending command as the command engine reads it: none, an instruction, or an illegal `OP` (R92, R93). -/
def State.pendingCommand (s : State) : Option (Except DecodeError Instr) := s.pend.map fun p => decode p.word

/-- `complete(res, err)`: the last action of a command's final step (R111). -/
def State.complete (s : State) (res : Word) (err : Err) : State := { s with result := res, err := err, pend := none }

/-- `raise CmdError(code)`: the one way a command ends in an error; the step makes no other change (R111, R201). -/
def State.raiseErr (s : State) (code : Err) : State := s.complete 0x00000000#32 code

/-- The CE step of a command whose `OP` is illegal (R93, R202 (1)). -/
def execIllegal (s : State) : Host.Outcome State Fault Refusal := .next (s.raiseErr .opcode)

end Sys2Proof.Machine
end

