-- ==== Sys2Proof/Machine/Operands.lean ====
section
/-! DEFINITION. Where a command's operands come from (30_encoding.md R91) and the forms of its result (10_state.md R28). -/

namespace Sys2Proof.Machine

/-- The record of the command the engine is executing: `PEND`, which the step always finds there. Where `exec` is asked for
a command that was never accepted, the record acceptance would make now (R110). DESIGN CHOICE, safe: log 11. -/
def State.command (s : State) (i : Instr) : Pend := s.pend.getD (acceptedCommand (encode i) s.arg)

/-- `rate = arg[31:0]` (R91). -/
def Pend.rate (p : Pend) : Word := p.arg

/-- `len = arg[15:0]`; `arg[31:16]` is ignored (R91, R94). -/
def Pend.len (p : Pend) : Nat := (p.arg.extractLsb' 0 16).toNat

/-- `RESULT.DATA = b`, every other field 0 (R28). -/
def resultData (b : Byte) : Word := b.setWidth 32

/-- `RESULT.NONE = 1`, every other field 0 (R28, R115). -/
def resultNone : Word := 0x00000100#32

/-- `RESULT.NOT_SENT = 1`, every other field 0 (R28, R114). -/
def resultNotSent : Word := 0x00000200#32

/-- `RESULT.CSUM = c`, every other field 0 (R28, R171). -/
def resultCsum (c : Byte) : Word := c.setWidth 32 <<< 16

/-- `RESULT` of a block read: `CSUM`, `VERIFIED` and the stored trailing byte (R28, R172). -/
def resultBlock (acc stored : Byte) : Word :=
  acc.setWidth 32 <<< 16 ||| (BitVec.ofBool (acc == stored)).setWidth 32 <<< 10 ||| stored.setWidth 32

end Sys2Proof.Machine
end

