-- ==== Sys2Proof/Machine/Flags.lean ====
section
/-! DEFINITION. The encodings of the enumerated state elements and every computation of a flag: the runtime-signal bits,
the flow-control checks and the transmit arming (10_state.md R30, R33, R38; 41_serial_engines.md R131, R133, R136, R137). -/

namespace Sys2Proof.Machine

/-- The encoding of `FLOW` (R38). -/
def Flow.code : Flow → BitVec 2
  | .xonAsserted => 0b00#2
  | .xoffPending => 0b01#2
  | .xoffAsserted => 0b10#2
  | .xonPending => 0b11#2

/-- The encoding of a programming mode (R33, R162). -/
def NvMode.code : NvMode → BitVec 2
  | .noOp => 0
  | .eraseOnly => 1
  | .writeOnly => 2
  | .eraseAndWrite => 3

/-- The encoding of `ERR` (R200). -/
def Err.code : Err → BitVec 4
  | .ok => 0
  | .opcode => 1
  | .addr => 2
  | .len => 3
  | .arg => 4

/-- A flow byte waits to be transmitted (R38). -/
def Flow.pending : Flow → Bool
  | .xonAsserted => false
  | .xoffPending => true
  | .xoffAsserted => false
  | .xonPending => true

/-- Flow control is built in and a flow byte waits (R135, R137). -/
def State.flowPending (s : State) : Bool := s.cfg.flowControl && s.flow.pending

/-- The realtime bytes (R131, R140). -/
def isRealtime (c : Config) (b : Byte) : Bool :=
  b == c.rtStatus || b == c.rtCycleStart || b == c.rtFeedHold || b == c.rtReset

/-- Set a sticky bit of `RTSIG` in one read-modify-write (R72, R131). -/
def State.signal (s : State) (bit : Byte) : State := { s with rtsig := s.rtsig ||| bit }

/-- Clear the bits of a mask among the three `RTSIG` has, in one read-modify-write (R72, R117). -/
def State.clearSignals (s : State) (mask : Byte) : State := { s with rtsig := s.rtsig &&& ~~~(mask &&& 0x07#8) }

/-- Arm the transmit path for a flow byte (R115, R133). -/
def State.scheduleFlow (s : State) (f : Flow) : State := { s with flow := f, txArmed := true }

/-- The XOFF check after an append (R133). -/
def State.checkXoff (s : State) : State :=
  if s.cfg.flowControl ∧ s.flow = .xonAsserted ∧ s.cfg.highWm ≤ s.rxOcc then s.scheduleFlow .xoffPending else s

/-- The XON check after a dequeue (R115). -/
def State.checkXon (s : State) : State :=
  if s.cfg.flowControl ∧ s.flow = .xoffAsserted ∧ s.rxOcc < s.cfg.lowWm then s.scheduleFlow .xonPending else s

/-- `FLOW` after an XOFF is sent, the low watermark checked again (R136). -/
def State.flowAfterXoff (s : State) : Flow := if s.rxOcc < s.cfg.lowWm then .xonPending else .xoffAsserted

/-- `FLOW` after an XON is sent, the high watermark checked again (R136). -/
def State.flowAfterXon (s : State) : Flow := if s.cfg.highWm ≤ s.rxOcc then .xoffPending else .xonAsserted

/-- The disarm check at the end of every TXE step (R137). -/
def State.disarm (s : State) : State :=
  if s.txHead = s.txTail ∧ s.flowPending = false then { s with txArmed := false } else s

end Sys2Proof.Machine
end

