-- ==== Sys2Proof/Machine/Serial.lean ====
section
/-! DEFINITION. The serial-link commands, one definition each (40_serial_commands.md R112 to R117). -/

namespace Sys2Proof.Machine

/-- `NOP` (R112). -/
def execNop (s : State) : Host.Outcome State Fault Refusal := .next (s.complete 0x00000000#32 .ok)

/-- `SER_INIT` (R113): rate 0 is an error; the double-speed clock is selected strictly above the threshold. -/
def execSerInit (s : State) : Host.Outcome State Fault Refusal :=
  let rate := (s.command .serInit).rate
  if rate = 0 then .next (s.raiseErr .arg)
  else
    .next ({ s with rate := rate, doubleSpeed := decide (s.cfg.rateThreshold < rate), serEn := true }.complete
      0x00000000#32 .ok)

/-- `SER_WRITE` (R114): enqueue if there is space, whatever `ABORT_IN` is; else give up if it is 1; else hold. -/
def execSerWrite (b : Byte) (s : State) : Host.Outcome State Fault Refusal :=
  if s.txFull = false then .next ({ s.txPush b with txArmed := true }.complete 0x00000000#32 .ok)
  else if s.abortIn then .next (s.complete resultNotSent .ok)
  else .next s

/-- `SER_READ` (R115): no flow-control check on the empty path (R241). -/
def execSerRead (s : State) : Host.Outcome State Fault Refusal :=
  if s.rxEmpty then .next (s.complete resultNone .ok)
  else .next (s.rxPop.checkXon.complete (resultData s.rxFront) .ok)

/-- `SER_RESET_RX` (R116): `TX_ARMED` stays as it is (R238). -/
def execSerResetRx (s : State) : Host.Outcome State Fault Refusal :=
  .next ({ s with rxTail := s.rxHead, flow := .xonAsserted }.complete 0x00000000#32 .ok)

/-- `RTSIG_CLEAR` (R117). -/
def execRtsigClear (mask : Byte) (s : State) : Host.Outcome State Fault Refusal :=
  .next ((s.clearSignals mask).complete 0x00000000#32 .ok)

end Sys2Proof.Machine
end

