-- ==== Sys2Proof/Machine/Programming.lean ====
section
/-! DEFINITION. Programming a cell of the non-volatile store: the write-mode decision, the cell physics, the
instrumentation and the primitive `writeByte` (42_nv_store.md R160 to R166). -/

namespace Sys2Proof.Machine

/-- `decide(old, value)`: the four-way write-mode decision (R162). -/
def selectMode (old value : Byte) : NvMode :=
  let diff := old ^^^ value
  if diff &&& value ≠ 0 ∧ value ≠ 0xFF#8 then .eraseAndWrite
  else if diff &&& value ≠ 0 ∧ value = 0xFF#8 then .eraseOnly
  else if diff ≠ 0 then .writeOnly
  else .noOp

/-- `apply(mode, old, value)`: what a completed programming operation leaves in the cell (R163). PRESUMED, safe: the AND form
of a write is general knowledge in the spec's own words (93_implementation_defined.md G3; log 25). R163 gives no row for
NoOp, which issues no operation; the cell keeps its byte. -/
def programmed (mode : NvMode) (old value : Byte) : Byte :=
  match mode with
  | .noOp => old
  | .eraseOnly => 0xFF#8
  | .writeOnly => old &&& value
  | .eraseAndWrite => 0xFF#8 &&& value

/-- `CNT[m]` (R34). -/
def ModeCounts.get (c : ModeCounts) : NvMode → Word
  | .noOp => c.noOp
  | .eraseOnly => c.eraseOnly
  | .writeOnly => c.writeOnly
  | .eraseAndWrite => c.eraseAndWrite

/-- `CNT[m] <- wrap32(CNT[m] + 1)` (R166). -/
def ModeCounts.bump (c : ModeCounts) : NvMode → ModeCounts
  | .noOp => { c with noOp := c.noOp + 1 }
  | .eraseOnly => { c with eraseOnly := c.eraseOnly + 1 }
  | .writeOnly => { c with writeOnly := c.writeOnly + 1 }
  | .eraseAndWrite => { c with eraseAndWrite := c.eraseAndWrite + 1 }

/-- Mode instrumentation (R166). -/
def State.recordMode (s : State) (m : NvMode) : State :=
  { s with nvmodeLast := m, nvmodeValid := true, cnt := s.cnt.bump m }

/-- The programming operation a mode issues, if any (R165). -/
def issued (a : Nat) (m : NvMode) (v : Byte) : Option InFlight :=
  if m = .noOp then none else some ⟨BitVec.ofNat 16 a, m, v⟩

/-- The primitive `writeByte(a, v)` as one atomic step; the step that calls it has found `NV_INFLIGHT = none` (R165). -/
def State.writeByte (s : State) (a : Nat) (v : Byte) : State :=
  let m := selectMode (s.nvByte a) v
  { s.recordMode m with nvInflight := issued a m v }

/-- Complete an in-flight operation: the cell takes its programmed value (R164, R233 reset case). -/
def State.finishProgramming (s : State) : State :=
  match s.nvInflight with
  | none => s
  | some f =>
    { s with
      nv := s.nv.write f.addr.toNat (programmed f.mode (s.nvByte f.addr.toNat) f.value)
      nvInflight := none }

/-- No programming operation is in flight (R40). -/
def State.nvIdle (s : State) : Bool := s.nvInflight.isNone

/-- A legal NV address (R160). -/
def State.nvLegal (s : State) (a : Nat) : Bool := decide (a < s.cfg.nvSize)

/-- The checks on the length and address of a block, in the order of R202 (2): the error to raise, if any (R160). -/
def State.blockError (s : State) (a len : Nat) : Option Err :=
  if s.cfg.blockMax < len then some .len
  else if s.cfg.nvSize ≤ a + len then some .addr
  else none

/-- `BLK[0..len-1]` are all written since reset (R43, R169). -/
def State.blkWritten (s : State) (len : Nat) : Bool := (List.range len).all fun j => (s.blkByte j).isSome

end Sys2Proof.Machine
end

