-- ==== Sys2Proof/Machine/Store.lean ====
section
/-! DEFINITION. The commands of the non-volatile store and its block buffer, one definition each
(42_nv_store.md R161 to R172). An erroring command never waits (60_exceptions.md R202 (4)); one without an error waits while
a programming operation is in flight. -/

namespace Sys2Proof.Machine

/-- `NV_READ` (R161). -/
def execNvRead (a : Addr) (s : State) : Host.Outcome State Fault Refusal :=
  if s.nvLegal a.toNat = false then .next (s.raiseErr .addr)
  else if s.nvIdle then .next (s.complete (resultData (s.nvByte a.toNat)) .ok)
  else .next s

/-- `NV_WRITE` (R165): completes when the operation is issued (R247). -/
def execNvWrite (a : Addr) (v : Byte) (s : State) : Host.Outcome State Fault Refusal :=
  if s.nvLegal a.toNat = false then .next (s.raiseErr .addr)
  else if s.nvIdle then .next ((s.writeByte a.toNat v).complete 0x00000000#32 .ok)
  else .next s

/-- The payload step of `NV_WRITE_BLOCK` for byte `k = PEND.i` (R170); a slot not written is a model fault (R43). -/
def State.blockPayloadStep (s : State) (a : Nat) (p : Pend) : Host.Outcome State Fault Refusal :=
  match s.blkByte p.i.toNat with
  | none => .fault .unwrittenBlk
  | some b =>
    .next { s.writeByte (a + p.i.toNat) b with pend := some { p with i := p.i + 1, acc := csumStep p.acc b } }

/-- The final step of `NV_WRITE_BLOCK`: the trailing checksum byte (R171). -/
def State.blockFinalStep (s : State) (a : Nat) (p : Pend) : State :=
  (s.writeByte (a + p.len) p.acc).complete (resultCsum p.acc) .ok

/-- The error `NV_WRITE_BLOCK` raises, looked for in its first step only (R169, R202 (5)). -/
def State.writeBlockError (s : State) (a : Nat) (p : Pend) : Option Err :=
  if p.i = 0 then s.blockError a p.len else none

/-- `NV_WRITE_BLOCK` (R169): one `writeByte` a step, the checks in step 0. The unwritten-slot check is no command error, so it
waits for an idle NV like the rest of the step (DEDUCED, safe: log 15). -/
def execNvWriteBlock (addr : Addr) (s : State) : Host.Outcome State Fault Refusal :=
  let p := s.command (.nvWriteBlock addr)
  match s.writeBlockError addr.toNat p with
  | some e => .next (s.raiseErr e)
  | none =>
    if s.nvIdle = false then .next s
    else if p.i = 0 ∧ s.blkWritten p.len = false then .fault .unwrittenBlk
    else if p.i.toNat < p.len then s.blockPayloadStep addr.toNat p
    else .next (s.blockFinalStep addr.toNat p)

/-- The payload bytes `NV[a .. a+len-1]` in ascending order (R69, R172). -/
def State.nvBytes (s : State) (a len : Nat) : List Byte := (List.range len).map fun j => s.nvByte (a + j)

/-- Store bytes into consecutive block slots from `j` on (R172). -/
def Memory.writeFrom (m : Memory) (j : Nat) : List Byte → Memory
  | [] => m
  | b :: bs => Memory.writeFrom (m.write j b) (j + 1) bs

/-- `NV_READ_BLOCK` (R172): one step; a failed verification is no error. -/
def execNvReadBlock (addr : Addr) (s : State) : Host.Outcome State Fault Refusal :=
  let p := s.command (.nvReadBlock addr)
  match s.blockError addr.toNat p.len with
  | some e => .next (s.raiseErr e)
  | none =>
    if s.nvIdle = false then .next s
    else
      let bytes := s.nvBytes addr.toNat p.len
      .next ({ s with blk := s.blk.writeFrom 0 bytes }.complete
        (resultBlock (csum bytes) (s.nvByte (addr.toNat + p.len))) .ok)

/-- `BUF_PUT` (R167). -/
def execBufPut (j : Addr) (v : Byte) (s : State) : Host.Outcome State Fault Refusal :=
  if s.cfg.blockMax ≤ j.toNat then .next (s.raiseErr .addr)
  else .next ({ s with blk := s.blk.write j.toNat v }.complete 0x00000000#32 .ok)

/-- `BUF_GET` (R168): a slot not written since reset is a model fault (R43, R203). -/
def execBufGet (j : Addr) (s : State) : Host.Outcome State Fault Refusal :=
  if s.cfg.blockMax ≤ j.toNat then .next (s.raiseErr .addr)
  else
    match s.blkByte j.toNat with
    | none => .fault .unwrittenBlk
    | some b => .next (s.complete (resultData b) .ok)

end Sys2Proof.Machine
end

