-- ==== Sys2Proof/Machine/Dispatch.lean ====
section
/-! DEFINITION. One arm per command: the CE step of each (30_encoding.md R92). -/

namespace Sys2Proof.Machine

def exec (i : Instr) (s : State) : Host.Outcome State Fault Refusal :=
  match i with
  | .nop => Sys2Proof.Machine.execNop s
  | .serInit => Sys2Proof.Machine.execSerInit s
  | .serWrite data => Sys2Proof.Machine.execSerWrite data s
  | .serRead => Sys2Proof.Machine.execSerRead s
  | .serResetRx => Sys2Proof.Machine.execSerResetRx s
  | .rtsigClear mask => Sys2Proof.Machine.execRtsigClear mask s
  | .nvRead addr => Sys2Proof.Machine.execNvRead addr s
  | .nvWrite addr value => Sys2Proof.Machine.execNvWrite addr value s
  | .nvWriteBlock addr => Sys2Proof.Machine.execNvWriteBlock addr s
  | .nvReadBlock addr => Sys2Proof.Machine.execNvReadBlock addr s
  | .bufPut index value => Sys2Proof.Machine.execBufPut index value s
  | .bufGet index => Sys2Proof.Machine.execBufGet index s

end Sys2Proof.Machine
end

