-- ==== Sys2Proof/Machine/Reset.lean ====
section
/-! DEFINITION. What ENV does between steps: reset, power loss and the abort input (60_exceptions.md R213,
70_reset_and_hazards.md R230 to R233). -/

namespace Sys2Proof.Machine

/-- The reset values of R231, with a held host write given up (R230). RX_MEM, TX_MEM, NV, ABORT_IN and the configuration
stay, as do the record of R24 and the host's own side. -/
def State.resetValues (s : State) : State :=
  { s with
    arg := 0x00000000#32
    result := 0x00000000#32
    err := .ok
    pend := none
    serEn := false
    rate := 0x00000000#32
    doubleSpeed := false
    rxHead := 0x00#8
    rxTail := 0x00#8
    txHead := 0x00#8
    txTail := 0x00#8
    txArmed := false
    flow := .xonAsserted
    rtsig := 0x00#8
    nvInflight := none
    nvmodeLast := .noOp
    nvmodeValid := false
    cnt := ⟨0x00000000#32, 0x00000000#32, 0x00000000#32, 0x00000000#32⟩
    blk := []
    held := none }

/-- Reset (R230): an operation in flight is completed, not cancelled (R233). -/
def resetStep (s : State) : State := (s.emit .reset).finishProgramming.resetValues

/-- What power loss does to a cell whose programming it interrupts: any byte (R233; free value, log 9). -/
def State.interruptProgramming (s : State) : State :=
  match s.nvInflight with
  | none => s
  | some f => { s with nv := s.nv.write f.addr.toNat (Config.interruptedCell s.powerLosses), nvInflight := none }

/-- Power loss and the power-up after it (R232): the reset values, and every ring slot a fresh free value (log 8, log 9). A
held host write is given up as at a reset (DEDUCED, safe: log 16). -/
def powerLossStep (s : State) : State :=
  { (s.emit .powerLoss).interruptProgramming.resetValues with
    rxMem := []
    txMem := []
    powerLosses := s.powerLosses + 1 }

/-- ENV drives the `ABORT_IN` input (R41, R213). -/
def abortStep (level : Bool) (s : State) : State := { s with abortIn := level }

end Sys2Proof.Machine
end

