-- ==== Sys2Proof/Machine/Engines.lean ====
section
/-! DEFINITION. The engines: RXE, TXE and NVE steps, each one atomic transition (41_serial_engines.md R130 to R137,
42_nv_store.md R164). An engine whose step is not enabled waits. -/

namespace Sys2Proof.Machine

/-- The action of a realtime byte (R131); a soft reset only invokes the abort hook (R205). -/
def State.realtime (s : State) (b : Byte) : State :=
  if b = s.cfg.rtStatus then s.signal 0x01#8
  else if b = s.cfg.rtCycleStart then s.signal 0x02#8
  else if b = s.cfg.rtFeedHold then s.signal 0x04#8
  else if b = s.cfg.rtReset then s.emit .abortHook
  else s

/-- Buffering of any other byte (R132), with the XOFF check after an append (R133). -/
def State.buffer (s : State) (b : Byte) : State :=
  if s.rxFull then s.emit (.rxDrop b) else (s.rxPush b).checkXoff

/-- The RXE step for a byte the line delivers (R130). -/
def rxeStep (b : Byte) (s : State) : State :=
  if s.serEn = false then s.emit (.rxDrop b)
  else if isRealtime s.cfg b then (s.emit (.lineIn b)).realtime b
  else (s.emit (.lineIn b)).buffer b

/-- A TXE step is enabled iff `SER_EN = 1` and `TX_ARMED = 1` (R134). -/
def State.txeEnabled (s : State) : Bool := s.serEn && s.txArmed

/-- Transmit at most one byte: a pending flow byte first, then payload (R135, R136). -/
def State.transmit (s : State) : State :=
  if s.cfg.flowControl ∧ s.flow = .xoffPending then
    { s.emit (.lineOut s.cfg.xoffByte) with flow := s.flowAfterXoff }
  else if s.cfg.flowControl ∧ s.flow = .xonPending then
    { s.emit (.lineOut s.cfg.xonByte) with flow := s.flowAfterXon }
  else if s.txEmpty then s
  else s.txPop.emit (.lineOut s.txFront)

/-- The TXE step (R134, R135, R137). -/
def txeStep (s : State) : State := if s.txeEnabled then s.transmit.disarm else s

/-- The NVE step (R164). -/
def nveStep (s : State) : State := s.finishProgramming

end Sys2Proof.Machine
end

