-- ==== Sys2Proof/Machine/Window.lean ====
section
/-! DEFINITION. The host register window and the HOST step (10_state.md R25 to R37, 20_memory.md R67, R68). -/

namespace Sys2Proof.Machine

/-- The registers of the window (R25). -/
inductive Reg where
  | cmd | arg | result | status | rtsig | rate | idx | nvmode
  | cntNoop | cntErase | cntWrite | cntEraseWrite | cfg0 | cfg1 | reserved38 | reserved3C
  deriving DecidableEq, Repr

/-- The byte offset of a register (R25). -/
def Reg.offset : Reg → Nat
  | .cmd => 0x00 | .arg => 0x04 | .result => 0x08 | .status => 0x0C
  | .rtsig => 0x10 | .rate => 0x14 | .idx => 0x18 | .nvmode => 0x1C
  | .cntNoop => 0x20 | .cntErase => 0x24 | .cntWrite => 0x28 | .cntEraseWrite => 0x2C
  | .cfg0 => 0x30 | .cfg1 => 0x34 | .reserved38 => 0x38 | .reserved3C => 0x3C

/-- The register at a byte offset: none off a word boundary or outside the window (R25, R67). -/
def regAt : Nat → Option Reg
  | 0x00 => some .cmd | 0x04 => some .arg | 0x08 => some .result | 0x0C => some .status
  | 0x10 => some .rtsig | 0x14 => some .rate | 0x18 => some .idx | 0x1C => some .nvmode
  | 0x20 => some .cntNoop | 0x24 => some .cntErase | 0x28 => some .cntWrite | 0x2C => some .cntEraseWrite
  | 0x30 => some .cfg0 | 0x34 => some .cfg1 | 0x38 => some .reserved38 | 0x3C => some .reserved3C
  | _ => none

/-- The register an access of a given width in bits reaches; none is a `BusAccess` fault (R67). -/
def regFor (width offset : Nat) : Option Reg := if width = 32 then regAt offset else none

/-- A one-bit field at bit `n` of a register (R6). -/
def bitAt (b : Bool) (n : Nat) : Word := (BitVec.ofBool b).setWidth 32 <<< n

/-- A number as the 8-bit field of a register whose lowest bit is `n` (R6). -/
def byteAt (v n : Nat) : Word := (BitVec.ofNat 8 v).setWidth 32 <<< n

/-- `STATUS` (R29). -/
def State.statusWord (s : State) : Word :=
  bitAt s.pend.isSome 0 ||| bitAt s.nvInflight.isSome 1 ||| bitAt s.serEn 2 ||| bitAt s.txArmed 3 |||
  s.flow.code.setWidth 32 <<< 4 ||| bitAt s.doubleSpeed 6 ||| bitAt s.abortIn 7 ||| s.err.code.setWidth 32 <<< 8 |||
  byteAt s.rxOcc 16 ||| byteAt s.txOcc 24

/-- `IDX` (R32). -/
def State.idxWord (s : State) : Word :=
  s.rxHead.setWidth 32 ||| s.rxTail.setWidth 32 <<< 8 ||| s.txHead.setWidth 32 <<< 16 ||| s.txTail.setWidth 32 <<< 24

/-- `NVMODE` (R33). -/
def State.nvmodeWord (s : State) : Word := s.nvmodeLast.code.setWidth 32 ||| bitAt s.nvmodeValid 2

/-- `CFG0` (R35). -/
def cfg0Word (c : Config) : Word :=
  byteAt (c.rxCap - 1) 0 ||| byteAt (c.txCap - 1) 8 ||| byteAt c.highWm 16 ||| byteAt c.lowWm 24

/-- `CFG1` (R36). -/
def cfg1Word (c : Config) : Word :=
  (BitVec.ofNat 16 (c.nvSize - 1)).setWidth 32 ||| byteAt (c.blockMax - 1) 16 ||| bitAt c.flowControl 24

/-- What a host read of a register returns (R25); no read has a side effect (R68). -/
def State.readReg (s : State) : Reg → Word
  | .cmd => 0x00000000#32
  | .arg => s.arg
  | .result => s.result
  | .status => s.statusWord
  | .rtsig => s.rtsig.setWidth 32
  | .rate => s.rate
  | .idx => s.idxWord
  | .nvmode => s.nvmodeWord
  | .cntNoop => s.cnt.noOp
  | .cntErase => s.cnt.eraseOnly
  | .cntWrite => s.cnt.writeOnly
  | .cntEraseWrite => s.cnt.eraseAndWrite
  | .cfg0 => cfg0Word s.cfg
  | .cfg1 => cfg1Word s.cfg
  | .reserved38 => 0x00000000#32
  | .reserved3C => 0x00000000#32

/-- A host write of `CMD`: accepted if no command is pending, else held on the bus (R26, R110). -/
def State.writeCmd (s : State) (w : Word) : State := if s.pend.isNone then s.accept w else { s with held := some w }

/-- A host write to a register; only `ARG` and `CMD` take it (R68). -/
def State.writeReg (s : State) (r : Reg) (w : Word) : State :=
  match r with
  | .cmd => s.writeCmd w
  | .arg => { s with arg := w }
  | .result => s | .status => s | .rtsig => s | .rate => s | .idx => s | .nvmode => s
  | .cntNoop => s | .cntErase => s | .cntWrite => s | .cntEraseWrite => s
  | .cfg0 => s | .cfg1 => s | .reserved38 => s | .reserved3C => s

/-- The word a read returned reaches the host (R212 "host gets back"; log 4). -/
def State.returnRead (s : State) (offset : Nat) (w : Word) : State := { s with hostReads := s.hostReads ++ [(offset, w)] }

/-- The script statement the host stands at has been executed (R21). -/
def State.advanceHost (s : State) : State := { s with script := s.script.tail }

/-- One access of the host to the window (R67, R68). A poll reads the register once and is over when the masked value is
the one waited for (R96); otherwise it stays the script's next statement (log 27). -/
def State.busAccess (s : State) : HostOp → Host.Outcome State Fault Refusal
  | .read width offset =>
    match regFor width offset with
    | none => .fault .busAccess
    | some r => .next (s.advanceHost.returnRead offset (s.readReg r))
  | .write width offset w =>
    match regFor width offset with
    | none => .fault .busAccess
    | some r => .next (s.advanceHost.writeReg r w)
  | .poll offset mask value =>
    match regFor 32 offset with
    | none => .fault .busAccess
    | some r =>
      let v := s.readReg r
      .next ((if v &&& mask = value then s.advanceHost else s).returnRead offset v)

/-- The HOST step: a held `CMD` write is accepted once no command is pending and holds the host until then (R26, R236);
otherwise the host makes the access its script stands at. At a step the script names, and at the script's end, it has none to
make (log 3, log 27). -/
def hostStep (s : State) : Host.Outcome State Fault Refusal :=
  match s.held with
  | some w => .next (if s.pend.isNone then { s.accept w with held := none } else s)
  | none =>
    match s.script with
    | [] => .next s
    | .access op :: _ => s.busAccess op
    | .named _ :: _ => .next s

/-- The turn of an agent, taken while the script stands at the statement that names this very step, executes that statement; a
held `CMD` write keeps the script where it is (R26, R96; log 27). -/
def State.passNamed (s : State) (t : Turn) : State :=
  if s.held = none ∧ t ≠ .host ∧ s.script.head? = some (.named t) then s.advanceHost else s

end Sys2Proof.Machine
end

