-- ==== Sys2Proof/Machine/Step.lean ====
section
/-! DEFINITION. One step of the machine: the agent whose turn it is moves (10_state.md R22, 20_memory.md R70). -/

namespace Sys2Proof.Machine

/-- The CE step: the pending command's, the illegal command's, or none (R92, R93, R110). -/
def ceStep (s : State) : Host.Outcome State Fault Refusal :=
  match s.pendingCommand with
  | none => .next s
  | some (.ok i) => exec i s
  | some (.error _) => execIllegal s

/-- The step of the agent of a turn (R22). -/
def agentStep (t : Turn) (s : State) : Host.Outcome State Fault Refusal :=
  match t with
  | .host => hostStep s
  | .ce => ceStep s
  | .rxe b => .next (rxeStep b s)
  | .txe => .next (txeStep s)
  | .nve => .next (nveStep s)
  | .abort level => .next (abortStep level s)
  | .reset => .next (resetStep s)
  | .powerLoss => .next (powerLossStep s)

/-- A turn: the agent's step, which executes the script statement that names it if the script stands there (R96). -/
def turnStep (t : Turn) (s : State) : Host.Outcome State Fault Refusal := agentStep t (s.passNamed t)

/-- One step: the agent of the next turn moves; with no turn given, none does (log 1). A machine whose configuration breaks
R4 is refused. -/
def step (s : State) : Host.Outcome State Fault Refusal :=
  if s.cfg.Wf then
    match s.turns with
    | [] => .next s
    | t :: ts => turnStep t { s with turns := ts }
  else .refused .illFormedConfig

/-- The word of an opcode-table row accepted as the pending command, with the CE to move next (R110; log 20). -/
def State.withFetchWord (s : State) (nbits w : Nat) : State :=
  { s.accept (tableWord nbits w) with turns := .ce :: s.turns }

end Sys2Proof.Machine
end

