-- ==== Sys2Proof/Machine/Assembly.lean ====
section
/-! DEFINITION. The assembly of host programs (30_encoding.md R96 to R98) as bus accesses and turns. -/

namespace Sys2Proof.Machine

/-- A statement of a host program (R96). -/
inductive Stmt where
  /-- `W reg, imm32` -/
  | write (r : Reg) (imm : Word)
  /-- `R reg` -/
  | read (r : Reg)
  /-- `POLL reg, mask, val` -/
  | poll (r : Reg) (mask val : Word)
  /-- `CMD mnemonic operands` -/
  | cmd (i : Instr)
  /-- `ENV LINE_IN byte` -/
  | lineIn (b : Byte)
  /-- `ENV TX_READY` -/
  | txReady
  /-- `ENV NV_DONE` -/
  | nvDone
  /-- `ENV ABORT level` -/
  | abort (level : Bool)
  /-- `ENV RESET` -/
  | reset
  /-- `ENV POWERLOSS` -/
  | powerLoss
  /-- `STEP CE` -/
  | stepCe
  deriving DecidableEq, Repr

/-- What a statement asks for: an access of the host (R96, R97), or the step of R22 that it names (R96). -/
def Stmt.action : Stmt → ScriptStep
  | .write r imm => .access (.write 32 r.offset imm)
  | .read r => .access (.read 32 r.offset)
  | .poll r mask val => .access (.poll r.offset mask val)
  | .cmd i => .access (.write 32 Reg.cmd.offset (encode i))
  | .lineIn b => .named (.rxe b)
  | .txReady => .named .txe
  | .nvDone => .named .nve
  | .abort level => .named (.abort level)
  | .reset => .named .reset
  | .powerLoss => .named .powerLoss
  | .stepCe => .named .ce

/-- Whose turn executes a statement. -/
def ScriptStep.turn : ScriptStep → Turn
  | .access _ => .host
  | .named t => t

/-- A program loaded from outside the machine, with the turns of one interleaving of its run (R21, R208; log 1, log 13). How
often a turn comes, those of a `POLL` or of a held write among them, is that list's to say: every list is allowed. -/
def State.load (s : State) (p : List Stmt) (turns : List Turn) : State :=
  { s with script := s.script ++ p.map Stmt.action, turns := s.turns ++ turns }

/-- One turn for every statement of a program, in its order: the interleaving of a run in which no `POLL` repeats and no write
is held. DESIGN CHOICE, safe: one list among all (log 27). -/
def namedTurns (p : List Stmt) : List Turn := p.map fun a => a.action.turn

/-- `WAIT_IDLE` (R98). -/
def waitIdle : List Stmt := [.poll .status 0x00000001#32 0x00000000#32]

/-- `WAIT_NV` (R98). -/
def waitNv : List Stmt := [.poll .status 0x00000002#32 0x00000000#32]

/-- `SER_INIT #rate` (R98). -/
def serInitRate (rate : Word) : List Stmt := [.write .arg rate, .cmd .serInit]

/-- `NV_WRITE_BLOCK addr, #len` (R98). -/
def nvWriteBlockLen (a : Addr) (len : Word) : List Stmt := [.write .arg len, .cmd (.nvWriteBlock a)]

/-- `NV_READ_BLOCK addr, #len` (R98). -/
def nvReadBlockLen (a : Addr) (len : Word) : List Stmt := [.write .arg len, .cmd (.nvReadBlock a)]

/-- `PUTBLK j, [b0, ..., bn-1]` (R98). DESIGN CHOICE, safe: an index past 0xFFFF, which R98 leaves open, is taken modulo 2^16, the
width of the operand (log 28). -/
def putBlk (j : Addr) : List Byte → List Stmt
  | [] => []
  | b :: bs => .cmd (.bufPut j b) :: putBlk (j + 1) bs

/-- `GETRESULT` (R98). -/
def getResult : List Stmt := waitIdle ++ [.read .result]

end Sys2Proof.Machine
end

