-- ==== Sys2Proof/Machine/Enabled.lean ====
section
/-! DEFINITION. When a step of an agent is enabled: the Enabled lines of the command rules and of R134, R164, R207. The steps
themselves do not read these; statements say that the two agree. -/

namespace Sys2Proof.Machine

/-- The Enabled line of a command's rule (R112 to R117, R161, R165, R167 to R172, R202 (4)). -/
def commandEnabled (i : Instr) (s : State) : Bool :=
  match i with
  | .nop => true
  | .serInit => true
  | .serWrite _ => !s.txFull || s.abortIn
  | .serRead => true
  | .serResetRx => true
  | .rtsigClear _ => true
  | .nvRead a => s.nvIdle || !s.nvLegal a.toNat
  | .nvWrite a _ => s.nvIdle || !s.nvLegal a.toNat
  | .nvWriteBlock a => s.nvIdle || (s.writeBlockError a.toNat (s.command (.nvWriteBlock a))).isSome
  | .nvReadBlock a => s.nvIdle || (s.blockError a.toNat (s.command (.nvReadBlock a)).len).isSome
  | .bufPut _ _ => true
  | .bufGet _ => true

/-- The pending command's next CE step is enabled (R110); an illegal command's always is (R93, R202 (4)). -/
def State.ceEnabled (s : State) : Bool :=
  match s.pendingCommand with
  | none => false
  | some (.error _) => true
  | some (.ok i) => commandEnabled i s

/-- The HOST has a step: a held write that can be accepted, or an access its script stands at (R26). -/
def State.hostEnabled (s : State) : Bool :=
  if s.held.isSome then s.pend.isNone
  else
    match s.script with
    | [] => false
    | .access _ :: _ => true
    | .named _ :: _ => false

/-- The agent of a turn has an enabled step (R22, R207, R213). -/
def State.enabled (s : State) : Turn → Bool
  | .host => s.hostEnabled
  | .ce => s.ceEnabled
  | .rxe _ => true
  | .txe => s.txeEnabled
  | .nve => !s.nvIdle
  | .abort _ => true
  | .reset => true
  | .powerLoss => true

end Sys2Proof.Machine
end

