-- ==== Sys2Proof/Safety.lean ====
section
/-! DEFINITION. What counts as a safe run, and the terms claims use: the invariants of reachable states, the contents of the
rings, what a step may leave unchanged, the end of a run, stuck states and fair schedules. -/

namespace Sys2Proof.Safety

open Sys2Proof.Machine

/-! Reachable states -/

/-- The five invariants of R42, on a well-formed configuration. -/
structure RegistersOk (s : State) : Prop where
  wf : s.cfg.Wf
  rxHead : s.rxHead.toNat < s.cfg.rxCap
  rxTail : s.rxTail.toNat < s.cfg.rxCap
  txHead : s.txHead.toNat < s.cfg.txCap
  txTail : s.txTail.toNat < s.cfg.txCap
  flowOff : s.cfg.flowControl = false → s.flow = .xonAsserted
  flowArmed : s.flow.pending = true → s.txArmed = true
  payloadArmed : s.txHead ≠ s.txTail → s.txArmed = true
  belowHigh : s.flow = .xonAsserted → s.cfg.flowControl = true → s.rxOcc < s.cfg.highWm

/-- The four memories are in canonical form. -/
structure MemoriesOk (s : State) : Prop where
  rx : s.rxMem.wf = true
  tx : s.txMem.wf = true
  nv : s.nv.wf = true
  blk : s.blk.wf = true

/-- The slot of the `k`-th unread byte of RX (R63). -/
def rxUnread (s : State) (k : Nat) : Nat := (s.rxTail.toNat + k) % s.cfg.rxCap

/-- The slot of the `k`-th unsent byte of TX (R63). -/
def txUnsent (s : State) (k : Nat) : Nat := (s.txTail.toNat + k) % s.cfg.txCap

/-- The unread bytes of RX, oldest first (R142). -/
def rxContents (s : State) : List Byte := (List.range s.rxOcc).map fun k => s.rxSlot (rxUnread s k)

/-- The unsent bytes of TX, oldest first (R142). -/
def txContents (s : State) : List Byte := (List.range s.txOcc).map fun k => s.txSlot (txUnsent s k)

/-- Every slot a consumer may read was written since the last power loss (R63). -/
structure RingsWritten (s : State) : Prop where
  registers : RegistersOk s
  rx : ∀ k < s.rxOcc, (s.rxMem.read (rxUnread s k)).isSome = true
  tx : ∀ k < s.txOcc, (s.txMem.read (txUnsent s k)).isSome = true

/-- No unread byte is a realtime byte (R140). -/
structure RealtimeExcluded (s : State) : Prop where
  registers : RegistersOk s
  unread : ∀ b ∈ rxContents s, isRealtime s.cfg b = false

/-- The first `n` block-buffer slots as bytes; only written slots count (R169). -/
def blkBytes (s : State) (n : Nat) : List Byte := (List.range n).filterMap s.blkByte

/-- What the store's records mean between steps: an operation in flight is at a legal address, was issued by a mode that
changes the cell and will leave exactly its value (R40, R160, R163); a block write under way has passed its checks and its
running checksum is that of the bytes done (R39, R169, R170); no other command counts (R39). -/
structure StoreOk (s : State) : Prop where
  wf : s.cfg.Wf
  inflight : ∀ f, s.nvInflight = some f →
    f.addr.toNat < s.cfg.nvSize ∧ f.mode ≠ .noOp ∧
    programmed f.mode (s.nvByte f.addr.toNat) f.value = f.value
  underway : ∀ p, s.pend = some p → p.i ≠ 0 →
    p.op = 0x12#8 ∧ s.blockError p.addr.toNat p.len = none ∧ p.i.toNat ≤ p.len ∧ s.blkWritten p.len = true
  running : ∀ p, s.pend = some p → p.acc = csum (blkBytes s p.i.toNat)

/-! What a step leaves unchanged -/

/-- The registers and rings of the serial link are unchanged. -/
structure SameSerial (s t : State) : Prop where
  serEn : t.serEn = s.serEn
  rate : t.rate = s.rate
  doubleSpeed : t.doubleSpeed = s.doubleSpeed
  rxHead : t.rxHead = s.rxHead
  rxTail : t.rxTail = s.rxTail
  rxSlots : ∀ j, t.rxSlot j = s.rxSlot j
  txHead : t.txHead = s.txHead
  txTail : t.txTail = s.txTail
  txSlots : ∀ j, t.txSlot j = s.txSlot j
  txArmed : t.txArmed = s.txArmed
  flow : t.flow = s.flow
  rtsig : t.rtsig = s.rtsig

/-- The cells, the operation in flight, the instrumentation and the block buffer of the store are unchanged. -/
structure SameStore (s t : State) : Prop where
  cells : ∀ a, t.nvByte a = s.nvByte a
  nvInflight : t.nvInflight = s.nvInflight
  nvmodeLast : t.nvmodeLast = s.nvmodeLast
  nvmodeValid : t.nvmodeValid = s.nvmodeValid
  cnt : t.cnt = s.cnt
  blk : ∀ j, t.blkByte j = s.blkByte j

/-- Everything that is neither the serial link's, nor the store's, nor the command slot's is unchanged. -/
structure SameRest (s t : State) : Prop where
  cfg : t.cfg = s.cfg
  arg : t.arg = s.arg
  abortIn : t.abortIn = s.abortIn
  obs : t.obs = s.obs
  held : t.held = s.held
  script : t.script = s.script
  hostReads : t.hostReads = s.hostReads
  turns : t.turns = s.turns
  powerLosses : t.powerLosses = s.powerLosses

/-! The end of a run, stuck states and fairness -/

/-- A run is over (R250): the script has executed its last statement, the steps it names among them, and nothing is pending,
in flight or to be sent. A state is never a faulted one (log 14). -/
abbrev runOver (s : State) : Prop :=
  s.script = [] ∧ s.held = none ∧ s.pend = none ∧ s.nvInflight = none ∧ (s.txArmed = false ∨ s.serEn = false)

/-- `t` is the end state of the run from `s`: the first state in which the run is over (R250). -/
def EndState (s t : State) : Prop :=
  ∃ n, Host.Core.run Sys2Proof.core n s = .next t ∧ runOver t ∧
    ∀ m < n, ∀ u, Host.Core.run Sys2Proof.core m s = .next u → ¬ runOver u

/-- What R250 lets be observed of an end state. -/
structure Observables where
  window : List Word
  nv : List Byte
  obs : List Event
  deriving DecidableEq, Repr

/-- The register window as read by the host, lowest offset first; `NV`; the observation record (R250). -/
def observables (s : State) : Observables where
  window := (List.range 16).filterMap fun n => (regAt (4 * n)).map s.readReg
  nv := s.nvBytes 0 s.cfg.nvSize
  obs := s.obs

/-- A command is pending and no agent of SLNV has an enabled step (R239, U12). -/
abbrev stuck (s : State) : Prop :=
  s.pend.isSome = true ∧ s.ceEnabled = false ∧ s.txeEnabled = false ∧ s.nvIdle = true

/-- A run that follows an endless schedule of turns (R70, R208). -/
def Follows (schedule : Nat → Turn) (run : Nat → State) : Prop :=
  ∀ n, turnStep (schedule n) (run n) = .next (run (n + 1))

/-- Weak fairness to one agent: it cannot stay enabled forever without its turn (R214). -/
def FairTo (t : Turn) (schedule : Nat → Turn) (run : Nat → State) : Prop :=
  ∀ n, ∃ m, n ≤ m ∧ (schedule m = t ∨ (run m).enabled t = false)

/-- The fairness of R214: of TXE, NVE and CE, not of HOST or ENV. -/
def Fair (schedule : Nat → Turn) (run : Nat → State) : Prop :=
  FairTo .txe schedule run ∧ FairTo .nve schedule run ∧ FairTo .ce schedule run

end Sys2Proof.Safety
end

