-- ==== Sys2Proof/Certificates/Slice0/Obligations.lean ====
section
/-! DEFINITION. The statements for the provers, each formalising rules of spec/ named in its docstring. -/

open Sys2Proof Sys2Proof.Machine Sys2Proof.Safety

/-! ## Encoding (30_encoding.md) -/

/-- R90, R92, R97: decoding the word of a command gives the command back, at every value of its operands. -/
def Obligations.DecodeInvertsEncode : Prop := ∀ i : Instr, decode (encode i) = .ok i

/-- R97: the word is `zext(ADDR) << 16 | DATA << 8 | OP`, and R90's fields are read back from it. -/
def Obligations.WordLaysOutFields : Prop :=
  ∀ (a : Addr) (d o : Byte),
    (packWord a d o).toNat = a.toNat * 65536 + d.toNat * 256 + o.toNat ∧
    opField (packWord a d o) = o ∧ dataField (packWord a d o) = d ∧ addrField (packWord a d o) = a

/-- R95: every word is a command of R92 with its fields, or the illegal command of R93; never both. -/
def Obligations.DecodingIsTotal : Prop :=
  ∀ w : Word,
    (∃ i, decode w = .ok i ∧ encode i = w &&& usedBits i) ∧ ¬ (0x06 ≤ (opField w).toNat ∧ (opField w).toNat ≤ 0x0F) ∧
        ¬ 0x16 ≤ (opField w).toNat ∨
    decode w = .error (.illegalOpcode (opField w)) ∧
      ((0x06 ≤ (opField w).toNat ∧ (opField w).toNat ≤ 0x0F) ∨ 0x16 ≤ (opField w).toNat)

/-- R94: two words that agree on `OP` and on the fields the command takes decode to one command. -/
def Obligations.IgnoredFieldsDoNotMatter : Prop :=
  ∀ (w v : Word) (i : Instr), decode w = .ok i → v &&& usedBits i = w &&& usedBits i → decode v = .ok i

/-- Words written out from R97's examples and 95_test_vectors.md section 2.6 decode to the commands they stand for. -/
def Obligations.SpecWordsDecode : Prop :=
  decode 0x00004102#32 = .ok (.serWrite 0x41) ∧
  decode 0xFFFFFF03#32 = .ok .serRead ∧
  decode 0x00000705#32 = .ok (.rtsigClear 0x07) ∧
  decode 0x00643C11#32 = .ok (.nvWrite 100 0x3C) ∧
  decode 0x00640012#32 = .ok (.nvWriteBlock 100) ∧
  decode 0x00640013#32 = .ok (.nvReadBlock 100) ∧
  decode 0x00020314#32 = .ok (.bufPut 2 0x03) ∧
  decode 0x12345606#32 = .error (.illegalOpcode 0x06)

/-! ## The step, the configuration and the stops -/

/-- R22, R70, R92, R110: with a turn given, the step is that agent's own step at the state with the turn taken; on the CE's
turn that is the meaning of the command pending. The script statement that names the step is executed by it (`passNamed`: R96;
when it counts as executed is the model's choice, log 27). With no turn given nothing moves (the model's choice, log 1). -/
def Obligations.StepRunsPendingCommand : Prop :=
  ∀ s : State, s.cfg.Wf →
    (∀ ts p i, s.turns = .ce :: ts → s.pend = some p → decode p.word = .ok i →
      step s = exec i ({ s with turns := ts }.passNamed .ce)) ∧
    (∀ u ts, s.turns = u :: ts → step s = agentStep u ({ s with turns := ts }.passNamed u)) ∧
    (∀ u rest, s.held = none → u ≠ .host → s.script = .named u :: rest → s.passNamed u = { s with script := rest }) ∧
    (∀ u, s.held ≠ none ∨ u = .host ∨ (∀ rest, s.script ≠ .named u :: rest) → s.passNamed u = s) ∧
    (s.turns = [] → step s = .next s)

/-- R4, R203: the step refuses exactly a machine whose configuration is ill-formed. -/
def Obligations.RefusedIffIllFormed : Prop :=
  ∀ (s : State) (r : Refusal), step s = .refused r ↔ ¬ s.cfg.Wf ∧ r = .illFormedConfig

/-- R203: a step faults only for the host's next access, no `CMD` write being held, that R67 gives no meaning, and for an
unwritten block slot that the pending `BUF_GET` or `NV_WRITE_BLOCK` needs. That an `NV_WRITE_BLOCK` faults only with nothing in
flight is read from R169 by inference (log 15). -/
def Obligations.FaultsOnlyAsListed : Prop :=
  ∀ (s : State) (f : Fault), step s = .fault f →
    (f = .busAccess ∧ ∃ op rest ts, s.turns = .host :: ts ∧ s.held = none ∧ s.script = .access op :: rest ∧
      ((∃ width offset w, (op = .read width offset ∨ op = .write width offset w) ∧
          ¬ (width = 32 ∧ offset % 4 = 0 ∧ offset ≤ 0x3C)) ∨
       ∃ offset m v, op = .poll offset m v ∧ ¬ (offset % 4 = 0 ∧ offset ≤ 0x3C))) ∨
    (f = .unwrittenBlk ∧ ∃ ts p, s.turns = .ce :: ts ∧ s.pend = some p ∧
      ((∃ j, decode p.word = .ok (.bufGet j) ∧ j.toNat < s.cfg.blockMax ∧ s.blkByte j.toNat = none) ∨
       (∃ a, decode p.word = .ok (.nvWriteBlock a) ∧ s.nvInflight = none ∧ ∃ j < p.len, s.blkByte j = none)))

/-- R93: an illegal word is accepted like any other, and the CE step then completes it with ERR_OPCODE, changing nothing but
`RESULT`, `ERR` and the slot it leaves. -/
def Obligations.IllegalOpcodeCompletesWithError : Prop :=
  ∀ (s : State) (w : Word), s.pend = none →
    ((0x06 ≤ (opField w).toNat ∧ (opField w).toNat ≤ 0x0F) ∨ 0x16 ≤ (opField w).toNat) →
      ceStep (s.writeReg .cmd w) = .next { s with result := 0, err := .opcode, pend := none }

/-! ## The register window (10_state.md, 20_memory.md) -/

/-- R26, R39, R110: a `CMD` write is accepted when no command is pending, as the record of the word's fields with `ARG` as it is
then and no byte done; otherwise it is held until none is pending, and then accepted; a read of `CMD` gives 0. -/
def Obligations.CmdWriteAcceptedOrHeld : Prop :=
  ∀ (s : State) (w : Word) (rest : List ScriptStep) (p : Pend),
    p = { op := w.extractLsb' 0 8, data := w.extractLsb' 8 8, addr := w.extractLsb' 16 16, arg := s.arg, i := 0, acc := 0 } →
    p.word = w ∧
    (s.held = none → s.script = .access (.write 32 0x00 w) :: rest → s.pend = none →
      hostStep s = .next { s with script := rest, pend := some p }) ∧
    (s.held = none → s.script = .access (.write 32 0x00 w) :: rest → s.pend ≠ none →
      hostStep s = .next { s with script := rest, held := some w }) ∧
    (s.held = some w → s.pend ≠ none → hostStep s = .next s) ∧
    (s.held = some w → s.pend = none → hostStep s = .next { s with held := none, pend := some p }) ∧
    s.readReg .cmd = 0

/-- R27: `ARG` is written whole and reads back unchanged; writing it while a command is pending leaves that command alone; the
operands of the commands that take it come from the copy; it is 0 at reset. -/
def Obligations.ArgIsCopiedAtAcceptance : Prop :=
  (∀ (s : State) (w : Word) (rest : List ScriptStep), s.held = none → s.script = .access (.write 32 0x04 w) :: rest →
    hostStep s = .next { s with script := rest, arg := w } ∧ { s with script := rest, arg := w }.readReg .arg = w) ∧
  (∀ (s : State) (w : Word), s.pend = none → (s.writeReg .cmd w).pend = some (acceptedCommand w s.arg)) ∧
  (∀ w arg : Word, (acceptedCommand w arg).rate = arg ∧ (acceptedCommand w arg).len = arg.toNat % 65536) ∧
  State.reset.arg = 0 ∧ ∀ s : State, s.resetValues.arg = 0

/-- R67: an access that is not 32 bits wide at a word-aligned offset in 0x00 to 0x3C is a `BusAccess` fault; every other access
is answered. A poll (R96) is a read of 32 bits. -/
def Obligations.BusAccessFaultsOutsideWindow : Prop :=
  ∀ (s : State) (width offset : Nat) (w mask value : Word),
    (s.busAccess (.read width offset) = .fault .busAccess ↔ ¬ (width = 32 ∧ offset % 4 = 0 ∧ offset ≤ 0x3C)) ∧
    (s.busAccess (.write width offset w) = .fault .busAccess ↔ ¬ (width = 32 ∧ offset % 4 = 0 ∧ offset ≤ 0x3C)) ∧
    (s.busAccess (.poll offset mask value) = .fault .busAccess ↔ ¬ (offset % 4 = 0 ∧ offset ≤ 0x3C)) ∧
    ((width = 32 ∧ offset % 4 = 0 ∧ offset ≤ 0x3C) →
      (∃ t, s.busAccess (.read width offset) = .next t) ∧ (∃ t, s.busAccess (.write width offset w) = .next t) ∧
        ∃ t, s.busAccess (.poll offset mask value) = .next t)

/-- R68, R37: a read returns the register and changes nothing of SLNV; a write to `ARG` sets it, a write to `CMD` is accepted or
held, a write to any other offset has no effect; `CMD` and the two reserved offsets read 0. R25: the sixteen offsets, and what
`ARG`, `RESULT`, `RTSIG`, `RATE` and the four counters read (R27, R28, R30, R31, R34; the other words: `StatusWordsShowLiveFields`,
`ConfigurationWords`). R96: a poll reads its register and is over exactly when the masked value is the one waited for. The model's
choices: the host's accesses are the list `script` and a poll reads once a turn (log 3, log 27), and the word a read returns is
appended to `hostReads` (log 4). -/
def Obligations.BusSideEffectsOnlyOfArgAndCmd : Prop :=
  ∀ (s : State) (r : Reg) (w mask value : Word),
    s.busAccess (.read 32 r.offset) =
      .next { s with script := s.script.tail, hostReads := s.hostReads ++ [(r.offset, s.readReg r)] } ∧
    (r ≠ .cmd → r ≠ .arg → s.busAccess (.write 32 r.offset w) = .next { s with script := s.script.tail }) ∧
    s.busAccess (.write 32 Reg.arg.offset w) = .next { s with script := s.script.tail, arg := w } ∧
    (s.pend = none → s.busAccess (.write 32 Reg.cmd.offset w) =
      .next { s with script := s.script.tail, pend := some (acceptedCommand w s.arg) }) ∧
    (s.pend ≠ none → s.busAccess (.write 32 Reg.cmd.offset w) =
      .next { s with script := s.script.tail, held := some w }) ∧
    (s.readReg r &&& mask = value → s.busAccess (.poll r.offset mask value) =
      .next { s with script := s.script.tail, hostReads := s.hostReads ++ [(r.offset, s.readReg r)] }) ∧
    (s.readReg r &&& mask ≠ value → s.busAccess (.poll r.offset mask value) =
      .next { s with hostReads := s.hostReads ++ [(r.offset, s.readReg r)] }) ∧
    s.readReg .cmd = 0 ∧ s.readReg .reserved38 = 0 ∧ s.readReg .reserved3C = 0 ∧
    s.readReg .arg = s.arg ∧ s.readReg .result = s.result ∧ s.readReg .rate = s.rate ∧
    (s.readReg .rtsig).toNat = s.rtsig.toNat ∧
    s.readReg .cntNoop = s.cnt.get .noOp ∧ s.readReg .cntErase = s.cnt.get .eraseOnly ∧
    s.readReg .cntWrite = s.cnt.get .writeOnly ∧ s.readReg .cntEraseWrite = s.cnt.get .eraseAndWrite ∧
    Reg.cmd.offset = 0x00 ∧ Reg.arg.offset = 0x04 ∧ Reg.result.offset = 0x08 ∧ Reg.status.offset = 0x0C ∧
    Reg.rtsig.offset = 0x10 ∧ Reg.rate.offset = 0x14 ∧ Reg.idx.offset = 0x18 ∧ Reg.nvmode.offset = 0x1C ∧
    Reg.cntNoop.offset = 0x20 ∧ Reg.cntErase.offset = 0x24 ∧ Reg.cntWrite.offset = 0x28 ∧
    Reg.cntEraseWrite.offset = 0x2C ∧ Reg.cfg0.offset = 0x30 ∧ Reg.cfg1.offset = 0x34 ∧
    Reg.reserved38.offset = 0x38 ∧ Reg.reserved3C.offset = 0x3C

/-- R29, R32, R33: every field of `STATUS`, `IDX` and `NVMODE`, reserved bits included, with the encodings of `FLOW` (R38), of
`ERR` (R200) and of the modes, and what the three words read after a reset. -/
def Obligations.StatusWordsShowLiveFields : Prop :=
  ∀ s : State, let v := s.readReg .status
    v.getLsbD 0 = s.pend.isSome ∧ v.getLsbD 1 = s.nvInflight.isSome ∧ v.getLsbD 2 = s.serEn ∧
    v.getLsbD 3 = s.txArmed ∧ v.extractLsb' 4 2 = s.flow.code ∧ v.getLsbD 6 = s.doubleSpeed ∧
    v.getLsbD 7 = s.abortIn ∧ v.extractLsb' 8 4 = s.err.code ∧ v.extractLsb' 12 4 = 0 ∧
    (v.extractLsb' 16 8).toNat = occ s.rxHead s.rxTail s.cfg.rxCap % 256 ∧
    (v.extractLsb' 24 8).toNat = occ s.txHead s.txTail s.cfg.txCap % 256 ∧
    Flow.xonAsserted.code = 0 ∧ Flow.xoffPending.code = 1 ∧ Flow.xoffAsserted.code = 2 ∧ Flow.xonPending.code = 3 ∧
    Err.ok.code = 0 ∧ Err.opcode.code = 1 ∧ Err.addr.code = 2 ∧ Err.len.code = 3 ∧ Err.arg.code = 4 ∧
    (s.readReg .idx).extractLsb' 0 8 = s.rxHead ∧ (s.readReg .idx).extractLsb' 8 8 = s.rxTail ∧
    (s.readReg .idx).extractLsb' 16 8 = s.txHead ∧ (s.readReg .idx).extractLsb' 24 8 = s.txTail ∧
    (s.readReg .nvmode).extractLsb' 0 2 = s.nvmodeLast.code ∧ (s.readReg .nvmode).getLsbD 2 = s.nvmodeValid ∧
    (s.readReg .nvmode).extractLsb' 3 29 = 0 ∧
    NvMode.noOp.code = 0 ∧ NvMode.eraseOnly.code = 1 ∧ NvMode.writeOnly.code = 2 ∧ NvMode.eraseAndWrite.code = 3 ∧
    (resetStep s).readReg .status = (if s.abortIn then 0x00000080 else 0) ∧ (resetStep s).readReg .idx = 0 ∧
    (resetStep s).readReg .nvmode = 0

/-- R35, R36: the configuration words, for every well-formed configuration. -/
def Obligations.ConfigurationWords : Prop :=
  ∀ s : State, s.cfg.Wf →
    ((s.readReg .cfg0).extractLsb' 0 8).toNat = s.cfg.rxCap - 1 ∧
    ((s.readReg .cfg0).extractLsb' 8 8).toNat = s.cfg.txCap - 1 ∧
    ((s.readReg .cfg0).extractLsb' 16 8).toNat = s.cfg.highWm ∧
    ((s.readReg .cfg0).extractLsb' 24 8).toNat = s.cfg.lowWm ∧
    ((s.readReg .cfg1).extractLsb' 0 16).toNat = s.cfg.nvSize - 1 ∧
    ((s.readReg .cfg1).extractLsb' 16 8).toNat = s.cfg.blockMax - 1 ∧
    (s.readReg .cfg1).getLsbD 24 = s.cfg.flowControl ∧ (s.readReg .cfg1).extractLsb' 25 7 = 0

/-! ## Serial-link commands (40_serial_commands.md) -/

/-- R112: `NOP` completes with `RESULT` 0 and `OK`, and changes nothing else. -/
def Obligations.NopCompletes : Prop :=
  ∀ s : State, exec .nop s = .next { s with result := 0, err := .ok, pend := none }

/-- R113: `SER_INIT` on the rate its command copied: rate 0 is `ERR_ARG` and changes nothing else; any other is taken, with the
double-speed clock strictly above the threshold. -/
def Obligations.SerInitTakesTheRate : Prop :=
  ∀ (s : State) (p : Pend), s.pend = some p →
    (p.arg = 0 → exec .serInit s = .next { s with result := 0, err := .arg, pend := none }) ∧
    (p.arg ≠ 0 → ∃ t, exec .serInit s =
        .next { s with rate := p.arg, doubleSpeed := t, serEn := true, result := 0, err := .ok, pend := none } ∧
      (t = true ↔ s.cfg.rateThreshold.toNat < p.arg.toNat))

/-- R114: `SER_WRITE` enqueues while TX has space, whatever `ABORT_IN`; with TX full it gives up if `ABORT_IN` is 1 and holds
if it is 0. -/
def Obligations.SerWriteEnqueuesAbortsOrHolds : Prop :=
  ∀ (s : State) (b : Byte),
    (inc s.txHead s.cfg.txCap ≠ s.txTail → exec (.serWrite b) s =
      .next { s with
        txMem := s.txMem.write s.txHead.toNat b, txHead := inc s.txHead s.cfg.txCap, txArmed := true,
        result := 0, err := .ok, pend := none }) ∧
    (inc s.txHead s.cfg.txCap = s.txTail → s.abortIn = true →
      exec (.serWrite b) s = .next { s with result := 0x00000200, err := .ok, pend := none }) ∧
    (inc s.txHead s.cfg.txCap = s.txTail → s.abortIn = false → exec (.serWrite b) s = .next s)

/-- R115: `SER_READ` answers NONE on an empty RX; otherwise it takes the byte at the tail and, if that leaves occupancy below
the low watermark with an XOFF asserted, schedules an XON. -/
def Obligations.SerReadDequeues : Prop :=
  ∀ s : State,
    (s.rxHead = s.rxTail → exec .serRead s = .next { s with result := 0x00000100, err := .ok, pend := none }) ∧
    (s.rxHead ≠ s.rxTail →
      let low : Prop := s.cfg.flowControl = true ∧ s.flow = .xoffAsserted ∧
        occ s.rxHead (inc s.rxTail s.cfg.rxCap) s.cfg.rxCap < s.cfg.lowWm
      (low → exec .serRead s = .next { s with
        rxTail := inc s.rxTail s.cfg.rxCap, flow := .xonPending, txArmed := true,
        result := (s.rxSlot s.rxTail.toNat).setWidth 32, err := .ok, pend := none }) ∧
      (¬ low → exec .serRead s = .next { s with
        rxTail := inc s.rxTail s.cfg.rxCap,
        result := (s.rxSlot s.rxTail.toNat).setWidth 32, err := .ok, pend := none }))

/-- R116: `SER_RESET_RX` empties RX by its tail and resets the flow state, and changes nothing of TX. -/
def Obligations.SerResetRxClearsLogically : Prop :=
  ∀ s : State, exec .serResetRx s =
    .next { s with rxTail := s.rxHead, flow := .xonAsserted, result := 0, err := .ok, pend := none }

/-- R117: `RTSIG_CLEAR` clears, bit by bit, the three runtime signals its mask selects. -/
def Obligations.RtsigClearClearsMaskedBits : Prop :=
  ∀ (s : State) (mask : Byte), ∃ v : Byte,
    exec (.rtsigClear mask) s = .next { s with rtsig := v, result := 0, err := .ok, pend := none } ∧
    ∀ n < 8, v.getLsbD n = (s.rtsig.getLsbD n && !(mask.getLsbD n && decide (n < 3)))

/-! ## The non-volatile store (42_nv_store.md) -/

/-- R161: `NV_READ` of an illegal address is `ERR_ADDR` at once; of a legal one it returns the cell when no operation is in
flight, and holds while one is. -/
def Obligations.NvReadReturnsTheCell : Prop :=
  ∀ (s : State) (a : Addr),
    (s.cfg.nvSize ≤ a.toNat → exec (.nvRead a) s = .next { s with result := 0, err := .addr, pend := none }) ∧
    (a.toNat < s.cfg.nvSize → s.nvInflight = none →
      exec (.nvRead a) s = .next { s with result := (s.nvByte a.toNat).setWidth 32, err := .ok, pend := none }) ∧
    (a.toNat < s.cfg.nvSize → s.nvInflight ≠ none → exec (.nvRead a) s = .next s)

/-- R165, R166: `NV_WRITE` decides the mode from the present cell, records it, and issues the operation unless it is NoOp; the
cells themselves do not change. -/
def Obligations.NvWriteIssuesTheOperation : Prop :=
  ∀ (s : State) (a : Addr) (v : Byte),
    (s.cfg.nvSize ≤ a.toNat → exec (.nvWrite a v) s = .next { s with result := 0, err := .addr, pend := none }) ∧
    (a.toNat < s.cfg.nvSize → s.nvInflight = none → ∀ m, m = selectMode (s.nvByte a.toNat) v →
      exec (.nvWrite a v) s = .next { s with
        nvmodeLast := m, nvmodeValid := true, cnt := s.cnt.bump m,
        nvInflight := if m = .noOp then none else some ⟨a, m, v⟩,
        result := 0, err := .ok, pend := none }) ∧
    (a.toNat < s.cfg.nvSize → s.nvInflight ≠ none → exec (.nvWrite a v) s = .next s)

/-- R162: the four-way decision, in the words of the source (which bits must rise and which must fall), and its encodings. -/
def Obligations.ModeDecisionIsFourWay : Prop :=
  ∀ old value : Byte,
    (selectMode old value = .noOp ↔ old = value) ∧
    (selectMode old value = .eraseOnly ↔ (old ^^^ value) &&& value ≠ 0 ∧ value = 0xFF) ∧
    (selectMode old value = .eraseAndWrite ↔ (old ^^^ value) &&& value ≠ 0 ∧ value ≠ 0xFF) ∧
    (selectMode old value = .writeOnly ↔ old ≠ value ∧ ∀ n < 8, value.getLsbD n = true → old.getLsbD n = true) ∧
    NvMode.noOp.code = 0 ∧ NvMode.eraseOnly.code = 1 ∧ NvMode.writeOnly.code = 2 ∧ NvMode.eraseAndWrite.code = 3

/-- R166: one counter rises by one, wrapping at 2^32, and the other three stay. -/
def Obligations.ModeCountersWrap : Prop :=
  ∀ (c : ModeCounts) (m n : NvMode),
    ((c.bump m).get m).toNat = ((c.get m).toNat + 1) % 2 ^ 32 ∧ (n ≠ m → (c.bump m).get n = c.get n)

/-- R163: whatever mode R162 selects, the operation it issues leaves exactly the value in the cell. The AND form of a write is
general knowledge in the spec's own words, and the row for NoOp the model's (log 25). -/
def Obligations.ProgrammingYieldsTheValue : Prop :=
  ∀ old value : Byte, programmed (selectMode old value) old value = value

/-- R164: the NVE step programs the one cell in flight and ends the operation; with none in flight it waits. -/
def Obligations.NveCompletesTheOperation : Prop :=
  ∀ s : State,
    (s.nvInflight = none → nveStep s = s) ∧
    (∀ f, s.nvInflight = some f →
      (nveStep s).nvInflight = none ∧
      (nveStep s).nvByte f.addr.toNat = programmed f.mode (s.nvByte f.addr.toNat) f.value ∧
      (∀ a, a ≠ f.addr.toNat → (nveStep s).nvByte a = s.nvByte a) ∧
      { nveStep s with nv := s.nv, nvInflight := s.nvInflight } = s)

/-- R169: the checks of `NV_WRITE_BLOCK` in its first step: length, then address, each at once; then the slots, which are looked
at only once NV is idle (read by inference, log 15). -/
def Obligations.NvWriteBlockChecksFirst : Prop :=
  ∀ (s : State) (a : Addr) (p : Pend), s.pend = some p → p.i = 0 →
    (s.cfg.blockMax < p.len → exec (.nvWriteBlock a) s = .next { s with result := 0, err := .len, pend := none }) ∧
    (p.len ≤ s.cfg.blockMax → s.cfg.nvSize ≤ a.toNat + p.len →
      exec (.nvWriteBlock a) s = .next { s with result := 0, err := .addr, pend := none }) ∧
    (p.len ≤ s.cfg.blockMax → a.toNat + p.len < s.cfg.nvSize → s.nvInflight ≠ none →
      exec (.nvWriteBlock a) s = .next s) ∧
    (p.len ≤ s.cfg.blockMax → a.toNat + p.len < s.cfg.nvSize → s.nvInflight = none →
      (∃ j < p.len, s.blkByte j = none) → exec (.nvWriteBlock a) s = .fault .unwrittenBlk)

/-- R170: a payload step writes byte `k = PEND.i` through `writeByte`, adds it to the running checksum and stays pending. -/
def Obligations.NvWriteBlockPayloadStep : Prop :=
  ∀ (s : State) (a : Addr) (p : Pend) (b : Byte) (m : NvMode),
    s.pend = some p → p.i.toNat < p.len → p.len ≤ s.cfg.blockMax → a.toNat + p.len < s.cfg.nvSize →
    s.nvInflight = none → (∀ j < p.len, s.blkByte j ≠ none) → s.blkByte p.i.toNat = some b →
    m = selectMode (s.nvByte (a.toNat + p.i.toNat)) b →
      exec (.nvWriteBlock a) s = .next { s with
        nvmodeLast := m, nvmodeValid := true, cnt := s.cnt.bump m,
        nvInflight := if m = .noOp then none else some ⟨BitVec.ofNat 16 (a.toNat + p.i.toNat), m, b⟩,
        pend := some { p with i := p.i + 1, acc := csumStep p.acc b } }

/-- R171: the final step writes the checksum after the payload and completes with it in `RESULT.CSUM`. -/
def Obligations.NvWriteBlockFinalStep : Prop :=
  ∀ (s : State) (a : Addr) (p : Pend) (m : NvMode),
    s.pend = some p → p.i.toNat = p.len → p.len ≤ s.cfg.blockMax → a.toNat + p.len < s.cfg.nvSize →
    s.nvInflight = none → m = selectMode (s.nvByte (a.toNat + p.len)) p.acc →
      exec (.nvWriteBlock a) s = .next { s with
        nvmodeLast := m, nvmodeValid := true, cnt := s.cnt.bump m,
        nvInflight := if m = .noOp then none else some ⟨BitVec.ofNat 16 (a.toNat + p.len), m, p.acc⟩,
        result := p.acc.setWidth 32 <<< 16, err := .ok, pend := none }

/-- R172, R173, R28: `NV_READ_BLOCK` checks length then address at once; otherwise, NV being idle, it fills the block slots with
the payload, leaves every other slot and every cell, and answers the recomputed checksum, the stored byte and whether they
agree. -/
def Obligations.NvReadBlockVerifies : Prop :=
  ∀ (s : State) (a : Addr) (p : Pend), s.pend = some p →
    (s.cfg.blockMax < p.len → exec (.nvReadBlock a) s = .next { s with result := 0, err := .len, pend := none }) ∧
    (p.len ≤ s.cfg.blockMax → s.cfg.nvSize ≤ a.toNat + p.len →
      exec (.nvReadBlock a) s = .next { s with result := 0, err := .addr, pend := none }) ∧
    (p.len ≤ s.cfg.blockMax → a.toNat + p.len < s.cfg.nvSize → s.nvInflight ≠ none →
      exec (.nvReadBlock a) s = .next s) ∧
    (p.len ≤ s.cfg.blockMax → a.toNat + p.len < s.cfg.nvSize → s.nvInflight = none →
      ∃ t : State, ∃ sum : Byte, exec (.nvReadBlock a) s = .next t ∧
        sum = csum ((List.range p.len).map fun j => s.nvByte (a.toNat + j)) ∧
        t.result.extractLsb' 0 8 = s.nvByte (a.toNat + p.len) ∧
        (t.result.getLsbD 10 = true ↔ sum = s.nvByte (a.toNat + p.len)) ∧
        t.result.extractLsb' 16 8 = sum ∧
        t.result.extractLsb' 8 2 = 0 ∧ t.result.extractLsb' 11 5 = 0 ∧ t.result.extractLsb' 24 8 = 0 ∧
        (∀ j < p.len, t.blkByte j = some (s.nvByte (a.toNat + j))) ∧
        (∀ j, p.len ≤ j → t.blkByte j = s.blkByte j) ∧
        t = { s with blk := t.blk, result := t.result, err := .ok, pend := none })

/-- R167: `BUF_PUT` beyond the buffer is `ERR_ADDR`; otherwise it writes the slot. -/
def Obligations.BufPutWritesTheSlot : Prop :=
  ∀ (s : State) (j : Addr) (v : Byte),
    (s.cfg.blockMax ≤ j.toNat → exec (.bufPut j v) s = .next { s with result := 0, err := .addr, pend := none }) ∧
    (j.toNat < s.cfg.blockMax → ∃ t, exec (.bufPut j v) s = .next t ∧
      t.blkByte j.toNat = some v ∧ (∀ k, k ≠ j.toNat → t.blkByte k = s.blkByte k) ∧
      t = { s with blk := t.blk, result := 0, err := .ok, pend := none })

/-- R168: `BUF_GET` beyond the buffer is `ERR_ADDR`; of a written slot it returns the byte; of a slot not written since reset it
is the model fault `UnwrittenBlk`. -/
def Obligations.BufGetReadsTheSlot : Prop :=
  ∀ (s : State) (j : Addr),
    (s.cfg.blockMax ≤ j.toNat → exec (.bufGet j) s = .next { s with result := 0, err := .addr, pend := none }) ∧
    (∀ b, j.toNat < s.cfg.blockMax → s.blkByte j.toNat = some b →
      exec (.bufGet j) s = .next { s with result := b.setWidth 32, err := .ok, pend := none }) ∧
    (j.toNat < s.cfg.blockMax → s.blkByte j.toNat = none → exec (.bufGet j) s = .fault .unwrittenBlk)

/-! ## All commands: holds, errors, frames -/

/-- R8 and the Enabled line of every command: the pending command's step waits, changing nothing, exactly when it is not
enabled. That an `NV_WRITE_BLOCK` over an unwritten slot waits while NV is busy is read from R169 by inference (log 15). -/
def Obligations.HoldsExactlyWhenDisabled : Prop :=
  ∀ (i : Instr) (s : State), s.pend.isSome = true → (exec i s = .next s ↔ commandEnabled i s = false)

/-- R201: a command that ends in an error has no effect but `RESULT` 0, `ERR` and the free slot. -/
def Obligations.ErrorsArePrecise : Prop :=
  ∀ (i : Instr) (s t : State), s.pend.isSome = true → exec i s = .next t → t.pend = none → t.err ≠ .ok →
    t = { s with result := 0, err := t.err, pend := none }

/-- R200, R202: which error each command ends in, on which operands; the length of a block is checked before its address, and
an error waits for nothing. -/
def Obligations.ErrorsAreTheListedOnes : Prop :=
  ∀ (i : Instr) (s : State) (p : Pend), s.pend = some p →
    let expected : Option Err := match i with
      | .nop => none
      | .serInit => if p.arg = 0 then some .arg else none
      | .serWrite _ => none
      | .serRead => none
      | .serResetRx => none
      | .rtsigClear _ => none
      | .nvRead a => if s.cfg.nvSize ≤ a.toNat then some .addr else none
      | .nvWrite a _ => if s.cfg.nvSize ≤ a.toNat then some .addr else none
      | .nvWriteBlock a =>
        if p.i ≠ 0 then none
        else if s.cfg.blockMax < p.arg.toNat % 65536 then some .len
        else if s.cfg.nvSize ≤ a.toNat + p.arg.toNat % 65536 then some .addr else none
      | .nvReadBlock a =>
        if s.cfg.blockMax < p.arg.toNat % 65536 then some .len
        else if s.cfg.nvSize ≤ a.toNat + p.arg.toNat % 65536 then some .addr else none
      | .bufPut j _ => if s.cfg.blockMax ≤ j.toNat then some .addr else none
      | .bufGet j => if s.cfg.blockMax ≤ j.toNat then some .addr else none
    (∀ e, expected = some e → exec i s = .next { s with result := 0, err := e, pend := none }) ∧
    (expected = none → ∀ t, exec i s = .next t → t.pend = none → t.err = .ok)

/-- R112 to R117, R71: no serial command touches the store, the block buffer or anything outside the serial link and the
command slot, and each touches only its own part of the link. -/
def Obligations.SerialCommandsFrame : Prop :=
  ∀ (i : Instr) (s t : State), exec i s = .next t →
    (i = .nop → SameSerial s t ∧ SameStore s t ∧ SameRest s t) ∧
    (i = .serInit → SameStore s t ∧ SameRest s t ∧
      SameSerial s { t with rate := s.rate, doubleSpeed := s.doubleSpeed, serEn := s.serEn }) ∧
    (∀ b, i = .serWrite b → SameStore s t ∧ SameRest s t ∧
      SameSerial s { t with txMem := s.txMem, txHead := s.txHead, txArmed := s.txArmed } ∧
      ∀ j, j ≠ s.txHead.toNat → t.txSlot j = s.txSlot j) ∧
    (i = .serRead → SameStore s t ∧ SameRest s t ∧
      SameSerial s { t with rxTail := s.rxTail, flow := s.flow, txArmed := s.txArmed }) ∧
    (i = .serResetRx → SameStore s t ∧ SameRest s t ∧ SameSerial s { t with rxTail := s.rxTail, flow := s.flow }) ∧
    (∀ m, i = .rtsigClear m → SameStore s t ∧ SameRest s t ∧ SameSerial s { t with rtsig := s.rtsig } ∧
      t.rtsig >>> 3 = s.rtsig >>> 3)

/-- R161, R165, R167 to R172: no command of the store touches the serial link or changes a cell; only `BUF_PUT` and
`NV_READ_BLOCK` write block slots, and only the slots of their operands. -/
def Obligations.StoreCommandsFrame : Prop :=
  ∀ (i : Instr) (s t : State), exec i s = .next t →
    ((∃ a, i = .nvRead a) ∨ (∃ j, i = .bufGet j) → SameSerial s t ∧ SameStore s t ∧ SameRest s t) ∧
    ((∃ a v, i = .nvWrite a v) ∨ (∃ a, i = .nvWriteBlock a) → SameSerial s t ∧ SameRest s t ∧
      SameStore s { t with
        nvInflight := s.nvInflight, nvmodeLast := s.nvmodeLast, nvmodeValid := s.nvmodeValid, cnt := s.cnt }) ∧
    ((∃ j v, i = .bufPut j v) ∨ (∃ a, i = .nvReadBlock a) → SameSerial s t ∧ SameRest s t ∧
      SameStore s { t with blk := s.blk }) ∧
    (∀ j v, i = .bufPut j v → ∀ k, k ≠ j.toNat → t.blkByte k = s.blkByte k) ∧
    (∀ a p, i = .nvReadBlock a → s.pend = some p → ∀ k, p.len ≤ k → t.blkByte k = s.blkByte k)

/-! ## Engines (41_serial_engines.md) -/

/-- R130, R131: the RXE step of a byte before `SER_INIT`, and of each realtime byte after it. -/
def Obligations.RxeActsOnRealtimeBytes : Prop :=
  ∀ (s : State) (b : Byte), s.cfg.Wf →
    (s.serEn = false → rxeStep b s = { s with obs := s.obs ++ [.rxDrop b] }) ∧
    (s.serEn = true →
      (b = s.cfg.rtStatus → rxeStep b s = { s with obs := s.obs ++ [.lineIn b], rtsig := s.rtsig ||| 0x01 }) ∧
      (b = s.cfg.rtCycleStart → rxeStep b s = { s with obs := s.obs ++ [.lineIn b], rtsig := s.rtsig ||| 0x02 }) ∧
      (b = s.cfg.rtFeedHold → rxeStep b s = { s with obs := s.obs ++ [.lineIn b], rtsig := s.rtsig ||| 0x04 }) ∧
      (b = s.cfg.rtReset → rxeStep b s = { s with obs := s.obs ++ [.lineIn b, .abortHook] }))

/-- R132, R133: the RXE step of any other byte: dropped by a full RX with no other effect; else appended, and an XOFF is
scheduled iff the append leaves occupancy at or above the high watermark with the remote released. -/
def Obligations.RxeBuffersOtherBytes : Prop :=
  ∀ (s : State) (b : Byte), s.serEn = true → isRealtime s.cfg b = false →
    (inc s.rxHead s.cfg.rxCap = s.rxTail → rxeStep b s = { s with obs := s.obs ++ [.lineIn b, .rxDrop b] }) ∧
    (inc s.rxHead s.cfg.rxCap ≠ s.rxTail →
      let high : Prop := s.cfg.flowControl = true ∧ s.flow = .xonAsserted ∧
        s.cfg.highWm ≤ occ (inc s.rxHead s.cfg.rxCap) s.rxTail s.cfg.rxCap
      (high → rxeStep b s = { s with
        obs := s.obs ++ [.lineIn b], rxMem := s.rxMem.write s.rxHead.toNat b,
        rxHead := inc s.rxHead s.cfg.rxCap, flow := .xoffPending, txArmed := true }) ∧
      (¬ high → rxeStep b s = { s with
        obs := s.obs ++ [.lineIn b], rxMem := s.rxMem.write s.rxHead.toNat b,
        rxHead := inc s.rxHead s.cfg.rxCap }))

/-- R134 to R137: the TXE step waits unless `SER_EN` and `TX_ARMED`; it sends a pending flow byte first and re-checks the
opposite watermark, else the oldest payload byte, else nothing; and it disarms iff nothing is left to send. -/
def Obligations.TxeSendsFlowBytesFirst : Prop :=
  ∀ s : State,
    (¬ (s.serEn = true ∧ s.txArmed = true) → txeStep s = s) ∧
    (s.serEn = true → s.txArmed = true →
      (s.cfg.flowControl = true → s.flow = .xoffPending → s.rxOcc < s.cfg.lowWm →
        txeStep s = { s with obs := s.obs ++ [.lineOut s.cfg.xoffByte], flow := .xonPending }) ∧
      (s.cfg.flowControl = true → s.flow = .xoffPending → s.cfg.lowWm ≤ s.rxOcc →
        txeStep s = { s with
          obs := s.obs ++ [.lineOut s.cfg.xoffByte], flow := .xoffAsserted,
          txArmed := decide (s.txHead ≠ s.txTail) }) ∧
      (s.cfg.flowControl = true → s.flow = .xonPending → s.cfg.highWm ≤ s.rxOcc →
        txeStep s = { s with obs := s.obs ++ [.lineOut s.cfg.xonByte], flow := .xoffPending }) ∧
      (s.cfg.flowControl = true → s.flow = .xonPending → s.rxOcc < s.cfg.highWm →
        txeStep s = { s with
          obs := s.obs ++ [.lineOut s.cfg.xonByte], flow := .xonAsserted,
          txArmed := decide (s.txHead ≠ s.txTail) }) ∧
      (s.flowPending = false → s.txHead ≠ s.txTail →
        txeStep s = { s with
          obs := s.obs ++ [.lineOut (s.txSlot s.txTail.toNat)], txTail := inc s.txTail s.cfg.txCap,
          txArmed := decide (s.txHead ≠ inc s.txTail s.cfg.txCap) }) ∧
      (s.flowPending = false → s.txHead = s.txTail → txeStep s = { s with txArmed := false }))

/-- R71: who writes the shared fields: each agent's step leaves the fields of the ownership table that are not its own. -/
def Obligations.OwnershipTableIsKept : Prop :=
  ∀ (u : Turn) (s t : State), agentStep u s = .next t → u ≠ .reset → u ≠ .powerLoss →
    ((∀ b, u ≠ .rxe b) → t.rxHead = s.rxHead ∧ t.rxMem = s.rxMem) ∧
    (u ≠ .ce → t.rxTail = s.rxTail ∧ t.txHead = s.txHead ∧ t.txMem = s.txMem) ∧
    (u ≠ .txe → t.txTail = s.txTail) ∧
    (u = .host ∨ u = .nve ∨ (∃ l, u = .abort l) → t.txArmed = s.txArmed ∧ t.flow = s.flow ∧ t.rtsig = s.rtsig) ∧
    (u = .txe → t.rtsig = s.rtsig) ∧
    (u ≠ .nve → t.nv = s.nv) ∧
    (u ≠ .nve → u ≠ .ce → t.nvInflight = s.nvInflight)

/-- R41, R212, R207: no step changes the configuration, only ENV changes `ABORT_IN`, only a reset or power loss clears
`SER_EN`, and the observation record only grows. -/
def Obligations.OnlyTheNamedEventsChange : Prop :=
  ∀ s t : State, step s = .next t →
    t.cfg = s.cfg ∧
    (t.abortIn ≠ s.abortIn → ∃ l ts, s.turns = .abort l :: ts ∧ t.abortIn = l) ∧
    (s.serEn = true → t.serEn = false → ∃ u ts, s.turns = u :: ts ∧ (u = .reset ∨ u = .powerLoss)) ∧
    ∃ new, t.obs = s.obs ++ new

/-! ## Reset and power loss (70_reset_and_hazards.md) -/

/-- R231: the values a reset leaves, and what it does not change. -/
def Obligations.ResetLeavesTheListedValues : Prop :=
  ∀ s t : State, t = resetStep s →
    t.arg = 0 ∧ t.result = 0 ∧ t.err = .ok ∧ t.pend = none ∧ t.serEn = false ∧ t.rate = 0 ∧ t.doubleSpeed = false ∧
    t.rxHead = 0 ∧ t.rxTail = 0 ∧ t.txHead = 0 ∧ t.txTail = 0 ∧ t.txArmed = false ∧ t.flow = .xonAsserted ∧
    t.rtsig = 0 ∧ t.nvInflight = none ∧ t.nvmodeLast = .noOp ∧ t.nvmodeValid = false ∧ t.cnt = ⟨0, 0, 0, 0⟩ ∧
    (∀ j, t.blkByte j = none) ∧
    t.rxMem = s.rxMem ∧ t.txMem = s.txMem ∧ t.abortIn = s.abortIn ∧ t.cfg = s.cfg ∧
    (∀ a, (∀ f, s.nvInflight = some f → a ≠ f.addr.toNat) → t.nvByte a = s.nvByte a) ∧
    t.readReg .status = (if s.abortIn then 0x00000080 else 0) ∧ t.obs = s.obs ++ [.reset] ∧ t.held = none

/-- R233: an operation in flight is completed by a reset and leaves any byte at a power loss, which is the model's free value
(its form is the model's choice, log 9); every other cell is unchanged in both cases. -/
def Obligations.InflightCellAtResetAndPowerLoss : Prop :=
  ∀ (s : State) (a : Nat),
    (∀ f, s.nvInflight = some f → a = f.addr.toNat →
      (resetStep s).nvByte a = programmed f.mode (s.nvByte a) f.value ∧
      (powerLossStep s).nvByte a = Config.interruptedCell s.powerLosses) ∧
    ((∀ f, s.nvInflight = some f → a ≠ f.addr.toNat) →
      (resetStep s).nvByte a = s.nvByte a ∧ (powerLossStep s).nvByte a = s.nvByte a) ∧
    (resetStep s).nvInflight = none ∧ (powerLossStep s).nvInflight = none

/-- R232: after power loss every register is as after a reset, every ring slot is a fresh free value (log 8, log 9), every block
slot is unwritten, and the event is `PowerLoss` alone. That a held `CMD` write is given up is read by inference (log 16). -/
def Obligations.PowerLossLosesVolatileState : Prop :=
  ∀ s : State,
    { powerLossStep s with nv := s.nv, rxMem := s.rxMem, txMem := s.txMem, obs := s.obs, powerLosses := s.powerLosses } =
      { resetStep s with nv := s.nv, rxMem := s.rxMem, txMem := s.txMem, obs := s.obs, powerLosses := s.powerLosses } ∧
    (∀ j, (powerLossStep s).rxSlot j = Config.rxDraw (s.powerLosses + 1) j) ∧
    (∀ j, (powerLossStep s).txSlot j = Config.txDraw (s.powerLosses + 1) j) ∧
    (∀ j, (powerLossStep s).blkByte j = none) ∧
    (powerLossStep s).obs = s.obs ++ [.powerLoss] ∧ (powerLossStep s).powerLosses = s.powerLosses + 1

/-! ## Invariants every step keeps -/

/-- R42: the five invariants of the registers are kept by every step of every agent. -/
def Obligations.RegisterInvariantsAreKept : Prop :=
  ∀ s t : State, RegistersOk s → step s = .next t → RegistersOk t

/-- The four memories stay in canonical form (the model's own way of holding R60, R62, R64 and R65's memories). -/
def Obligations.MemoriesStayCanonical : Prop :=
  ∀ s t : State, MemoriesOk s → step s = .next t → MemoriesOk t

/-- R63: every slot a consumer may read has been written; kept by every step. -/
def Obligations.RingSlotsAreWrittenBeforeRead : Prop :=
  ∀ s t : State, RingsWritten s → step s = .next t → RingsWritten t

/-- R140: no unread byte is a realtime byte; kept by every step, so `SER_READ` never answers one. -/
def Obligations.RealtimeBytesAreNeverRead : Prop :=
  (∀ s t : State, RealtimeExcluded s → step s = .next t → RealtimeExcluded t) ∧
  ∀ s t : State, RealtimeExcluded s → s.rxHead ≠ s.rxTail → exec .serRead s = .next t →
    isRealtime s.cfg (t.result.extractLsb' 0 8) = false

/-- R39, R40, R77, R163, R169: what the operation in flight and a block write under way mean is kept by every step. -/
def Obligations.StoreInvariantIsKept : Prop :=
  ∀ s t : State, StoreOk s → step s = .next t → StoreOk t

/-- All of these invariants hold at the reset state (which the spec's values and the model's choices of log 5, log 12 and log 13
make). -/
def Obligations.InvariantsHoldAtReset : Prop :=
  RegistersOk State.reset ∧ MemoriesOk State.reset ∧ RingsWritten State.reset ∧ RealtimeExcluded State.reset ∧
  StoreOk State.reset

/-! ## Whole-machine properties -/

/-- R142: RX is a queue: an accepted byte joins at the end, a read answers and removes the first. -/
def Obligations.RxIsFifo : Prop :=
  ∀ s t : State, RegistersOk s →
    (∀ b, s.serEn = true → isRealtime s.cfg b = false → s.rxOcc + 1 < s.cfg.rxCap → t = rxeStep b s →
      rxContents t = rxContents s ++ [b]) ∧
    (s.rxHead ≠ s.rxTail → exec .serRead s = .next t →
      ∃ b, t.result = b.setWidth 32 ∧ rxContents s = b :: rxContents t)

/-- R142, R214: TX is a queue: `SER_WRITE` joins at the end, and with no flow byte pending `TX_COUNT` transmit-ready events
send exactly the queued bytes in order and disarm. -/
def Obligations.TxDrainsInOrder : Prop :=
  (∀ (s t : State) (b : Byte), RegistersOk s → s.txOcc + 1 < s.cfg.txCap → exec (.serWrite b) s = .next t →
    txContents t = txContents s ++ [b]) ∧
  ∀ s : State, RegistersOk s → s.serEn = true → s.flow.pending = false → s.txHead ≠ s.txTail →
    (txeStep^[s.txOcc] s).obs = s.obs ++ (txContents s).map .lineOut ∧
    (txeStep^[s.txOcc] s).txHead = (txeStep^[s.txOcc] s).txTail ∧ (txeStep^[s.txOcc] s).txArmed = false

/-- R141: the append that reaches the high watermark makes XOFF the next byte sent, before any payload; the read that falls
below the low watermark makes XON the next. -/
def Obligations.FlowBytePrecedesPayload : Prop :=
  ∀ s t : State, RegistersOk s → s.serEn = true → s.cfg.flowControl = true →
    (∀ b, s.flow = .xonAsserted → isRealtime s.cfg b = false → s.rxOcc + 1 < s.cfg.rxCap → s.cfg.highWm ≤ s.rxOcc + 1 →
      t = rxeStep b s → t.flow = .xoffPending ∧ (txeStep t).obs = t.obs ++ [.lineOut s.cfg.xoffByte]) ∧
    (s.flow = .xoffAsserted → s.rxHead ≠ s.rxTail → s.rxOcc ≤ s.cfg.lowWm → exec .serRead s = .next t →
      t.flow = .xonPending ∧ (txeStep t).obs = t.obs ++ [.lineOut s.cfg.xonByte])

/-- R174: after `NV_WRITE` completes and the NVE step of any operation it issued, the cell holds the value and `NV_READ` returns
it. -/
def Obligations.ByteRoundTrip : Prop :=
  ∀ (s t : State) (a : Addr) (v : Byte), a.toNat < s.cfg.nvSize → s.nvInflight = none →
    exec (.nvWrite a v) s = .next t →
      (nveStep t).nvByte a.toNat = v ∧ ∃ u, exec (.nvRead a) (nveStep t) = .next u ∧ u.result = v.setWidth 32

/-- R174: from an accepted `NV_WRITE_BLOCK` with its slots written, alternating turns of the CE and the NVE store the payload
and its checksum, and `NV_READ_BLOCK` of the same record then answers VERIFIED with the same bytes. -/
def Obligations.BlockRoundTrip : Prop :=
  ∀ (s : State) (w : Word) (a : Addr) (bytes : List Byte) (ts : List Turn),
    s.cfg.Wf → decode w = .ok (.nvWriteBlock a) → s.pend = some (acceptedCommand w s.arg) → s.nvInflight = none →
    bytes.length = s.arg.toNat % 65536 → bytes.length ≤ s.cfg.blockMax → a.toNat + bytes.length < s.cfg.nvSize →
    (∀ j, (h : j < bytes.length) → s.blkByte j = some bytes[j]) →
    s.turns = (List.replicate (bytes.length + 1) [Turn.ce, Turn.nve]).flatten ++ ts →
      ∃ t u, Host.Core.run Sys2Proof.core (2 * (bytes.length + 1)) s = .next t ∧
        t.pend = none ∧ t.err = .ok ∧ t.result = (csum bytes).setWidth 32 <<< 16 ∧
        (∀ j, (h : j < bytes.length) → t.nvByte (a.toNat + j) = bytes[j]) ∧
        t.nvByte (a.toNat + bytes.length) = csum bytes ∧
        (∀ c, c < a.toNat ∨ a.toNat + bytes.length < c → t.nvByte c = s.nvByte c) ∧
        exec (.nvReadBlock a) { t with pend := some (acceptedCommand (encode (.nvReadBlock a)) s.arg) } = .next u ∧
        u.result.getLsbD 10 = true ∧ ∀ j, (h : j < bytes.length) → u.blkByte j = some bytes[j]

/-- R7, R175: a checksum step is an 8-bit rotation left by one and an addition, and the checksum of a list is its fold from 0;
changing exactly one payload byte of a record changes its checksum, so the record no longer verifies. -/
def Obligations.OneChangedByteIsDetected : Prop :=
  (∀ c b : Byte, (csumStep c b).toNat = ((2 * c.toNat + c.toNat / 128) % 256 + b.toNat) % 256) ∧
  csum [] = 0 ∧ (∀ (bs : List Byte) (b : Byte), csum (bs ++ [b]) = csumStep (csum bs) b) ∧
  ∀ (before after : List Byte) (b c : Byte), b ≠ c → csum (before ++ b :: after) ≠ csum (before ++ c :: after)

/-- R239: a `SER_WRITE` pending on a full TX before `SER_INIT`, with `ABORT_IN` 0 and the store idle, is stuck: no agent of SLNV
has an enabled step, and only an abort or a reset can change that. R250: a stuck run is not over. -/
def Obligations.FullTxBeforeInitIsStuck : Prop :=
  ∀ (s : State) (w : Word) (b : Byte) (arg : Word),
    decode w = .ok (.serWrite b) → s.pend = some (acceptedCommand w arg) → s.txFull = true → s.serEn = false →
    s.abortIn = false → s.nvInflight = none →
      stuck s ∧ ¬ runOver s ∧
      ∀ u t, turnStep u s = .next t → u ≠ .abort true → u ≠ .reset → u ≠ .powerLoss → stuck t ∧ ¬ runOver t

/-- R214: on a fair run, every `NV_READ` that is pending is over at some later point. Fairness is a premise (log 19). -/
def Obligations.FairRunsCompleteNvReads : Prop :=
  ∀ (schedule : Nat → Turn) (run : Nat → State) (n : Nat) (p : Pend) (a : Addr),
    Follows schedule run → Fair schedule run → (run n).pend = some p → decode p.word = .ok (.nvRead a) →
      ∃ m, n < m ∧ (run m).pend = none
end

