-- ==== Sys2Proof/Laws/Memory.lean ====
section
/-! SUPPORT. The laws of the byte memories: read after write, and the canonical form that every write keeps. -/

namespace Sys2Proof.Machine

@[simp] theorem Memory.read_nil (a : Nat) : Memory.read [] a = none := rfl

@[simp] theorem Memory.wf_nil : Memory.wf [] = true := rfl

theorem Memory.read_write_same (m : Memory) (a : Nat) (v : Byte) : (m.write a v).read a = some v := by
  induction m with
  | nil => simp [Memory.write, Memory.read]
  | cons e m ih =>
    obtain ⟨k, b⟩ := e
    simp only [Memory.write]
    split_ifs with h1 h2
    · simp [Memory.read]
    · simp [Memory.read]
    · simp [Memory.read, h2, ih]

theorem Memory.read_write_other (m : Memory) {a c : Nat} (v : Byte) (h : c ≠ a) :
    (m.write a v).read c = m.read c := by
  induction m with
  | nil => simp [Memory.write, Memory.read, h.symm]
  | cons e m ih =>
    obtain ⟨k, b⟩ := e
    simp only [Memory.write]
    split_ifs with h1 h2
    · simp [Memory.read, h.symm]
    · subst h2; simp [Memory.read, h.symm]
    · simp [Memory.read, ih]

/-- The one spec lemma of a memory: what reading an address gives after a write. -/
@[simp] theorem Memory.read_write (m : Memory) (a c : Nat) (v : Byte) :
    (m.write a v).read c = if c = a then some v else m.read c := by
  split_ifs with h
  · rw [h, Memory.read_write_same]
  · exact Memory.read_write_other m v h

theorem Memory.wf_cons (k : Nat) (b : Byte) (m : Memory) :
    Memory.wf ((k, b) :: m) = true ↔ (∀ e ∈ m, k < e.1) ∧ Memory.wf m = true := by
  simp [Memory.wf]

/-- The addresses listed after a write. -/
theorem Memory.mem_write {m : Memory} {a : Nat} {v : Byte} {e : Host.Cell} (h : e ∈ m.write a v) :
    e = (a, v) ∨ e ∈ m := by
  induction m with
  | nil => simpa [Memory.write] using h
  | cons x m ih =>
    obtain ⟨k, b⟩ := x
    simp only [Memory.write] at h
    split_ifs at h with h1 h2
    · simpa using h
    · rcases List.mem_cons.1 h with h | h
      · exact .inl h
      · exact .inr (List.mem_cons_of_mem _ h)
    · rcases List.mem_cons.1 h with h | h
      · exact .inr (h ▸ List.mem_cons_self)
      · exact (ih h).imp id (List.mem_cons_of_mem _)

/-- Every write keeps the canonical form. -/
theorem Memory.wf_write {m : Memory} (a : Nat) (v : Byte) (h : m.wf = true) : (m.write a v).wf = true := by
  induction m with
  | nil => rfl
  | cons x m ih =>
    obtain ⟨k, b⟩ := x
    obtain ⟨hk, hm⟩ := (Memory.wf_cons k b m).1 h
    simp only [Memory.write]
    split_ifs with h1 h2
    · refine (Memory.wf_cons ..).2 ⟨fun e he => ?_, h⟩
      rcases List.mem_cons.1 he with rfl | he
      · exact h1
      · exact h1.trans (hk e he)
    · exact h2 ▸ (Memory.wf_cons ..).2 ⟨hk, hm⟩
    · refine (Memory.wf_cons ..).2 ⟨fun e he => ?_, ih hm⟩
      rcases Memory.mem_write he with rfl | he
      · exact Nat.lt_of_le_of_ne (Nat.le_of_not_lt h1) h2
      · exact hk e he

/-- Equal canonical memories are those that read alike. -/
theorem Memory.read_of_lt {m : Memory} {a : Nat} (h : ∀ e ∈ m, a < e.1) : m.read a = none := by
  induction m with
  | nil => rfl
  | cons x m ih =>
    obtain ⟨k, b⟩ := x
    have hk : a < k := h _ List.mem_cons_self
    simp [Memory.read, hk.ne', ih fun e he => h e (List.mem_cons_of_mem _ he)]

theorem Memory.ext_read {m n : Memory} (hm : m.wf = true) (hn : n.wf = true) (h : ∀ a, m.read a = n.read a) :
    m = n := by
  induction m generalizing n with
  | nil =>
    cases n with
    | nil => rfl
    | cons y n => obtain ⟨k, b⟩ := y; have := h k; simp [Memory.read] at this
  | cons x m ih =>
    obtain ⟨k, b⟩ := x
    obtain ⟨hk, hm'⟩ := (Memory.wf_cons ..).1 hm
    cases n with
    | nil => have := h k; simp [Memory.read] at this
    | cons y n =>
      obtain ⟨l, c⟩ := y
      obtain ⟨hl, hn'⟩ := (Memory.wf_cons ..).1 hn
      have below : ∀ {p q : Nat} {m' : Memory} {b' : Byte}, (∀ e ∈ m', q < e.1) → p < q →
          Memory.read ((q, b') :: m') p = none := by
        intro p q m' b' hq hpq
        exact Memory.read_of_lt fun e he => by
          rcases List.mem_cons.1 he with rfl | he
          · exact hpq
          · exact hpq.trans (hq e he)
      obtain rfl : k = l := by
        rcases Nat.lt_trichotomy k l with hlt | heq | hgt
        · have := h k; rw [below hl hlt] at this; simp [Memory.read] at this
        · exact heq
        · have := h l; rw [below hk hgt] at this; simp [Memory.read] at this
      obtain rfl : b = c := by simpa [Memory.read] using h k
      rw [ih hm' hn' fun a => ?_]
      by_cases hak : k = a
      · rw [← hak, Memory.read_of_lt hk, Memory.read_of_lt hl]
      · simpa [Memory.read, hak] using h a

theorem Memory.wf_writeFrom {m : Memory} (bs : List Byte) (j : Nat) (h : m.wf = true) :
    (m.writeFrom j bs).wf = true := by
  induction bs generalizing m j with
  | nil => exact h
  | cons b bs ih => exact ih _ (Memory.wf_write j b h)

/-- What reading an address gives after storing consecutive bytes. -/
theorem Memory.read_writeFrom (m : Memory) (bs : List Byte) (j c : Nat) :
    (m.writeFrom j bs).read c = if h : j ≤ c ∧ c - j < bs.length then some bs[c - j] else m.read c := by
  induction bs generalizing m j with
  | nil => simp [Memory.writeFrom]
  | cons b bs ih =>
    rw [Memory.writeFrom, ih, Memory.read_write]
    by_cases hlt : j + 1 ≤ c ∧ c - (j + 1) < bs.length
    · have h2 : j ≤ c ∧ c - j < (b :: bs).length := by simp; omega
      have h3 : c - j = (c - (j + 1)) + 1 := by omega
      simp [hlt, h2, h3]
    · by_cases hcj : c = j
      · subst hcj; simp
      · have h2 : ¬(j ≤ c ∧ c - j < (b :: bs).length) := by simp; omega
        rw [dif_neg hlt, dif_neg h2, if_neg hcj]

end Sys2Proof.Machine
end

