-- ==== Sys2Proof/Laws/State.lean ====
section
/-! SUPPORT. One lemma per field per named update of `State`, so that no later proof unfolds a record update. -/

namespace Sys2Proof.Machine

variable (s : State)

/-! `State.complete` -/

@[simp] theorem complete_cfg (r : Word) (e : Err) : (s.complete r e).cfg = s.cfg := rfl
@[simp] theorem complete_arg (r : Word) (e : Err) : (s.complete r e).arg = s.arg := rfl
@[simp] theorem complete_result (r : Word) (e : Err) : (s.complete r e).result = r := rfl
@[simp] theorem complete_err (r : Word) (e : Err) : (s.complete r e).err = e := rfl
@[simp] theorem complete_pend (r : Word) (e : Err) : (s.complete r e).pend = none := rfl
@[simp] theorem complete_serEn (r : Word) (e : Err) : (s.complete r e).serEn = s.serEn := rfl
@[simp] theorem complete_rate (r : Word) (e : Err) : (s.complete r e).rate = s.rate := rfl
@[simp] theorem complete_doubleSpeed (r : Word) (e : Err) : (s.complete r e).doubleSpeed = s.doubleSpeed := rfl
@[simp] theorem complete_rxHead (r : Word) (e : Err) : (s.complete r e).rxHead = s.rxHead := rfl
@[simp] theorem complete_rxTail (r : Word) (e : Err) : (s.complete r e).rxTail = s.rxTail := rfl
@[simp] theorem complete_rxMem (r : Word) (e : Err) : (s.complete r e).rxMem = s.rxMem := rfl
@[simp] theorem complete_txHead (r : Word) (e : Err) : (s.complete r e).txHead = s.txHead := rfl
@[simp] theorem complete_txTail (r : Word) (e : Err) : (s.complete r e).txTail = s.txTail := rfl
@[simp] theorem complete_txMem (r : Word) (e : Err) : (s.complete r e).txMem = s.txMem := rfl
@[simp] theorem complete_txArmed (r : Word) (e : Err) : (s.complete r e).txArmed = s.txArmed := rfl
@[simp] theorem complete_flow (r : Word) (e : Err) : (s.complete r e).flow = s.flow := rfl
@[simp] theorem complete_rtsig (r : Word) (e : Err) : (s.complete r e).rtsig = s.rtsig := rfl
@[simp] theorem complete_nv (r : Word) (e : Err) : (s.complete r e).nv = s.nv := rfl
@[simp] theorem complete_nvInflight (r : Word) (e : Err) : (s.complete r e).nvInflight = s.nvInflight := rfl
@[simp] theorem complete_nvmodeLast (r : Word) (e : Err) : (s.complete r e).nvmodeLast = s.nvmodeLast := rfl
@[simp] theorem complete_nvmodeValid (r : Word) (e : Err) : (s.complete r e).nvmodeValid = s.nvmodeValid := rfl
@[simp] theorem complete_cnt (r : Word) (e : Err) : (s.complete r e).cnt = s.cnt := rfl
@[simp] theorem complete_blk (r : Word) (e : Err) : (s.complete r e).blk = s.blk := rfl
@[simp] theorem complete_abortIn (r : Word) (e : Err) : (s.complete r e).abortIn = s.abortIn := rfl
@[simp] theorem complete_obs (r : Word) (e : Err) : (s.complete r e).obs = s.obs := rfl
@[simp] theorem complete_held (r : Word) (e : Err) : (s.complete r e).held = s.held := rfl
@[simp] theorem complete_script (r : Word) (e : Err) : (s.complete r e).script = s.script := rfl
@[simp] theorem complete_hostReads (r : Word) (e : Err) : (s.complete r e).hostReads = s.hostReads := rfl
@[simp] theorem complete_turns (r : Word) (e : Err) : (s.complete r e).turns = s.turns := rfl
@[simp] theorem complete_powerLosses (r : Word) (e : Err) : (s.complete r e).powerLosses = s.powerLosses := rfl

/-! `State.raiseErr` -/

@[simp] theorem raiseErr_cfg (e : Err) : (s.raiseErr e).cfg = s.cfg := rfl
@[simp] theorem raiseErr_arg (e : Err) : (s.raiseErr e).arg = s.arg := rfl
@[simp] theorem raiseErr_result (e : Err) : (s.raiseErr e).result = 0x00000000#32 := rfl
@[simp] theorem raiseErr_err (e : Err) : (s.raiseErr e).err = e := rfl
@[simp] theorem raiseErr_pend (e : Err) : (s.raiseErr e).pend = none := rfl
@[simp] theorem raiseErr_serEn (e : Err) : (s.raiseErr e).serEn = s.serEn := rfl
@[simp] theorem raiseErr_rate (e : Err) : (s.raiseErr e).rate = s.rate := rfl
@[simp] theorem raiseErr_doubleSpeed (e : Err) : (s.raiseErr e).doubleSpeed = s.doubleSpeed := rfl
@[simp] theorem raiseErr_rxHead (e : Err) : (s.raiseErr e).rxHead = s.rxHead := rfl
@[simp] theorem raiseErr_rxTail (e : Err) : (s.raiseErr e).rxTail = s.rxTail := rfl
@[simp] theorem raiseErr_rxMem (e : Err) : (s.raiseErr e).rxMem = s.rxMem := rfl
@[simp] theorem raiseErr_txHead (e : Err) : (s.raiseErr e).txHead = s.txHead := rfl
@[simp] theorem raiseErr_txTail (e : Err) : (s.raiseErr e).txTail = s.txTail := rfl
@[simp] theorem raiseErr_txMem (e : Err) : (s.raiseErr e).txMem = s.txMem := rfl
@[simp] theorem raiseErr_txArmed (e : Err) : (s.raiseErr e).txArmed = s.txArmed := rfl
@[simp] theorem raiseErr_flow (e : Err) : (s.raiseErr e).flow = s.flow := rfl
@[simp] theorem raiseErr_rtsig (e : Err) : (s.raiseErr e).rtsig = s.rtsig := rfl
@[simp] theorem raiseErr_nv (e : Err) : (s.raiseErr e).nv = s.nv := rfl
@[simp] theorem raiseErr_nvInflight (e : Err) : (s.raiseErr e).nvInflight = s.nvInflight := rfl
@[simp] theorem raiseErr_nvmodeLast (e : Err) : (s.raiseErr e).nvmodeLast = s.nvmodeLast := rfl
@[simp] theorem raiseErr_nvmodeValid (e : Err) : (s.raiseErr e).nvmodeValid = s.nvmodeValid := rfl
@[simp] theorem raiseErr_cnt (e : Err) : (s.raiseErr e).cnt = s.cnt := rfl
@[simp] theorem raiseErr_blk (e : Err) : (s.raiseErr e).blk = s.blk := rfl
@[simp] theorem raiseErr_abortIn (e : Err) : (s.raiseErr e).abortIn = s.abortIn := rfl
@[simp] theorem raiseErr_obs (e : Err) : (s.raiseErr e).obs = s.obs := rfl
@[simp] theorem raiseErr_held (e : Err) : (s.raiseErr e).held = s.held := rfl
@[simp] theorem raiseErr_script (e : Err) : (s.raiseErr e).script = s.script := rfl
@[simp] theorem raiseErr_hostReads (e : Err) : (s.raiseErr e).hostReads = s.hostReads := rfl
@[simp] theorem raiseErr_turns (e : Err) : (s.raiseErr e).turns = s.turns := rfl
@[simp] theorem raiseErr_powerLosses (e : Err) : (s.raiseErr e).powerLosses = s.powerLosses := rfl

/-! `State.emit` -/

@[simp] theorem emit_cfg (e : Event) : (s.emit e).cfg = s.cfg := rfl
@[simp] theorem emit_arg (e : Event) : (s.emit e).arg = s.arg := rfl
@[simp] theorem emit_result (e : Event) : (s.emit e).result = s.result := rfl
@[simp] theorem emit_err (e : Event) : (s.emit e).err = s.err := rfl
@[simp] theorem emit_pend (e : Event) : (s.emit e).pend = s.pend := rfl
@[simp] theorem emit_serEn (e : Event) : (s.emit e).serEn = s.serEn := rfl
@[simp] theorem emit_rate (e : Event) : (s.emit e).rate = s.rate := rfl
@[simp] theorem emit_doubleSpeed (e : Event) : (s.emit e).doubleSpeed = s.doubleSpeed := rfl
@[simp] theorem emit_rxHead (e : Event) : (s.emit e).rxHead = s.rxHead := rfl
@[simp] theorem emit_rxTail (e : Event) : (s.emit e).rxTail = s.rxTail := rfl
@[simp] theorem emit_rxMem (e : Event) : (s.emit e).rxMem = s.rxMem := rfl
@[simp] theorem emit_txHead (e : Event) : (s.emit e).txHead = s.txHead := rfl
@[simp] theorem emit_txTail (e : Event) : (s.emit e).txTail = s.txTail := rfl
@[simp] theorem emit_txMem (e : Event) : (s.emit e).txMem = s.txMem := rfl
@[simp] theorem emit_txArmed (e : Event) : (s.emit e).txArmed = s.txArmed := rfl
@[simp] theorem emit_flow (e : Event) : (s.emit e).flow = s.flow := rfl
@[simp] theorem emit_rtsig (e : Event) : (s.emit e).rtsig = s.rtsig := rfl
@[simp] theorem emit_nv (e : Event) : (s.emit e).nv = s.nv := rfl
@[simp] theorem emit_nvInflight (e : Event) : (s.emit e).nvInflight = s.nvInflight := rfl
@[simp] theorem emit_nvmodeLast (e : Event) : (s.emit e).nvmodeLast = s.nvmodeLast := rfl
@[simp] theorem emit_nvmodeValid (e : Event) : (s.emit e).nvmodeValid = s.nvmodeValid := rfl
@[simp] theorem emit_cnt (e : Event) : (s.emit e).cnt = s.cnt := rfl
@[simp] theorem emit_blk (e : Event) : (s.emit e).blk = s.blk := rfl
@[simp] theorem emit_abortIn (e : Event) : (s.emit e).abortIn = s.abortIn := rfl
@[simp] theorem emit_obs (e : Event) : (s.emit e).obs = s.obs ++ [e] := rfl
@[simp] theorem emit_held (e : Event) : (s.emit e).held = s.held := rfl
@[simp] theorem emit_script (e : Event) : (s.emit e).script = s.script := rfl
@[simp] theorem emit_hostReads (e : Event) : (s.emit e).hostReads = s.hostReads := rfl
@[simp] theorem emit_turns (e : Event) : (s.emit e).turns = s.turns := rfl
@[simp] theorem emit_powerLosses (e : Event) : (s.emit e).powerLosses = s.powerLosses := rfl

/-! `State.accept` -/

@[simp] theorem accept_cfg (w : Word) : (s.accept w).cfg = s.cfg := rfl
@[simp] theorem accept_arg (w : Word) : (s.accept w).arg = s.arg := rfl
@[simp] theorem accept_result (w : Word) : (s.accept w).result = s.result := rfl
@[simp] theorem accept_err (w : Word) : (s.accept w).err = s.err := rfl
@[simp] theorem accept_pend (w : Word) : (s.accept w).pend = some (acceptedCommand w s.arg) := rfl
@[simp] theorem accept_serEn (w : Word) : (s.accept w).serEn = s.serEn := rfl
@[simp] theorem accept_rate (w : Word) : (s.accept w).rate = s.rate := rfl
@[simp] theorem accept_doubleSpeed (w : Word) : (s.accept w).doubleSpeed = s.doubleSpeed := rfl
@[simp] theorem accept_rxHead (w : Word) : (s.accept w).rxHead = s.rxHead := rfl
@[simp] theorem accept_rxTail (w : Word) : (s.accept w).rxTail = s.rxTail := rfl
@[simp] theorem accept_rxMem (w : Word) : (s.accept w).rxMem = s.rxMem := rfl
@[simp] theorem accept_txHead (w : Word) : (s.accept w).txHead = s.txHead := rfl
@[simp] theorem accept_txTail (w : Word) : (s.accept w).txTail = s.txTail := rfl
@[simp] theorem accept_txMem (w : Word) : (s.accept w).txMem = s.txMem := rfl
@[simp] theorem accept_txArmed (w : Word) : (s.accept w).txArmed = s.txArmed := rfl
@[simp] theorem accept_flow (w : Word) : (s.accept w).flow = s.flow := rfl
@[simp] theorem accept_rtsig (w : Word) : (s.accept w).rtsig = s.rtsig := rfl
@[simp] theorem accept_nv (w : Word) : (s.accept w).nv = s.nv := rfl
@[simp] theorem accept_nvInflight (w : Word) : (s.accept w).nvInflight = s.nvInflight := rfl
@[simp] theorem accept_nvmodeLast (w : Word) : (s.accept w).nvmodeLast = s.nvmodeLast := rfl
@[simp] theorem accept_nvmodeValid (w : Word) : (s.accept w).nvmodeValid = s.nvmodeValid := rfl
@[simp] theorem accept_cnt (w : Word) : (s.accept w).cnt = s.cnt := rfl
@[simp] theorem accept_blk (w : Word) : (s.accept w).blk = s.blk := rfl
@[simp] theorem accept_abortIn (w : Word) : (s.accept w).abortIn = s.abortIn := rfl
@[simp] theorem accept_obs (w : Word) : (s.accept w).obs = s.obs := rfl
@[simp] theorem accept_held (w : Word) : (s.accept w).held = s.held := rfl
@[simp] theorem accept_script (w : Word) : (s.accept w).script = s.script := rfl
@[simp] theorem accept_hostReads (w : Word) : (s.accept w).hostReads = s.hostReads := rfl
@[simp] theorem accept_turns (w : Word) : (s.accept w).turns = s.turns := rfl
@[simp] theorem accept_powerLosses (w : Word) : (s.accept w).powerLosses = s.powerLosses := rfl

/-! `State.rxPush` -/

@[simp] theorem rxPush_cfg (b : Byte) : (s.rxPush b).cfg = s.cfg := rfl
@[simp] theorem rxPush_arg (b : Byte) : (s.rxPush b).arg = s.arg := rfl
@[simp] theorem rxPush_result (b : Byte) : (s.rxPush b).result = s.result := rfl
@[simp] theorem rxPush_err (b : Byte) : (s.rxPush b).err = s.err := rfl
@[simp] theorem rxPush_pend (b : Byte) : (s.rxPush b).pend = s.pend := rfl
@[simp] theorem rxPush_serEn (b : Byte) : (s.rxPush b).serEn = s.serEn := rfl
@[simp] theorem rxPush_rate (b : Byte) : (s.rxPush b).rate = s.rate := rfl
@[simp] theorem rxPush_doubleSpeed (b : Byte) : (s.rxPush b).doubleSpeed = s.doubleSpeed := rfl
@[simp] theorem rxPush_rxHead (b : Byte) : (s.rxPush b).rxHead = inc s.rxHead s.cfg.rxCap := rfl
@[simp] theorem rxPush_rxTail (b : Byte) : (s.rxPush b).rxTail = s.rxTail := rfl
@[simp] theorem rxPush_rxMem (b : Byte) : (s.rxPush b).rxMem = s.rxMem.write s.rxHead.toNat b := rfl
@[simp] theorem rxPush_txHead (b : Byte) : (s.rxPush b).txHead = s.txHead := rfl
@[simp] theorem rxPush_txTail (b : Byte) : (s.rxPush b).txTail = s.txTail := rfl
@[simp] theorem rxPush_txMem (b : Byte) : (s.rxPush b).txMem = s.txMem := rfl
@[simp] theorem rxPush_txArmed (b : Byte) : (s.rxPush b).txArmed = s.txArmed := rfl
@[simp] theorem rxPush_flow (b : Byte) : (s.rxPush b).flow = s.flow := rfl
@[simp] theorem rxPush_rtsig (b : Byte) : (s.rxPush b).rtsig = s.rtsig := rfl
@[simp] theorem rxPush_nv (b : Byte) : (s.rxPush b).nv = s.nv := rfl
@[simp] theorem rxPush_nvInflight (b : Byte) : (s.rxPush b).nvInflight = s.nvInflight := rfl
@[simp] theorem rxPush_nvmodeLast (b : Byte) : (s.rxPush b).nvmodeLast = s.nvmodeLast := rfl
@[simp] theorem rxPush_nvmodeValid (b : Byte) : (s.rxPush b).nvmodeValid = s.nvmodeValid := rfl
@[simp] theorem rxPush_cnt (b : Byte) : (s.rxPush b).cnt = s.cnt := rfl
@[simp] theorem rxPush_blk (b : Byte) : (s.rxPush b).blk = s.blk := rfl
@[simp] theorem rxPush_abortIn (b : Byte) : (s.rxPush b).abortIn = s.abortIn := rfl
@[simp] theorem rxPush_obs (b : Byte) : (s.rxPush b).obs = s.obs := rfl
@[simp] theorem rxPush_held (b : Byte) : (s.rxPush b).held = s.held := rfl
@[simp] theorem rxPush_script (b : Byte) : (s.rxPush b).script = s.script := rfl
@[simp] theorem rxPush_hostReads (b : Byte) : (s.rxPush b).hostReads = s.hostReads := rfl
@[simp] theorem rxPush_turns (b : Byte) : (s.rxPush b).turns = s.turns := rfl
@[simp] theorem rxPush_powerLosses (b : Byte) : (s.rxPush b).powerLosses = s.powerLosses := rfl

/-! `State.rxPop` -/

@[simp] theorem rxPop_cfg : s.rxPop.cfg = s.cfg := rfl
@[simp] theorem rxPop_arg : s.rxPop.arg = s.arg := rfl
@[simp] theorem rxPop_result : s.rxPop.result = s.result := rfl
@[simp] theorem rxPop_err : s.rxPop.err = s.err := rfl
@[simp] theorem rxPop_pend : s.rxPop.pend = s.pend := rfl
@[simp] theorem rxPop_serEn : s.rxPop.serEn = s.serEn := rfl
@[simp] theorem rxPop_rate : s.rxPop.rate = s.rate := rfl
@[simp] theorem rxPop_doubleSpeed : s.rxPop.doubleSpeed = s.doubleSpeed := rfl
@[simp] theorem rxPop_rxHead : s.rxPop.rxHead = s.rxHead := rfl
@[simp] theorem rxPop_rxTail : s.rxPop.rxTail = inc s.rxTail s.cfg.rxCap := rfl
@[simp] theorem rxPop_rxMem : s.rxPop.rxMem = s.rxMem := rfl
@[simp] theorem rxPop_txHead : s.rxPop.txHead = s.txHead := rfl
@[simp] theorem rxPop_txTail : s.rxPop.txTail = s.txTail := rfl
@[simp] theorem rxPop_txMem : s.rxPop.txMem = s.txMem := rfl
@[simp] theorem rxPop_txArmed : s.rxPop.txArmed = s.txArmed := rfl
@[simp] theorem rxPop_flow : s.rxPop.flow = s.flow := rfl
@[simp] theorem rxPop_rtsig : s.rxPop.rtsig = s.rtsig := rfl
@[simp] theorem rxPop_nv : s.rxPop.nv = s.nv := rfl
@[simp] theorem rxPop_nvInflight : s.rxPop.nvInflight = s.nvInflight := rfl
@[simp] theorem rxPop_nvmodeLast : s.rxPop.nvmodeLast = s.nvmodeLast := rfl
@[simp] theorem rxPop_nvmodeValid : s.rxPop.nvmodeValid = s.nvmodeValid := rfl
@[simp] theorem rxPop_cnt : s.rxPop.cnt = s.cnt := rfl
@[simp] theorem rxPop_blk : s.rxPop.blk = s.blk := rfl
@[simp] theorem rxPop_abortIn : s.rxPop.abortIn = s.abortIn := rfl
@[simp] theorem rxPop_obs : s.rxPop.obs = s.obs := rfl
@[simp] theorem rxPop_held : s.rxPop.held = s.held := rfl
@[simp] theorem rxPop_script : s.rxPop.script = s.script := rfl
@[simp] theorem rxPop_hostReads : s.rxPop.hostReads = s.hostReads := rfl
@[simp] theorem rxPop_turns : s.rxPop.turns = s.turns := rfl
@[simp] theorem rxPop_powerLosses : s.rxPop.powerLosses = s.powerLosses := rfl

/-! `State.txPush` -/

@[simp] theorem txPush_cfg (b : Byte) : (s.txPush b).cfg = s.cfg := rfl
@[simp] theorem txPush_arg (b : Byte) : (s.txPush b).arg = s.arg := rfl
@[simp] theorem txPush_result (b : Byte) : (s.txPush b).result = s.result := rfl
@[simp] theorem txPush_err (b : Byte) : (s.txPush b).err = s.err := rfl
@[simp] theorem txPush_pend (b : Byte) : (s.txPush b).pend = s.pend := rfl
@[simp] theorem txPush_serEn (b : Byte) : (s.txPush b).serEn = s.serEn := rfl
@[simp] theorem txPush_rate (b : Byte) : (s.txPush b).rate = s.rate := rfl
@[simp] theorem txPush_doubleSpeed (b : Byte) : (s.txPush b).doubleSpeed = s.doubleSpeed := rfl
@[simp] theorem txPush_rxHead (b : Byte) : (s.txPush b).rxHead = s.rxHead := rfl
@[simp] theorem txPush_rxTail (b : Byte) : (s.txPush b).rxTail = s.rxTail := rfl
@[simp] theorem txPush_rxMem (b : Byte) : (s.txPush b).rxMem = s.rxMem := rfl
@[simp] theorem txPush_txHead (b : Byte) : (s.txPush b).txHead = inc s.txHead s.cfg.txCap := rfl
@[simp] theorem txPush_txTail (b : Byte) : (s.txPush b).txTail = s.txTail := rfl
@[simp] theorem txPush_txMem (b : Byte) : (s.txPush b).txMem = s.txMem.write s.txHead.toNat b := rfl
@[simp] theorem txPush_txArmed (b : Byte) : (s.txPush b).txArmed = s.txArmed := rfl
@[simp] theorem txPush_flow (b : Byte) : (s.txPush b).flow = s.flow := rfl
@[simp] theorem txPush_rtsig (b : Byte) : (s.txPush b).rtsig = s.rtsig := rfl
@[simp] theorem txPush_nv (b : Byte) : (s.txPush b).nv = s.nv := rfl
@[simp] theorem txPush_nvInflight (b : Byte) : (s.txPush b).nvInflight = s.nvInflight := rfl
@[simp] theorem txPush_nvmodeLast (b : Byte) : (s.txPush b).nvmodeLast = s.nvmodeLast := rfl
@[simp] theorem txPush_nvmodeValid (b : Byte) : (s.txPush b).nvmodeValid = s.nvmodeValid := rfl
@[simp] theorem txPush_cnt (b : Byte) : (s.txPush b).cnt = s.cnt := rfl
@[simp] theorem txPush_blk (b : Byte) : (s.txPush b).blk = s.blk := rfl
@[simp] theorem txPush_abortIn (b : Byte) : (s.txPush b).abortIn = s.abortIn := rfl
@[simp] theorem txPush_obs (b : Byte) : (s.txPush b).obs = s.obs := rfl
@[simp] theorem txPush_held (b : Byte) : (s.txPush b).held = s.held := rfl
@[simp] theorem txPush_script (b : Byte) : (s.txPush b).script = s.script := rfl
@[simp] theorem txPush_hostReads (b : Byte) : (s.txPush b).hostReads = s.hostReads := rfl
@[simp] theorem txPush_turns (b : Byte) : (s.txPush b).turns = s.turns := rfl
@[simp] theorem txPush_powerLosses (b : Byte) : (s.txPush b).powerLosses = s.powerLosses := rfl

/-! `State.txPop` -/

@[simp] theorem txPop_cfg : s.txPop.cfg = s.cfg := rfl
@[simp] theorem txPop_arg : s.txPop.arg = s.arg := rfl
@[simp] theorem txPop_result : s.txPop.result = s.result := rfl
@[simp] theorem txPop_err : s.txPop.err = s.err := rfl
@[simp] theorem txPop_pend : s.txPop.pend = s.pend := rfl
@[simp] theorem txPop_serEn : s.txPop.serEn = s.serEn := rfl
@[simp] theorem txPop_rate : s.txPop.rate = s.rate := rfl
@[simp] theorem txPop_doubleSpeed : s.txPop.doubleSpeed = s.doubleSpeed := rfl
@[simp] theorem txPop_rxHead : s.txPop.rxHead = s.rxHead := rfl
@[simp] theorem txPop_rxTail : s.txPop.rxTail = s.rxTail := rfl
@[simp] theorem txPop_rxMem : s.txPop.rxMem = s.rxMem := rfl
@[simp] theorem txPop_txHead : s.txPop.txHead = s.txHead := rfl
@[simp] theorem txPop_txTail : s.txPop.txTail = inc s.txTail s.cfg.txCap := rfl
@[simp] theorem txPop_txMem : s.txPop.txMem = s.txMem := rfl
@[simp] theorem txPop_txArmed : s.txPop.txArmed = s.txArmed := rfl
@[simp] theorem txPop_flow : s.txPop.flow = s.flow := rfl
@[simp] theorem txPop_rtsig : s.txPop.rtsig = s.rtsig := rfl
@[simp] theorem txPop_nv : s.txPop.nv = s.nv := rfl
@[simp] theorem txPop_nvInflight : s.txPop.nvInflight = s.nvInflight := rfl
@[simp] theorem txPop_nvmodeLast : s.txPop.nvmodeLast = s.nvmodeLast := rfl
@[simp] theorem txPop_nvmodeValid : s.txPop.nvmodeValid = s.nvmodeValid := rfl
@[simp] theorem txPop_cnt : s.txPop.cnt = s.cnt := rfl
@[simp] theorem txPop_blk : s.txPop.blk = s.blk := rfl
@[simp] theorem txPop_abortIn : s.txPop.abortIn = s.abortIn := rfl
@[simp] theorem txPop_obs : s.txPop.obs = s.obs := rfl
@[simp] theorem txPop_held : s.txPop.held = s.held := rfl
@[simp] theorem txPop_script : s.txPop.script = s.script := rfl
@[simp] theorem txPop_hostReads : s.txPop.hostReads = s.hostReads := rfl
@[simp] theorem txPop_turns : s.txPop.turns = s.turns := rfl
@[simp] theorem txPop_powerLosses : s.txPop.powerLosses = s.powerLosses := rfl

/-! `State.signal` -/

@[simp] theorem signal_cfg (b : Byte) : (s.signal b).cfg = s.cfg := rfl
@[simp] theorem signal_arg (b : Byte) : (s.signal b).arg = s.arg := rfl
@[simp] theorem signal_result (b : Byte) : (s.signal b).result = s.result := rfl
@[simp] theorem signal_err (b : Byte) : (s.signal b).err = s.err := rfl
@[simp] theorem signal_pend (b : Byte) : (s.signal b).pend = s.pend := rfl
@[simp] theorem signal_serEn (b : Byte) : (s.signal b).serEn = s.serEn := rfl
@[simp] theorem signal_rate (b : Byte) : (s.signal b).rate = s.rate := rfl
@[simp] theorem signal_doubleSpeed (b : Byte) : (s.signal b).doubleSpeed = s.doubleSpeed := rfl
@[simp] theorem signal_rxHead (b : Byte) : (s.signal b).rxHead = s.rxHead := rfl
@[simp] theorem signal_rxTail (b : Byte) : (s.signal b).rxTail = s.rxTail := rfl
@[simp] theorem signal_rxMem (b : Byte) : (s.signal b).rxMem = s.rxMem := rfl
@[simp] theorem signal_txHead (b : Byte) : (s.signal b).txHead = s.txHead := rfl
@[simp] theorem signal_txTail (b : Byte) : (s.signal b).txTail = s.txTail := rfl
@[simp] theorem signal_txMem (b : Byte) : (s.signal b).txMem = s.txMem := rfl
@[simp] theorem signal_txArmed (b : Byte) : (s.signal b).txArmed = s.txArmed := rfl
@[simp] theorem signal_flow (b : Byte) : (s.signal b).flow = s.flow := rfl
@[simp] theorem signal_rtsig (b : Byte) : (s.signal b).rtsig = s.rtsig ||| b := rfl
@[simp] theorem signal_nv (b : Byte) : (s.signal b).nv = s.nv := rfl
@[simp] theorem signal_nvInflight (b : Byte) : (s.signal b).nvInflight = s.nvInflight := rfl
@[simp] theorem signal_nvmodeLast (b : Byte) : (s.signal b).nvmodeLast = s.nvmodeLast := rfl
@[simp] theorem signal_nvmodeValid (b : Byte) : (s.signal b).nvmodeValid = s.nvmodeValid := rfl
@[simp] theorem signal_cnt (b : Byte) : (s.signal b).cnt = s.cnt := rfl
@[simp] theorem signal_blk (b : Byte) : (s.signal b).blk = s.blk := rfl
@[simp] theorem signal_abortIn (b : Byte) : (s.signal b).abortIn = s.abortIn := rfl
@[simp] theorem signal_obs (b : Byte) : (s.signal b).obs = s.obs := rfl
@[simp] theorem signal_held (b : Byte) : (s.signal b).held = s.held := rfl
@[simp] theorem signal_script (b : Byte) : (s.signal b).script = s.script := rfl
@[simp] theorem signal_hostReads (b : Byte) : (s.signal b).hostReads = s.hostReads := rfl
@[simp] theorem signal_turns (b : Byte) : (s.signal b).turns = s.turns := rfl
@[simp] theorem signal_powerLosses (b : Byte) : (s.signal b).powerLosses = s.powerLosses := rfl

/-! `State.clearSignals` -/

@[simp] theorem clearSignals_cfg (m : Byte) : (s.clearSignals m).cfg = s.cfg := rfl
@[simp] theorem clearSignals_arg (m : Byte) : (s.clearSignals m).arg = s.arg := rfl
@[simp] theorem clearSignals_result (m : Byte) : (s.clearSignals m).result = s.result := rfl
@[simp] theorem clearSignals_err (m : Byte) : (s.clearSignals m).err = s.err := rfl
@[simp] theorem clearSignals_pend (m : Byte) : (s.clearSignals m).pend = s.pend := rfl
@[simp] theorem clearSignals_serEn (m : Byte) : (s.clearSignals m).serEn = s.serEn := rfl
@[simp] theorem clearSignals_rate (m : Byte) : (s.clearSignals m).rate = s.rate := rfl
@[simp] theorem clearSignals_doubleSpeed (m : Byte) : (s.clearSignals m).doubleSpeed = s.doubleSpeed := rfl
@[simp] theorem clearSignals_rxHead (m : Byte) : (s.clearSignals m).rxHead = s.rxHead := rfl
@[simp] theorem clearSignals_rxTail (m : Byte) : (s.clearSignals m).rxTail = s.rxTail := rfl
@[simp] theorem clearSignals_rxMem (m : Byte) : (s.clearSignals m).rxMem = s.rxMem := rfl
@[simp] theorem clearSignals_txHead (m : Byte) : (s.clearSignals m).txHead = s.txHead := rfl
@[simp] theorem clearSignals_txTail (m : Byte) : (s.clearSignals m).txTail = s.txTail := rfl
@[simp] theorem clearSignals_txMem (m : Byte) : (s.clearSignals m).txMem = s.txMem := rfl
@[simp] theorem clearSignals_txArmed (m : Byte) : (s.clearSignals m).txArmed = s.txArmed := rfl
@[simp] theorem clearSignals_flow (m : Byte) : (s.clearSignals m).flow = s.flow := rfl
@[simp] theorem clearSignals_rtsig (m : Byte) : (s.clearSignals m).rtsig = s.rtsig &&& ~~~(m &&& 0x07#8) := rfl
@[simp] theorem clearSignals_nv (m : Byte) : (s.clearSignals m).nv = s.nv := rfl
@[simp] theorem clearSignals_nvInflight (m : Byte) : (s.clearSignals m).nvInflight = s.nvInflight := rfl
@[simp] theorem clearSignals_nvmodeLast (m : Byte) : (s.clearSignals m).nvmodeLast = s.nvmodeLast := rfl
@[simp] theorem clearSignals_nvmodeValid (m : Byte) : (s.clearSignals m).nvmodeValid = s.nvmodeValid := rfl
@[simp] theorem clearSignals_cnt (m : Byte) : (s.clearSignals m).cnt = s.cnt := rfl
@[simp] theorem clearSignals_blk (m : Byte) : (s.clearSignals m).blk = s.blk := rfl
@[simp] theorem clearSignals_abortIn (m : Byte) : (s.clearSignals m).abortIn = s.abortIn := rfl
@[simp] theorem clearSignals_obs (m : Byte) : (s.clearSignals m).obs = s.obs := rfl
@[simp] theorem clearSignals_held (m : Byte) : (s.clearSignals m).held = s.held := rfl
@[simp] theorem clearSignals_script (m : Byte) : (s.clearSignals m).script = s.script := rfl
@[simp] theorem clearSignals_hostReads (m : Byte) : (s.clearSignals m).hostReads = s.hostReads := rfl
@[simp] theorem clearSignals_turns (m : Byte) : (s.clearSignals m).turns = s.turns := rfl
@[simp] theorem clearSignals_powerLosses (m : Byte) : (s.clearSignals m).powerLosses = s.powerLosses := rfl

/-! `State.scheduleFlow` -/

@[simp] theorem scheduleFlow_cfg (f : Flow) : (s.scheduleFlow f).cfg = s.cfg := rfl
@[simp] theorem scheduleFlow_arg (f : Flow) : (s.scheduleFlow f).arg = s.arg := rfl
@[simp] theorem scheduleFlow_result (f : Flow) : (s.scheduleFlow f).result = s.result := rfl
@[simp] theorem scheduleFlow_err (f : Flow) : (s.scheduleFlow f).err = s.err := rfl
@[simp] theorem scheduleFlow_pend (f : Flow) : (s.scheduleFlow f).pend = s.pend := rfl
@[simp] theorem scheduleFlow_serEn (f : Flow) : (s.scheduleFlow f).serEn = s.serEn := rfl
@[simp] theorem scheduleFlow_rate (f : Flow) : (s.scheduleFlow f).rate = s.rate := rfl
@[simp] theorem scheduleFlow_doubleSpeed (f : Flow) : (s.scheduleFlow f).doubleSpeed = s.doubleSpeed := rfl
@[simp] theorem scheduleFlow_rxHead (f : Flow) : (s.scheduleFlow f).rxHead = s.rxHead := rfl
@[simp] theorem scheduleFlow_rxTail (f : Flow) : (s.scheduleFlow f).rxTail = s.rxTail := rfl
@[simp] theorem scheduleFlow_rxMem (f : Flow) : (s.scheduleFlow f).rxMem = s.rxMem := rfl
@[simp] theorem scheduleFlow_txHead (f : Flow) : (s.scheduleFlow f).txHead = s.txHead := rfl
@[simp] theorem scheduleFlow_txTail (f : Flow) : (s.scheduleFlow f).txTail = s.txTail := rfl
@[simp] theorem scheduleFlow_txMem (f : Flow) : (s.scheduleFlow f).txMem = s.txMem := rfl
@[simp] theorem scheduleFlow_txArmed (f : Flow) : (s.scheduleFlow f).txArmed = true := rfl
@[simp] theorem scheduleFlow_flow (f : Flow) : (s.scheduleFlow f).flow = f := rfl
@[simp] theorem scheduleFlow_rtsig (f : Flow) : (s.scheduleFlow f).rtsig = s.rtsig := rfl
@[simp] theorem scheduleFlow_nv (f : Flow) : (s.scheduleFlow f).nv = s.nv := rfl
@[simp] theorem scheduleFlow_nvInflight (f : Flow) : (s.scheduleFlow f).nvInflight = s.nvInflight := rfl
@[simp] theorem scheduleFlow_nvmodeLast (f : Flow) : (s.scheduleFlow f).nvmodeLast = s.nvmodeLast := rfl
@[simp] theorem scheduleFlow_nvmodeValid (f : Flow) : (s.scheduleFlow f).nvmodeValid = s.nvmodeValid := rfl
@[simp] theorem scheduleFlow_cnt (f : Flow) : (s.scheduleFlow f).cnt = s.cnt := rfl
@[simp] theorem scheduleFlow_blk (f : Flow) : (s.scheduleFlow f).blk = s.blk := rfl
@[simp] theorem scheduleFlow_abortIn (f : Flow) : (s.scheduleFlow f).abortIn = s.abortIn := rfl
@[simp] theorem scheduleFlow_obs (f : Flow) : (s.scheduleFlow f).obs = s.obs := rfl
@[simp] theorem scheduleFlow_held (f : Flow) : (s.scheduleFlow f).held = s.held := rfl
@[simp] theorem scheduleFlow_script (f : Flow) : (s.scheduleFlow f).script = s.script := rfl
@[simp] theorem scheduleFlow_hostReads (f : Flow) : (s.scheduleFlow f).hostReads = s.hostReads := rfl
@[simp] theorem scheduleFlow_turns (f : Flow) : (s.scheduleFlow f).turns = s.turns := rfl
@[simp] theorem scheduleFlow_powerLosses (f : Flow) : (s.scheduleFlow f).powerLosses = s.powerLosses := rfl

/-! `State.recordMode` -/

@[simp] theorem recordMode_cfg (m : NvMode) : (s.recordMode m).cfg = s.cfg := rfl
@[simp] theorem recordMode_arg (m : NvMode) : (s.recordMode m).arg = s.arg := rfl
@[simp] theorem recordMode_result (m : NvMode) : (s.recordMode m).result = s.result := rfl
@[simp] theorem recordMode_err (m : NvMode) : (s.recordMode m).err = s.err := rfl
@[simp] theorem recordMode_pend (m : NvMode) : (s.recordMode m).pend = s.pend := rfl
@[simp] theorem recordMode_serEn (m : NvMode) : (s.recordMode m).serEn = s.serEn := rfl
@[simp] theorem recordMode_rate (m : NvMode) : (s.recordMode m).rate = s.rate := rfl
@[simp] theorem recordMode_doubleSpeed (m : NvMode) : (s.recordMode m).doubleSpeed = s.doubleSpeed := rfl
@[simp] theorem recordMode_rxHead (m : NvMode) : (s.recordMode m).rxHead = s.rxHead := rfl
@[simp] theorem recordMode_rxTail (m : NvMode) : (s.recordMode m).rxTail = s.rxTail := rfl
@[simp] theorem recordMode_rxMem (m : NvMode) : (s.recordMode m).rxMem = s.rxMem := rfl
@[simp] theorem recordMode_txHead (m : NvMode) : (s.recordMode m).txHead = s.txHead := rfl
@[simp] theorem recordMode_txTail (m : NvMode) : (s.recordMode m).txTail = s.txTail := rfl
@[simp] theorem recordMode_txMem (m : NvMode) : (s.recordMode m).txMem = s.txMem := rfl
@[simp] theorem recordMode_txArmed (m : NvMode) : (s.recordMode m).txArmed = s.txArmed := rfl
@[simp] theorem recordMode_flow (m : NvMode) : (s.recordMode m).flow = s.flow := rfl
@[simp] theorem recordMode_rtsig (m : NvMode) : (s.recordMode m).rtsig = s.rtsig := rfl
@[simp] theorem recordMode_nv (m : NvMode) : (s.recordMode m).nv = s.nv := rfl
@[simp] theorem recordMode_nvInflight (m : NvMode) : (s.recordMode m).nvInflight = s.nvInflight := rfl
@[simp] theorem recordMode_nvmodeLast (m : NvMode) : (s.recordMode m).nvmodeLast = m := rfl
@[simp] theorem recordMode_nvmodeValid (m : NvMode) : (s.recordMode m).nvmodeValid = true := rfl
@[simp] theorem recordMode_cnt (m : NvMode) : (s.recordMode m).cnt = s.cnt.bump m := rfl
@[simp] theorem recordMode_blk (m : NvMode) : (s.recordMode m).blk = s.blk := rfl
@[simp] theorem recordMode_abortIn (m : NvMode) : (s.recordMode m).abortIn = s.abortIn := rfl
@[simp] theorem recordMode_obs (m : NvMode) : (s.recordMode m).obs = s.obs := rfl
@[simp] theorem recordMode_held (m : NvMode) : (s.recordMode m).held = s.held := rfl
@[simp] theorem recordMode_script (m : NvMode) : (s.recordMode m).script = s.script := rfl
@[simp] theorem recordMode_hostReads (m : NvMode) : (s.recordMode m).hostReads = s.hostReads := rfl
@[simp] theorem recordMode_turns (m : NvMode) : (s.recordMode m).turns = s.turns := rfl
@[simp] theorem recordMode_powerLosses (m : NvMode) : (s.recordMode m).powerLosses = s.powerLosses := rfl

/-! `State.writeByte` -/

@[simp] theorem writeByte_cfg (a : Nat) (v : Byte) : (s.writeByte a v).cfg = s.cfg := rfl
@[simp] theorem writeByte_arg (a : Nat) (v : Byte) : (s.writeByte a v).arg = s.arg := rfl
@[simp] theorem writeByte_result (a : Nat) (v : Byte) : (s.writeByte a v).result = s.result := rfl
@[simp] theorem writeByte_err (a : Nat) (v : Byte) : (s.writeByte a v).err = s.err := rfl
@[simp] theorem writeByte_pend (a : Nat) (v : Byte) : (s.writeByte a v).pend = s.pend := rfl
@[simp] theorem writeByte_serEn (a : Nat) (v : Byte) : (s.writeByte a v).serEn = s.serEn := rfl
@[simp] theorem writeByte_rate (a : Nat) (v : Byte) : (s.writeByte a v).rate = s.rate := rfl
@[simp] theorem writeByte_doubleSpeed (a : Nat) (v : Byte) : (s.writeByte a v).doubleSpeed = s.doubleSpeed := rfl
@[simp] theorem writeByte_rxHead (a : Nat) (v : Byte) : (s.writeByte a v).rxHead = s.rxHead := rfl
@[simp] theorem writeByte_rxTail (a : Nat) (v : Byte) : (s.writeByte a v).rxTail = s.rxTail := rfl
@[simp] theorem writeByte_rxMem (a : Nat) (v : Byte) : (s.writeByte a v).rxMem = s.rxMem := rfl
@[simp] theorem writeByte_txHead (a : Nat) (v : Byte) : (s.writeByte a v).txHead = s.txHead := rfl
@[simp] theorem writeByte_txTail (a : Nat) (v : Byte) : (s.writeByte a v).txTail = s.txTail := rfl
@[simp] theorem writeByte_txMem (a : Nat) (v : Byte) : (s.writeByte a v).txMem = s.txMem := rfl
@[simp] theorem writeByte_txArmed (a : Nat) (v : Byte) : (s.writeByte a v).txArmed = s.txArmed := rfl
@[simp] theorem writeByte_flow (a : Nat) (v : Byte) : (s.writeByte a v).flow = s.flow := rfl
@[simp] theorem writeByte_rtsig (a : Nat) (v : Byte) : (s.writeByte a v).rtsig = s.rtsig := rfl
@[simp] theorem writeByte_nv (a : Nat) (v : Byte) : (s.writeByte a v).nv = s.nv := rfl
@[simp] theorem writeByte_nvInflight (a : Nat) (v : Byte) : (s.writeByte a v).nvInflight = issued a (selectMode (s.nvByte a) v) v := rfl
@[simp] theorem writeByte_nvmodeLast (a : Nat) (v : Byte) : (s.writeByte a v).nvmodeLast = selectMode (s.nvByte a) v := rfl
@[simp] theorem writeByte_nvmodeValid (a : Nat) (v : Byte) : (s.writeByte a v).nvmodeValid = true := rfl
@[simp] theorem writeByte_cnt (a : Nat) (v : Byte) : (s.writeByte a v).cnt = s.cnt.bump (selectMode (s.nvByte a) v) := rfl
@[simp] theorem writeByte_blk (a : Nat) (v : Byte) : (s.writeByte a v).blk = s.blk := rfl
@[simp] theorem writeByte_abortIn (a : Nat) (v : Byte) : (s.writeByte a v).abortIn = s.abortIn := rfl
@[simp] theorem writeByte_obs (a : Nat) (v : Byte) : (s.writeByte a v).obs = s.obs := rfl
@[simp] theorem writeByte_held (a : Nat) (v : Byte) : (s.writeByte a v).held = s.held := rfl
@[simp] theorem writeByte_script (a : Nat) (v : Byte) : (s.writeByte a v).script = s.script := rfl
@[simp] theorem writeByte_hostReads (a : Nat) (v : Byte) : (s.writeByte a v).hostReads = s.hostReads := rfl
@[simp] theorem writeByte_turns (a : Nat) (v : Byte) : (s.writeByte a v).turns = s.turns := rfl
@[simp] theorem writeByte_powerLosses (a : Nat) (v : Byte) : (s.writeByte a v).powerLosses = s.powerLosses := rfl

/-! `State.blockFinalStep` -/

@[simp] theorem blockFinalStep_cfg (a : Nat) (p : Pend) : (s.blockFinalStep a p).cfg = s.cfg := rfl
@[simp] theorem blockFinalStep_arg (a : Nat) (p : Pend) : (s.blockFinalStep a p).arg = s.arg := rfl
@[simp] theorem blockFinalStep_result (a : Nat) (p : Pend) : (s.blockFinalStep a p).result = resultCsum p.acc := rfl
@[simp] theorem blockFinalStep_err (a : Nat) (p : Pend) : (s.blockFinalStep a p).err = .ok := rfl
@[simp] theorem blockFinalStep_pend (a : Nat) (p : Pend) : (s.blockFinalStep a p).pend = none := rfl
@[simp] theorem blockFinalStep_serEn (a : Nat) (p : Pend) : (s.blockFinalStep a p).serEn = s.serEn := rfl
@[simp] theorem blockFinalStep_rate (a : Nat) (p : Pend) : (s.blockFinalStep a p).rate = s.rate := rfl
@[simp] theorem blockFinalStep_doubleSpeed (a : Nat) (p : Pend) : (s.blockFinalStep a p).doubleSpeed = s.doubleSpeed := rfl
@[simp] theorem blockFinalStep_rxHead (a : Nat) (p : Pend) : (s.blockFinalStep a p).rxHead = s.rxHead := rfl
@[simp] theorem blockFinalStep_rxTail (a : Nat) (p : Pend) : (s.blockFinalStep a p).rxTail = s.rxTail := rfl
@[simp] theorem blockFinalStep_rxMem (a : Nat) (p : Pend) : (s.blockFinalStep a p).rxMem = s.rxMem := rfl
@[simp] theorem blockFinalStep_txHead (a : Nat) (p : Pend) : (s.blockFinalStep a p).txHead = s.txHead := rfl
@[simp] theorem blockFinalStep_txTail (a : Nat) (p : Pend) : (s.blockFinalStep a p).txTail = s.txTail := rfl
@[simp] theorem blockFinalStep_txMem (a : Nat) (p : Pend) : (s.blockFinalStep a p).txMem = s.txMem := rfl
@[simp] theorem blockFinalStep_txArmed (a : Nat) (p : Pend) : (s.blockFinalStep a p).txArmed = s.txArmed := rfl
@[simp] theorem blockFinalStep_flow (a : Nat) (p : Pend) : (s.blockFinalStep a p).flow = s.flow := rfl
@[simp] theorem blockFinalStep_rtsig (a : Nat) (p : Pend) : (s.blockFinalStep a p).rtsig = s.rtsig := rfl
@[simp] theorem blockFinalStep_nv (a : Nat) (p : Pend) : (s.blockFinalStep a p).nv = s.nv := rfl
@[simp] theorem blockFinalStep_nvInflight (a : Nat) (p : Pend) : (s.blockFinalStep a p).nvInflight = issued (a + p.len) (selectMode (s.nvByte (a + p.len)) p.acc) p.acc := rfl
@[simp] theorem blockFinalStep_nvmodeLast (a : Nat) (p : Pend) : (s.blockFinalStep a p).nvmodeLast = selectMode (s.nvByte (a + p.len)) p.acc := rfl
@[simp] theorem blockFinalStep_nvmodeValid (a : Nat) (p : Pend) : (s.blockFinalStep a p).nvmodeValid = true := rfl
@[simp] theorem blockFinalStep_cnt (a : Nat) (p : Pend) : (s.blockFinalStep a p).cnt = s.cnt.bump (selectMode (s.nvByte (a + p.len)) p.acc) := rfl
@[simp] theorem blockFinalStep_blk (a : Nat) (p : Pend) : (s.blockFinalStep a p).blk = s.blk := rfl
@[simp] theorem blockFinalStep_abortIn (a : Nat) (p : Pend) : (s.blockFinalStep a p).abortIn = s.abortIn := rfl
@[simp] theorem blockFinalStep_obs (a : Nat) (p : Pend) : (s.blockFinalStep a p).obs = s.obs := rfl
@[simp] theorem blockFinalStep_held (a : Nat) (p : Pend) : (s.blockFinalStep a p).held = s.held := rfl
@[simp] theorem blockFinalStep_script (a : Nat) (p : Pend) : (s.blockFinalStep a p).script = s.script := rfl
@[simp] theorem blockFinalStep_hostReads (a : Nat) (p : Pend) : (s.blockFinalStep a p).hostReads = s.hostReads := rfl
@[simp] theorem blockFinalStep_turns (a : Nat) (p : Pend) : (s.blockFinalStep a p).turns = s.turns := rfl
@[simp] theorem blockFinalStep_powerLosses (a : Nat) (p : Pend) : (s.blockFinalStep a p).powerLosses = s.powerLosses := rfl

/-! `State.returnRead` -/

@[simp] theorem returnRead_cfg (o : Nat) (w : Word) : (s.returnRead o w).cfg = s.cfg := rfl
@[simp] theorem returnRead_arg (o : Nat) (w : Word) : (s.returnRead o w).arg = s.arg := rfl
@[simp] theorem returnRead_result (o : Nat) (w : Word) : (s.returnRead o w).result = s.result := rfl
@[simp] theorem returnRead_err (o : Nat) (w : Word) : (s.returnRead o w).err = s.err := rfl
@[simp] theorem returnRead_pend (o : Nat) (w : Word) : (s.returnRead o w).pend = s.pend := rfl
@[simp] theorem returnRead_serEn (o : Nat) (w : Word) : (s.returnRead o w).serEn = s.serEn := rfl
@[simp] theorem returnRead_rate (o : Nat) (w : Word) : (s.returnRead o w).rate = s.rate := rfl
@[simp] theorem returnRead_doubleSpeed (o : Nat) (w : Word) : (s.returnRead o w).doubleSpeed = s.doubleSpeed := rfl
@[simp] theorem returnRead_rxHead (o : Nat) (w : Word) : (s.returnRead o w).rxHead = s.rxHead := rfl
@[simp] theorem returnRead_rxTail (o : Nat) (w : Word) : (s.returnRead o w).rxTail = s.rxTail := rfl
@[simp] theorem returnRead_rxMem (o : Nat) (w : Word) : (s.returnRead o w).rxMem = s.rxMem := rfl
@[simp] theorem returnRead_txHead (o : Nat) (w : Word) : (s.returnRead o w).txHead = s.txHead := rfl
@[simp] theorem returnRead_txTail (o : Nat) (w : Word) : (s.returnRead o w).txTail = s.txTail := rfl
@[simp] theorem returnRead_txMem (o : Nat) (w : Word) : (s.returnRead o w).txMem = s.txMem := rfl
@[simp] theorem returnRead_txArmed (o : Nat) (w : Word) : (s.returnRead o w).txArmed = s.txArmed := rfl
@[simp] theorem returnRead_flow (o : Nat) (w : Word) : (s.returnRead o w).flow = s.flow := rfl
@[simp] theorem returnRead_rtsig (o : Nat) (w : Word) : (s.returnRead o w).rtsig = s.rtsig := rfl
@[simp] theorem returnRead_nv (o : Nat) (w : Word) : (s.returnRead o w).nv = s.nv := rfl
@[simp] theorem returnRead_nvInflight (o : Nat) (w : Word) : (s.returnRead o w).nvInflight = s.nvInflight := rfl
@[simp] theorem returnRead_nvmodeLast (o : Nat) (w : Word) : (s.returnRead o w).nvmodeLast = s.nvmodeLast := rfl
@[simp] theorem returnRead_nvmodeValid (o : Nat) (w : Word) : (s.returnRead o w).nvmodeValid = s.nvmodeValid := rfl
@[simp] theorem returnRead_cnt (o : Nat) (w : Word) : (s.returnRead o w).cnt = s.cnt := rfl
@[simp] theorem returnRead_blk (o : Nat) (w : Word) : (s.returnRead o w).blk = s.blk := rfl
@[simp] theorem returnRead_abortIn (o : Nat) (w : Word) : (s.returnRead o w).abortIn = s.abortIn := rfl
@[simp] theorem returnRead_obs (o : Nat) (w : Word) : (s.returnRead o w).obs = s.obs := rfl
@[simp] theorem returnRead_held (o : Nat) (w : Word) : (s.returnRead o w).held = s.held := rfl
@[simp] theorem returnRead_script (o : Nat) (w : Word) : (s.returnRead o w).script = s.script := rfl
@[simp] theorem returnRead_hostReads (o : Nat) (w : Word) : (s.returnRead o w).hostReads = s.hostReads ++ [(o, w)] := rfl
@[simp] theorem returnRead_turns (o : Nat) (w : Word) : (s.returnRead o w).turns = s.turns := rfl
@[simp] theorem returnRead_powerLosses (o : Nat) (w : Word) : (s.returnRead o w).powerLosses = s.powerLosses := rfl

/-! `State.advanceHost` -/

@[simp] theorem advanceHost_cfg : s.advanceHost.cfg = s.cfg := rfl
@[simp] theorem advanceHost_arg : s.advanceHost.arg = s.arg := rfl
@[simp] theorem advanceHost_result : s.advanceHost.result = s.result := rfl
@[simp] theorem advanceHost_err : s.advanceHost.err = s.err := rfl
@[simp] theorem advanceHost_pend : s.advanceHost.pend = s.pend := rfl
@[simp] theorem advanceHost_serEn : s.advanceHost.serEn = s.serEn := rfl
@[simp] theorem advanceHost_rate : s.advanceHost.rate = s.rate := rfl
@[simp] theorem advanceHost_doubleSpeed : s.advanceHost.doubleSpeed = s.doubleSpeed := rfl
@[simp] theorem advanceHost_rxHead : s.advanceHost.rxHead = s.rxHead := rfl
@[simp] theorem advanceHost_rxTail : s.advanceHost.rxTail = s.rxTail := rfl
@[simp] theorem advanceHost_rxMem : s.advanceHost.rxMem = s.rxMem := rfl
@[simp] theorem advanceHost_txHead : s.advanceHost.txHead = s.txHead := rfl
@[simp] theorem advanceHost_txTail : s.advanceHost.txTail = s.txTail := rfl
@[simp] theorem advanceHost_txMem : s.advanceHost.txMem = s.txMem := rfl
@[simp] theorem advanceHost_txArmed : s.advanceHost.txArmed = s.txArmed := rfl
@[simp] theorem advanceHost_flow : s.advanceHost.flow = s.flow := rfl
@[simp] theorem advanceHost_rtsig : s.advanceHost.rtsig = s.rtsig := rfl
@[simp] theorem advanceHost_nv : s.advanceHost.nv = s.nv := rfl
@[simp] theorem advanceHost_nvInflight : s.advanceHost.nvInflight = s.nvInflight := rfl
@[simp] theorem advanceHost_nvmodeLast : s.advanceHost.nvmodeLast = s.nvmodeLast := rfl
@[simp] theorem advanceHost_nvmodeValid : s.advanceHost.nvmodeValid = s.nvmodeValid := rfl
@[simp] theorem advanceHost_cnt : s.advanceHost.cnt = s.cnt := rfl
@[simp] theorem advanceHost_blk : s.advanceHost.blk = s.blk := rfl
@[simp] theorem advanceHost_abortIn : s.advanceHost.abortIn = s.abortIn := rfl
@[simp] theorem advanceHost_obs : s.advanceHost.obs = s.obs := rfl
@[simp] theorem advanceHost_held : s.advanceHost.held = s.held := rfl
@[simp] theorem advanceHost_script : s.advanceHost.script = s.script.tail := rfl
@[simp] theorem advanceHost_hostReads : s.advanceHost.hostReads = s.hostReads := rfl
@[simp] theorem advanceHost_turns : s.advanceHost.turns = s.turns := rfl
@[simp] theorem advanceHost_powerLosses : s.advanceHost.powerLosses = s.powerLosses := rfl

/-! `State.resetValues` -/

@[simp] theorem resetValues_cfg : s.resetValues.cfg = s.cfg := rfl
@[simp] theorem resetValues_arg : s.resetValues.arg = 0 := rfl
@[simp] theorem resetValues_result : s.resetValues.result = 0 := rfl
@[simp] theorem resetValues_err : s.resetValues.err = .ok := rfl
@[simp] theorem resetValues_pend : s.resetValues.pend = none := rfl
@[simp] theorem resetValues_serEn : s.resetValues.serEn = false := rfl
@[simp] theorem resetValues_rate : s.resetValues.rate = 0 := rfl
@[simp] theorem resetValues_doubleSpeed : s.resetValues.doubleSpeed = false := rfl
@[simp] theorem resetValues_rxHead : s.resetValues.rxHead = 0 := rfl
@[simp] theorem resetValues_rxTail : s.resetValues.rxTail = 0 := rfl
@[simp] theorem resetValues_rxMem : s.resetValues.rxMem = s.rxMem := rfl
@[simp] theorem resetValues_txHead : s.resetValues.txHead = 0 := rfl
@[simp] theorem resetValues_txTail : s.resetValues.txTail = 0 := rfl
@[simp] theorem resetValues_txMem : s.resetValues.txMem = s.txMem := rfl
@[simp] theorem resetValues_txArmed : s.resetValues.txArmed = false := rfl
@[simp] theorem resetValues_flow : s.resetValues.flow = .xonAsserted := rfl
@[simp] theorem resetValues_rtsig : s.resetValues.rtsig = 0 := rfl
@[simp] theorem resetValues_nv : s.resetValues.nv = s.nv := rfl
@[simp] theorem resetValues_nvInflight : s.resetValues.nvInflight = none := rfl
@[simp] theorem resetValues_nvmodeLast : s.resetValues.nvmodeLast = .noOp := rfl
@[simp] theorem resetValues_nvmodeValid : s.resetValues.nvmodeValid = false := rfl
@[simp] theorem resetValues_cnt : s.resetValues.cnt = ⟨0, 0, 0, 0⟩ := rfl
@[simp] theorem resetValues_blk : s.resetValues.blk = [] := rfl
@[simp] theorem resetValues_abortIn : s.resetValues.abortIn = s.abortIn := rfl
@[simp] theorem resetValues_obs : s.resetValues.obs = s.obs := rfl
@[simp] theorem resetValues_held : s.resetValues.held = none := rfl
@[simp] theorem resetValues_script : s.resetValues.script = s.script := rfl
@[simp] theorem resetValues_hostReads : s.resetValues.hostReads = s.hostReads := rfl
@[simp] theorem resetValues_turns : s.resetValues.turns = s.turns := rfl
@[simp] theorem resetValues_powerLosses : s.resetValues.powerLosses = s.powerLosses := rfl

/-! `State.checkXoff`: the fields it never changes -/

@[simp] theorem checkXoff_cfg : s.checkXoff.cfg = s.cfg := by unfold State.checkXoff; split <;> rfl
@[simp] theorem checkXoff_arg : s.checkXoff.arg = s.arg := by unfold State.checkXoff; split <;> rfl
@[simp] theorem checkXoff_result : s.checkXoff.result = s.result := by unfold State.checkXoff; split <;> rfl
@[simp] theorem checkXoff_err : s.checkXoff.err = s.err := by unfold State.checkXoff; split <;> rfl
@[simp] theorem checkXoff_pend : s.checkXoff.pend = s.pend := by unfold State.checkXoff; split <;> rfl
@[simp] theorem checkXoff_serEn : s.checkXoff.serEn = s.serEn := by unfold State.checkXoff; split <;> rfl
@[simp] theorem checkXoff_rate : s.checkXoff.rate = s.rate := by unfold State.checkXoff; split <;> rfl
@[simp] theorem checkXoff_doubleSpeed : s.checkXoff.doubleSpeed = s.doubleSpeed := by unfold State.checkXoff; split <;> rfl
@[simp] theorem checkXoff_rxHead : s.checkXoff.rxHead = s.rxHead := by unfold State.checkXoff; split <;> rfl
@[simp] theorem checkXoff_rxTail : s.checkXoff.rxTail = s.rxTail := by unfold State.checkXoff; split <;> rfl
@[simp] theorem checkXoff_rxMem : s.checkXoff.rxMem = s.rxMem := by unfold State.checkXoff; split <;> rfl
@[simp] theorem checkXoff_txHead : s.checkXoff.txHead = s.txHead := by unfold State.checkXoff; split <;> rfl
@[simp] theorem checkXoff_txTail : s.checkXoff.txTail = s.txTail := by unfold State.checkXoff; split <;> rfl
@[simp] theorem checkXoff_txMem : s.checkXoff.txMem = s.txMem := by unfold State.checkXoff; split <;> rfl
@[simp] theorem checkXoff_rtsig : s.checkXoff.rtsig = s.rtsig := by unfold State.checkXoff; split <;> rfl
@[simp] theorem checkXoff_nv : s.checkXoff.nv = s.nv := by unfold State.checkXoff; split <;> rfl
@[simp] theorem checkXoff_nvInflight : s.checkXoff.nvInflight = s.nvInflight := by unfold State.checkXoff; split <;> rfl
@[simp] theorem checkXoff_nvmodeLast : s.checkXoff.nvmodeLast = s.nvmodeLast := by unfold State.checkXoff; split <;> rfl
@[simp] theorem checkXoff_nvmodeValid : s.checkXoff.nvmodeValid = s.nvmodeValid := by unfold State.checkXoff; split <;> rfl
@[simp] theorem checkXoff_cnt : s.checkXoff.cnt = s.cnt := by unfold State.checkXoff; split <;> rfl
@[simp] theorem checkXoff_blk : s.checkXoff.blk = s.blk := by unfold State.checkXoff; split <;> rfl
@[simp] theorem checkXoff_abortIn : s.checkXoff.abortIn = s.abortIn := by unfold State.checkXoff; split <;> rfl
@[simp] theorem checkXoff_obs : s.checkXoff.obs = s.obs := by unfold State.checkXoff; split <;> rfl
@[simp] theorem checkXoff_held : s.checkXoff.held = s.held := by unfold State.checkXoff; split <;> rfl
@[simp] theorem checkXoff_script : s.checkXoff.script = s.script := by unfold State.checkXoff; split <;> rfl
@[simp] theorem checkXoff_hostReads : s.checkXoff.hostReads = s.hostReads := by unfold State.checkXoff; split <;> rfl
@[simp] theorem checkXoff_turns : s.checkXoff.turns = s.turns := by unfold State.checkXoff; split <;> rfl
@[simp] theorem checkXoff_powerLosses : s.checkXoff.powerLosses = s.powerLosses := by unfold State.checkXoff; split <;> rfl

/-! `State.checkXon`: the fields it never changes -/

@[simp] theorem checkXon_cfg : s.checkXon.cfg = s.cfg := by unfold State.checkXon; split <;> rfl
@[simp] theorem checkXon_arg : s.checkXon.arg = s.arg := by unfold State.checkXon; split <;> rfl
@[simp] theorem checkXon_result : s.checkXon.result = s.result := by unfold State.checkXon; split <;> rfl
@[simp] theorem checkXon_err : s.checkXon.err = s.err := by unfold State.checkXon; split <;> rfl
@[simp] theorem checkXon_pend : s.checkXon.pend = s.pend := by unfold State.checkXon; split <;> rfl
@[simp] theorem checkXon_serEn : s.checkXon.serEn = s.serEn := by unfold State.checkXon; split <;> rfl
@[simp] theorem checkXon_rate : s.checkXon.rate = s.rate := by unfold State.checkXon; split <;> rfl
@[simp] theorem checkXon_doubleSpeed : s.checkXon.doubleSpeed = s.doubleSpeed := by unfold State.checkXon; split <;> rfl
@[simp] theorem checkXon_rxHead : s.checkXon.rxHead = s.rxHead := by unfold State.checkXon; split <;> rfl
@[simp] theorem checkXon_rxTail : s.checkXon.rxTail = s.rxTail := by unfold State.checkXon; split <;> rfl
@[simp] theorem checkXon_rxMem : s.checkXon.rxMem = s.rxMem := by unfold State.checkXon; split <;> rfl
@[simp] theorem checkXon_txHead : s.checkXon.txHead = s.txHead := by unfold State.checkXon; split <;> rfl
@[simp] theorem checkXon_txTail : s.checkXon.txTail = s.txTail := by unfold State.checkXon; split <;> rfl
@[simp] theorem checkXon_txMem : s.checkXon.txMem = s.txMem := by unfold State.checkXon; split <;> rfl
@[simp] theorem checkXon_rtsig : s.checkXon.rtsig = s.rtsig := by unfold State.checkXon; split <;> rfl
@[simp] theorem checkXon_nv : s.checkXon.nv = s.nv := by unfold State.checkXon; split <;> rfl
@[simp] theorem checkXon_nvInflight : s.checkXon.nvInflight = s.nvInflight := by unfold State.checkXon; split <;> rfl
@[simp] theorem checkXon_nvmodeLast : s.checkXon.nvmodeLast = s.nvmodeLast := by unfold State.checkXon; split <;> rfl
@[simp] theorem checkXon_nvmodeValid : s.checkXon.nvmodeValid = s.nvmodeValid := by unfold State.checkXon; split <;> rfl
@[simp] theorem checkXon_cnt : s.checkXon.cnt = s.cnt := by unfold State.checkXon; split <;> rfl
@[simp] theorem checkXon_blk : s.checkXon.blk = s.blk := by unfold State.checkXon; split <;> rfl
@[simp] theorem checkXon_abortIn : s.checkXon.abortIn = s.abortIn := by unfold State.checkXon; split <;> rfl
@[simp] theorem checkXon_obs : s.checkXon.obs = s.obs := by unfold State.checkXon; split <;> rfl
@[simp] theorem checkXon_held : s.checkXon.held = s.held := by unfold State.checkXon; split <;> rfl
@[simp] theorem checkXon_script : s.checkXon.script = s.script := by unfold State.checkXon; split <;> rfl
@[simp] theorem checkXon_hostReads : s.checkXon.hostReads = s.hostReads := by unfold State.checkXon; split <;> rfl
@[simp] theorem checkXon_turns : s.checkXon.turns = s.turns := by unfold State.checkXon; split <;> rfl
@[simp] theorem checkXon_powerLosses : s.checkXon.powerLosses = s.powerLosses := by unfold State.checkXon; split <;> rfl

/-! `State.disarm`: the fields it never changes -/

@[simp] theorem disarm_cfg : s.disarm.cfg = s.cfg := by unfold State.disarm; split <;> rfl
@[simp] theorem disarm_arg : s.disarm.arg = s.arg := by unfold State.disarm; split <;> rfl
@[simp] theorem disarm_result : s.disarm.result = s.result := by unfold State.disarm; split <;> rfl
@[simp] theorem disarm_err : s.disarm.err = s.err := by unfold State.disarm; split <;> rfl
@[simp] theorem disarm_pend : s.disarm.pend = s.pend := by unfold State.disarm; split <;> rfl
@[simp] theorem disarm_serEn : s.disarm.serEn = s.serEn := by unfold State.disarm; split <;> rfl
@[simp] theorem disarm_rate : s.disarm.rate = s.rate := by unfold State.disarm; split <;> rfl
@[simp] theorem disarm_doubleSpeed : s.disarm.doubleSpeed = s.doubleSpeed := by unfold State.disarm; split <;> rfl
@[simp] theorem disarm_rxHead : s.disarm.rxHead = s.rxHead := by unfold State.disarm; split <;> rfl
@[simp] theorem disarm_rxTail : s.disarm.rxTail = s.rxTail := by unfold State.disarm; split <;> rfl
@[simp] theorem disarm_rxMem : s.disarm.rxMem = s.rxMem := by unfold State.disarm; split <;> rfl
@[simp] theorem disarm_txHead : s.disarm.txHead = s.txHead := by unfold State.disarm; split <;> rfl
@[simp] theorem disarm_txTail : s.disarm.txTail = s.txTail := by unfold State.disarm; split <;> rfl
@[simp] theorem disarm_txMem : s.disarm.txMem = s.txMem := by unfold State.disarm; split <;> rfl
@[simp] theorem disarm_flow : s.disarm.flow = s.flow := by unfold State.disarm; split <;> rfl
@[simp] theorem disarm_rtsig : s.disarm.rtsig = s.rtsig := by unfold State.disarm; split <;> rfl
@[simp] theorem disarm_nv : s.disarm.nv = s.nv := by unfold State.disarm; split <;> rfl
@[simp] theorem disarm_nvInflight : s.disarm.nvInflight = s.nvInflight := by unfold State.disarm; split <;> rfl
@[simp] theorem disarm_nvmodeLast : s.disarm.nvmodeLast = s.nvmodeLast := by unfold State.disarm; split <;> rfl
@[simp] theorem disarm_nvmodeValid : s.disarm.nvmodeValid = s.nvmodeValid := by unfold State.disarm; split <;> rfl
@[simp] theorem disarm_cnt : s.disarm.cnt = s.cnt := by unfold State.disarm; split <;> rfl
@[simp] theorem disarm_blk : s.disarm.blk = s.blk := by unfold State.disarm; split <;> rfl
@[simp] theorem disarm_abortIn : s.disarm.abortIn = s.abortIn := by unfold State.disarm; split <;> rfl
@[simp] theorem disarm_obs : s.disarm.obs = s.obs := by unfold State.disarm; split <;> rfl
@[simp] theorem disarm_held : s.disarm.held = s.held := by unfold State.disarm; split <;> rfl
@[simp] theorem disarm_script : s.disarm.script = s.script := by unfold State.disarm; split <;> rfl
@[simp] theorem disarm_hostReads : s.disarm.hostReads = s.hostReads := by unfold State.disarm; split <;> rfl
@[simp] theorem disarm_turns : s.disarm.turns = s.turns := by unfold State.disarm; split <;> rfl
@[simp] theorem disarm_powerLosses : s.disarm.powerLosses = s.powerLosses := by unfold State.disarm; split <;> rfl

/-! `State.passNamed`: the fields it never changes -/

@[simp] theorem passNamed_cfg (u : Turn) : (s.passNamed u).cfg = s.cfg := by unfold State.passNamed; split <;> rfl
@[simp] theorem passNamed_arg (u : Turn) : (s.passNamed u).arg = s.arg := by unfold State.passNamed; split <;> rfl
@[simp] theorem passNamed_result (u : Turn) : (s.passNamed u).result = s.result := by unfold State.passNamed; split <;> rfl
@[simp] theorem passNamed_err (u : Turn) : (s.passNamed u).err = s.err := by unfold State.passNamed; split <;> rfl
@[simp] theorem passNamed_pend (u : Turn) : (s.passNamed u).pend = s.pend := by unfold State.passNamed; split <;> rfl
@[simp] theorem passNamed_serEn (u : Turn) : (s.passNamed u).serEn = s.serEn := by unfold State.passNamed; split <;> rfl
@[simp] theorem passNamed_rate (u : Turn) : (s.passNamed u).rate = s.rate := by unfold State.passNamed; split <;> rfl
@[simp] theorem passNamed_doubleSpeed (u : Turn) : (s.passNamed u).doubleSpeed = s.doubleSpeed := by unfold State.passNamed; split <;> rfl
@[simp] theorem passNamed_rxHead (u : Turn) : (s.passNamed u).rxHead = s.rxHead := by unfold State.passNamed; split <;> rfl
@[simp] theorem passNamed_rxTail (u : Turn) : (s.passNamed u).rxTail = s.rxTail := by unfold State.passNamed; split <;> rfl
@[simp] theorem passNamed_rxMem (u : Turn) : (s.passNamed u).rxMem = s.rxMem := by unfold State.passNamed; split <;> rfl
@[simp] theorem passNamed_txHead (u : Turn) : (s.passNamed u).txHead = s.txHead := by unfold State.passNamed; split <;> rfl
@[simp] theorem passNamed_txTail (u : Turn) : (s.passNamed u).txTail = s.txTail := by unfold State.passNamed; split <;> rfl
@[simp] theorem passNamed_txMem (u : Turn) : (s.passNamed u).txMem = s.txMem := by unfold State.passNamed; split <;> rfl
@[simp] theorem passNamed_txArmed (u : Turn) : (s.passNamed u).txArmed = s.txArmed := by unfold State.passNamed; split <;> rfl
@[simp] theorem passNamed_flow (u : Turn) : (s.passNamed u).flow = s.flow := by unfold State.passNamed; split <;> rfl
@[simp] theorem passNamed_rtsig (u : Turn) : (s.passNamed u).rtsig = s.rtsig := by unfold State.passNamed; split <;> rfl
@[simp] theorem passNamed_nv (u : Turn) : (s.passNamed u).nv = s.nv := by unfold State.passNamed; split <;> rfl
@[simp] theorem passNamed_nvInflight (u : Turn) : (s.passNamed u).nvInflight = s.nvInflight := by unfold State.passNamed; split <;> rfl
@[simp] theorem passNamed_nvmodeLast (u : Turn) : (s.passNamed u).nvmodeLast = s.nvmodeLast := by unfold State.passNamed; split <;> rfl
@[simp] theorem passNamed_nvmodeValid (u : Turn) : (s.passNamed u).nvmodeValid = s.nvmodeValid := by unfold State.passNamed; split <;> rfl
@[simp] theorem passNamed_cnt (u : Turn) : (s.passNamed u).cnt = s.cnt := by unfold State.passNamed; split <;> rfl
@[simp] theorem passNamed_blk (u : Turn) : (s.passNamed u).blk = s.blk := by unfold State.passNamed; split <;> rfl
@[simp] theorem passNamed_abortIn (u : Turn) : (s.passNamed u).abortIn = s.abortIn := by unfold State.passNamed; split <;> rfl
@[simp] theorem passNamed_obs (u : Turn) : (s.passNamed u).obs = s.obs := by unfold State.passNamed; split <;> rfl
@[simp] theorem passNamed_held (u : Turn) : (s.passNamed u).held = s.held := by unfold State.passNamed; split <;> rfl
@[simp] theorem passNamed_hostReads (u : Turn) : (s.passNamed u).hostReads = s.hostReads := by unfold State.passNamed; split <;> rfl
@[simp] theorem passNamed_turns (u : Turn) : (s.passNamed u).turns = s.turns := by unfold State.passNamed; split <;> rfl
@[simp] theorem passNamed_powerLosses (u : Turn) : (s.passNamed u).powerLosses = s.powerLosses := by unfold State.passNamed; split <;> rfl

/-! `State.finishProgramming`: the fields it never changes -/

@[simp] theorem finishProgramming_cfg : s.finishProgramming.cfg = s.cfg := by unfold State.finishProgramming; split <;> rfl
@[simp] theorem finishProgramming_arg : s.finishProgramming.arg = s.arg := by unfold State.finishProgramming; split <;> rfl
@[simp] theorem finishProgramming_result : s.finishProgramming.result = s.result := by unfold State.finishProgramming; split <;> rfl
@[simp] theorem finishProgramming_err : s.finishProgramming.err = s.err := by unfold State.finishProgramming; split <;> rfl
@[simp] theorem finishProgramming_pend : s.finishProgramming.pend = s.pend := by unfold State.finishProgramming; split <;> rfl
@[simp] theorem finishProgramming_serEn : s.finishProgramming.serEn = s.serEn := by unfold State.finishProgramming; split <;> rfl
@[simp] theorem finishProgramming_rate : s.finishProgramming.rate = s.rate := by unfold State.finishProgramming; split <;> rfl
@[simp] theorem finishProgramming_doubleSpeed : s.finishProgramming.doubleSpeed = s.doubleSpeed := by unfold State.finishProgramming; split <;> rfl
@[simp] theorem finishProgramming_rxHead : s.finishProgramming.rxHead = s.rxHead := by unfold State.finishProgramming; split <;> rfl
@[simp] theorem finishProgramming_rxTail : s.finishProgramming.rxTail = s.rxTail := by unfold State.finishProgramming; split <;> rfl
@[simp] theorem finishProgramming_rxMem : s.finishProgramming.rxMem = s.rxMem := by unfold State.finishProgramming; split <;> rfl
@[simp] theorem finishProgramming_txHead : s.finishProgramming.txHead = s.txHead := by unfold State.finishProgramming; split <;> rfl
@[simp] theorem finishProgramming_txTail : s.finishProgramming.txTail = s.txTail := by unfold State.finishProgramming; split <;> rfl
@[simp] theorem finishProgramming_txMem : s.finishProgramming.txMem = s.txMem := by unfold State.finishProgramming; split <;> rfl
@[simp] theorem finishProgramming_txArmed : s.finishProgramming.txArmed = s.txArmed := by unfold State.finishProgramming; split <;> rfl
@[simp] theorem finishProgramming_flow : s.finishProgramming.flow = s.flow := by unfold State.finishProgramming; split <;> rfl
@[simp] theorem finishProgramming_rtsig : s.finishProgramming.rtsig = s.rtsig := by unfold State.finishProgramming; split <;> rfl
@[simp] theorem finishProgramming_nvmodeLast : s.finishProgramming.nvmodeLast = s.nvmodeLast := by unfold State.finishProgramming; split <;> rfl
@[simp] theorem finishProgramming_nvmodeValid : s.finishProgramming.nvmodeValid = s.nvmodeValid := by unfold State.finishProgramming; split <;> rfl
@[simp] theorem finishProgramming_cnt : s.finishProgramming.cnt = s.cnt := by unfold State.finishProgramming; split <;> rfl
@[simp] theorem finishProgramming_blk : s.finishProgramming.blk = s.blk := by unfold State.finishProgramming; split <;> rfl
@[simp] theorem finishProgramming_abortIn : s.finishProgramming.abortIn = s.abortIn := by unfold State.finishProgramming; split <;> rfl
@[simp] theorem finishProgramming_obs : s.finishProgramming.obs = s.obs := by unfold State.finishProgramming; split <;> rfl
@[simp] theorem finishProgramming_held : s.finishProgramming.held = s.held := by unfold State.finishProgramming; split <;> rfl
@[simp] theorem finishProgramming_script : s.finishProgramming.script = s.script := by unfold State.finishProgramming; split <;> rfl
@[simp] theorem finishProgramming_hostReads : s.finishProgramming.hostReads = s.hostReads := by unfold State.finishProgramming; split <;> rfl
@[simp] theorem finishProgramming_turns : s.finishProgramming.turns = s.turns := by unfold State.finishProgramming; split <;> rfl
@[simp] theorem finishProgramming_powerLosses : s.finishProgramming.powerLosses = s.powerLosses := by unfold State.finishProgramming; split <;> rfl

/-! `State.interruptProgramming`: the fields it never changes -/

@[simp] theorem interruptProgramming_cfg : s.interruptProgramming.cfg = s.cfg := by unfold State.interruptProgramming; split <;> rfl
@[simp] theorem interruptProgramming_arg : s.interruptProgramming.arg = s.arg := by unfold State.interruptProgramming; split <;> rfl
@[simp] theorem interruptProgramming_result : s.interruptProgramming.result = s.result := by unfold State.interruptProgramming; split <;> rfl
@[simp] theorem interruptProgramming_err : s.interruptProgramming.err = s.err := by unfold State.interruptProgramming; split <;> rfl
@[simp] theorem interruptProgramming_pend : s.interruptProgramming.pend = s.pend := by unfold State.interruptProgramming; split <;> rfl
@[simp] theorem interruptProgramming_serEn : s.interruptProgramming.serEn = s.serEn := by unfold State.interruptProgramming; split <;> rfl
@[simp] theorem interruptProgramming_rate : s.interruptProgramming.rate = s.rate := by unfold State.interruptProgramming; split <;> rfl
@[simp] theorem interruptProgramming_doubleSpeed : s.interruptProgramming.doubleSpeed = s.doubleSpeed := by unfold State.interruptProgramming; split <;> rfl
@[simp] theorem interruptProgramming_rxHead : s.interruptProgramming.rxHead = s.rxHead := by unfold State.interruptProgramming; split <;> rfl
@[simp] theorem interruptProgramming_rxTail : s.interruptProgramming.rxTail = s.rxTail := by unfold State.interruptProgramming; split <;> rfl
@[simp] theorem interruptProgramming_rxMem : s.interruptProgramming.rxMem = s.rxMem := by unfold State.interruptProgramming; split <;> rfl
@[simp] theorem interruptProgramming_txHead : s.interruptProgramming.txHead = s.txHead := by unfold State.interruptProgramming; split <;> rfl
@[simp] theorem interruptProgramming_txTail : s.interruptProgramming.txTail = s.txTail := by unfold State.interruptProgramming; split <;> rfl
@[simp] theorem interruptProgramming_txMem : s.interruptProgramming.txMem = s.txMem := by unfold State.interruptProgramming; split <;> rfl
@[simp] theorem interruptProgramming_txArmed : s.interruptProgramming.txArmed = s.txArmed := by unfold State.interruptProgramming; split <;> rfl
@[simp] theorem interruptProgramming_flow : s.interruptProgramming.flow = s.flow := by unfold State.interruptProgramming; split <;> rfl
@[simp] theorem interruptProgramming_rtsig : s.interruptProgramming.rtsig = s.rtsig := by unfold State.interruptProgramming; split <;> rfl
@[simp] theorem interruptProgramming_nvmodeLast : s.interruptProgramming.nvmodeLast = s.nvmodeLast := by unfold State.interruptProgramming; split <;> rfl
@[simp] theorem interruptProgramming_nvmodeValid : s.interruptProgramming.nvmodeValid = s.nvmodeValid := by unfold State.interruptProgramming; split <;> rfl
@[simp] theorem interruptProgramming_cnt : s.interruptProgramming.cnt = s.cnt := by unfold State.interruptProgramming; split <;> rfl
@[simp] theorem interruptProgramming_blk : s.interruptProgramming.blk = s.blk := by unfold State.interruptProgramming; split <;> rfl
@[simp] theorem interruptProgramming_abortIn : s.interruptProgramming.abortIn = s.abortIn := by unfold State.interruptProgramming; split <;> rfl
@[simp] theorem interruptProgramming_obs : s.interruptProgramming.obs = s.obs := by unfold State.interruptProgramming; split <;> rfl
@[simp] theorem interruptProgramming_held : s.interruptProgramming.held = s.held := by unfold State.interruptProgramming; split <;> rfl
@[simp] theorem interruptProgramming_script : s.interruptProgramming.script = s.script := by unfold State.interruptProgramming; split <;> rfl
@[simp] theorem interruptProgramming_hostReads : s.interruptProgramming.hostReads = s.hostReads := by unfold State.interruptProgramming; split <;> rfl
@[simp] theorem interruptProgramming_turns : s.interruptProgramming.turns = s.turns := by unfold State.interruptProgramming; split <;> rfl
@[simp] theorem interruptProgramming_powerLosses : s.interruptProgramming.powerLosses = s.powerLosses := by unfold State.interruptProgramming; split <;> rfl

end Sys2Proof.Machine
end

