-- ==== Sys2Proof/Laws/Ops.lean ====
section
/-! SUPPORT. One spec lemma per shared operation: everything it can do. The fields an operation never changes are in
Laws/State.lean. -/

namespace Sys2Proof.Machine

variable {s : State}

/-! The flow-control checks (R115, R133, R137) -/

theorem checkXoff_of_high (hf : s.cfg.flowControl = true) (hx : s.flow = .xonAsserted) (ho : s.cfg.highWm ≤ s.rxOcc) :
    s.checkXoff = s.scheduleFlow .xoffPending := if_pos ⟨hf, hx, ho⟩

theorem checkXoff_of_not (h : ¬ (s.cfg.flowControl = true ∧ s.flow = .xonAsserted ∧ s.cfg.highWm ≤ s.rxOcc)) :
    s.checkXoff = s := if_neg h

theorem checkXon_of_low (hf : s.cfg.flowControl = true) (hx : s.flow = .xoffAsserted) (ho : s.rxOcc < s.cfg.lowWm) :
    s.checkXon = s.scheduleFlow .xonPending := if_pos ⟨hf, hx, ho⟩

theorem checkXon_of_not (h : ¬ (s.cfg.flowControl = true ∧ s.flow = .xoffAsserted ∧ s.rxOcc < s.cfg.lowWm)) :
    s.checkXon = s := if_neg h

theorem disarm_of_drained (he : s.txHead = s.txTail) (hf : s.flowPending = false) :
    s.disarm = { s with txArmed := false } := if_pos ⟨he, hf⟩

theorem disarm_of_payload (he : s.txHead ≠ s.txTail) : s.disarm = s := if_neg fun h => he h.1

theorem disarm_of_flowPending (hf : s.flowPending = true) : s.disarm = s := if_neg fun h => by simp [hf] at h

/-- Arming after the disarm check: payload or a flow byte is left. -/
theorem disarm_txArmed : s.disarm.txArmed = (s.txArmed && (s.flowPending || s.txHead != s.txTail)) := by
  unfold State.disarm
  split_ifs with h
  · simp [h.1, h.2]
  · cases hp : s.flowPending <;> simp_all

@[simp] theorem flowPending_eq (f : Flow) : ({ s with flow := f } : State).flowPending = (s.cfg.flowControl && f.pending) := rfl

/-! Programming (R164 to R166, R233) -/

@[simp] theorem nvIdle_iff : s.nvIdle = true ↔ s.nvInflight = none := by simp [State.nvIdle]

@[simp] theorem nvIdle_false_iff : s.nvIdle = false ↔ s.nvInflight ≠ none := by
  cases h : s.nvInflight <;> simp [State.nvIdle, h]

@[simp] theorem nvLegal_iff (a : Nat) : s.nvLegal a = true ↔ a < s.cfg.nvSize := by simp [State.nvLegal]

@[simp] theorem nvLegal_false_iff (a : Nat) : s.nvLegal a = false ↔ s.cfg.nvSize ≤ a := by simp [State.nvLegal]

/-- No command changes a cell by itself: `writeByte` only issues. -/
@[simp] theorem nvByte_writeByte (a c : Nat) (v : Byte) : (s.writeByte a v).nvByte c = s.nvByte c := rfl

theorem finishProgramming_of_idle (h : s.nvInflight = none) : s.finishProgramming = s := by
  simp [State.finishProgramming, h]

/-- The one cell a completed operation changes. -/
theorem finishProgramming_of_inflight {f : InFlight} (h : s.nvInflight = some f) :
    s.finishProgramming = { s with
      nv := s.nv.write f.addr.toNat (programmed f.mode (s.nvByte f.addr.toNat) f.value), nvInflight := none } := by
  simp [State.finishProgramming, h]

@[simp] theorem finishProgramming_nvInflight : s.finishProgramming.nvInflight = none := by
  unfold State.finishProgramming; split <;> simp_all

@[simp] theorem interruptProgramming_nvInflight : s.interruptProgramming.nvInflight = none := by
  unfold State.interruptProgramming; split <;> simp_all

/-- Reading a cell after one cell was written. -/
theorem nvByte_write (t : State) (a c : Nat) (v : Byte) (i : Option InFlight) :
    ({ t with nv := t.nv.write a v, nvInflight := i } : State).nvByte c = if c = a then v else t.nvByte c := by
  unfold State.nvByte
  simp only [Memory.read_write]
  split_ifs <;> rfl

theorem blockError_eq_none {a len : Nat} :
    s.blockError a len = none ↔ len ≤ s.cfg.blockMax ∧ a + len < s.cfg.nvSize := by
  unfold State.blockError; split_ifs <;> simp <;> omega

theorem blockError_len {a len : Nat} (h : s.cfg.blockMax < len) : s.blockError a len = some .len := if_pos h

theorem blockError_addr {a len : Nat} (h : len ≤ s.cfg.blockMax) (h' : s.cfg.nvSize ≤ a + len) :
    s.blockError a len = some .addr := by
  unfold State.blockError; rw [if_neg (by omega), if_pos h']

theorem blkWritten_iff {len : Nat} : s.blkWritten len = true ↔ ∀ j < len, (s.blkByte j).isSome = true := by
  simp [State.blkWritten]

@[simp] theorem length_nvBytes (a len : Nat) : (s.nvBytes a len).length = len := by simp [State.nvBytes]

/-! Operands (R91) -/

theorem command_of_pending {p : Pend} (h : s.pend = some p) (i : Instr) : s.command i = p := by simp [State.command, h]

/-- `len` is the low half of `ARG`. -/
theorem len_eq (p : Pend) : p.len = p.arg.toNat % 65536 := by simp [Pend.len, BitVec.extractLsb'_toNat]

/-- The checksum of one more byte (R7). -/
theorem csum_append (bs : List Byte) (b : Byte) : csum (bs ++ [b]) = csumStep (csum bs) b := by simp [csum]

/-! Reset and power loss (R230 to R233) -/

/-- A reset leaves the cells as the NVE step would. -/
@[simp] theorem nvByte_resetStep (a : Nat) : (resetStep s).nvByte a = s.finishProgramming.nvByte a := by
  unfold resetStep State.nvByte State.finishProgramming
  simp only [emit_nvInflight]
  split <;> simp_all [State.nvByte]

/-- A power loss leaves the cells as the interruption does. -/
@[simp] theorem nvByte_powerLossStep (a : Nat) : (powerLossStep s).nvByte a = s.interruptProgramming.nvByte a := by
  unfold powerLossStep State.nvByte State.interruptProgramming
  simp only [emit_nvInflight]
  split <;> simp_all

end Sys2Proof.Machine
end

