-- ==== Sys2Proof/Laws/Commands.lean ====
section
/-! SUPPORT. One inversion lemma per command whose CE step has more than one outcome: if it answers a next state, which one
and why. The commands with one outcome are equations (`execNop`, `execSerResetRx`, `execRtsigClear`). -/

namespace Sys2Proof.Machine

variable {s t : State}

/-- R113 -/
theorem execSerInit_cases (h : execSerInit s = .next t) :
    t = s.raiseErr .arg ∨
    ∃ d, t = ({ s with rate := (s.command .serInit).rate, doubleSpeed := d, serEn := true } : State).complete 0 .ok := by
  unfold execSerInit at h
  dsimp only at h
  split_ifs at h
  · exact .inl (Host.Outcome.next.inj h).symm
  · exact .inr ⟨_, (Host.Outcome.next.inj h).symm⟩

/-- R114 -/
theorem execSerWrite_cases {b : Byte} (h : execSerWrite b s = .next t) :
    (s.txFull = false ∧ t = ({ s.txPush b with txArmed := true } : State).complete 0 .ok) ∨
    (s.txFull = true ∧ s.abortIn = true ∧ t = s.complete resultNotSent .ok) ∨
    (s.txFull = true ∧ s.abortIn = false ∧ t = s) := by
  unfold execSerWrite at h
  split_ifs at h with h1 h2
  · exact .inl ⟨h1, (Host.Outcome.next.inj h).symm⟩
  · exact .inr (.inl ⟨by simpa using h1, h2, (Host.Outcome.next.inj h).symm⟩)
  · exact .inr (.inr ⟨by simpa using h1, by simpa using h2, (Host.Outcome.next.inj h).symm⟩)

/-- R115 -/
theorem execSerRead_cases (h : execSerRead s = .next t) :
    (s.rxHead = s.rxTail ∧ t = s.complete resultNone .ok) ∨
    (s.rxHead ≠ s.rxTail ∧ t = s.rxPop.checkXon.complete (resultData s.rxFront) .ok) := by
  unfold execSerRead at h
  split_ifs at h with h1
  · exact .inl ⟨by simpa [State.rxEmpty] using h1, (Host.Outcome.next.inj h).symm⟩
  · exact .inr ⟨by simpa [State.rxEmpty] using h1, (Host.Outcome.next.inj h).symm⟩

/-- R161 -/
theorem execNvRead_cases {a : Addr} (h : execNvRead a s = .next t) :
    (s.cfg.nvSize ≤ a.toNat ∧ t = s.raiseErr .addr) ∨
    (a.toNat < s.cfg.nvSize ∧ s.nvInflight = none ∧ t = s.complete (resultData (s.nvByte a.toNat)) .ok) ∨
    (a.toNat < s.cfg.nvSize ∧ s.nvInflight ≠ none ∧ t = s) := by
  unfold execNvRead at h
  split_ifs at h with h1 h2
  · exact .inl ⟨by simpa using h1, (Host.Outcome.next.inj h).symm⟩
  · exact .inr (.inl ⟨by simpa using h1, by simpa using h2, (Host.Outcome.next.inj h).symm⟩)
  · exact .inr (.inr ⟨by simpa using h1, by simpa using h2, (Host.Outcome.next.inj h).symm⟩)

/-- R165 -/
theorem execNvWrite_cases {a : Addr} {v : Byte} (h : execNvWrite a v s = .next t) :
    (s.cfg.nvSize ≤ a.toNat ∧ t = s.raiseErr .addr) ∨
    (a.toNat < s.cfg.nvSize ∧ s.nvInflight = none ∧ t = (s.writeByte a.toNat v).complete 0 .ok) ∨
    (a.toNat < s.cfg.nvSize ∧ s.nvInflight ≠ none ∧ t = s) := by
  unfold execNvWrite at h
  split_ifs at h with h1 h2
  · exact .inl ⟨by simpa using h1, (Host.Outcome.next.inj h).symm⟩
  · exact .inr (.inl ⟨by simpa using h1, by simpa using h2, (Host.Outcome.next.inj h).symm⟩)
  · exact .inr (.inr ⟨by simpa using h1, by simpa using h2, (Host.Outcome.next.inj h).symm⟩)

/-- R169 to R171, with the record the step works on named. -/
theorem execNvWriteBlock_cases {a : Addr} {p : Pend} (hp : s.command (.nvWriteBlock a) = p)
    (h : execNvWriteBlock a s = .next t) :
    (∃ e, s.writeBlockError a.toNat p = some e ∧ t = s.raiseErr e) ∨
    (s.writeBlockError a.toNat p = none ∧ s.nvInflight ≠ none ∧ t = s) ∨
    (s.writeBlockError a.toNat p = none ∧ s.nvInflight = none ∧ (p.i = 0 → s.blkWritten p.len = true) ∧
      ((p.i.toNat < p.len ∧ ∃ b, s.blkByte p.i.toNat = some b ∧
          t = { s.writeByte (a.toNat + p.i.toNat) b with
                pend := some { p with i := p.i + 1, acc := csumStep p.acc b } }) ∨
        (p.len ≤ p.i.toNat ∧ t = s.blockFinalStep a.toNat p))) := by
  unfold execNvWriteBlock at h
  simp only [hp] at h
  split at h
  · rename_i e he
    exact .inl ⟨e, he, (Host.Outcome.next.inj h).symm⟩
  · rename_i he
    split_ifs at h with h1 h2 h3
    · exact .inr (.inl ⟨he, by simpa using h1, (Host.Outcome.next.inj h).symm⟩)
    · refine .inr (.inr ⟨he, by simpa using h1, fun hi => by simpa [hi] using h2, .inl ⟨h3, ?_⟩⟩)
      unfold State.blockPayloadStep at h
      split at h
      · cases h
      · rename_i b hb
        exact ⟨b, hb, (Host.Outcome.next.inj h).symm⟩
    · exact .inr (.inr ⟨he, by simpa using h1, fun hi => by simpa [hi] using h2,
        .inr ⟨Nat.le_of_not_lt h3, (Host.Outcome.next.inj h).symm⟩⟩)

/-- R172, with the record the step works on named. -/
theorem execNvReadBlock_cases {a : Addr} {p : Pend} (hp : s.command (.nvReadBlock a) = p)
    (h : execNvReadBlock a s = .next t) :
    (∃ e, s.blockError a.toNat p.len = some e ∧ t = s.raiseErr e) ∨
    (s.blockError a.toNat p.len = none ∧ s.nvInflight ≠ none ∧ t = s) ∨
    (s.blockError a.toNat p.len = none ∧ s.nvInflight = none ∧
      t = ({ s with blk := s.blk.writeFrom 0 (s.nvBytes a.toNat p.len) } : State).complete
        (resultBlock (csum (s.nvBytes a.toNat p.len)) (s.nvByte (a.toNat + p.len))) .ok) := by
  unfold execNvReadBlock at h
  simp only [hp] at h
  split at h
  · rename_i e he
    exact .inl ⟨e, he, (Host.Outcome.next.inj h).symm⟩
  · rename_i he
    split_ifs at h with h1
    · exact .inr (.inl ⟨he, by simpa using h1, (Host.Outcome.next.inj h).symm⟩)
    · exact .inr (.inr ⟨he, by simpa using h1, (Host.Outcome.next.inj h).symm⟩)

/-- R167 -/
theorem execBufPut_cases {j : Addr} {v : Byte} (h : execBufPut j v s = .next t) :
    (s.cfg.blockMax ≤ j.toNat ∧ t = s.raiseErr .addr) ∨
    (j.toNat < s.cfg.blockMax ∧ t = ({ s with blk := s.blk.write j.toNat v } : State).complete 0 .ok) := by
  unfold execBufPut at h
  split_ifs at h with h1
  · exact .inl ⟨h1, (Host.Outcome.next.inj h).symm⟩
  · exact .inr ⟨Nat.lt_of_not_le h1, (Host.Outcome.next.inj h).symm⟩

/-- R168 -/
theorem execBufGet_cases {j : Addr} (h : execBufGet j s = .next t) :
    (s.cfg.blockMax ≤ j.toNat ∧ t = s.raiseErr .addr) ∨
    (j.toNat < s.cfg.blockMax ∧ ∃ b, s.blkByte j.toNat = some b ∧ t = s.complete (resultData b) .ok) := by
  unfold execBufGet at h
  split_ifs at h with h1
  · exact .inl ⟨h1, (Host.Outcome.next.inj h).symm⟩
  · refine .inr ⟨Nat.lt_of_not_le h1, ?_⟩
    split at h
    · cases h
    · rename_i b hb
      exact ⟨b, hb, (Host.Outcome.next.inj h).symm⟩

/-- What a CE step can be: nothing pending, an illegal command's error, or the meaning of the command pending (R92, R93). -/
theorem ceStep_cases (h : ceStep s = .next t) :
    (s.pend = none ∧ t = s) ∨
    (∃ p e, s.pend = some p ∧ decode p.word = .error e ∧ t = s.raiseErr .opcode) ∨
    (∃ p i, s.pend = some p ∧ decode p.word = .ok i ∧ exec i s = .next t) := by
  unfold ceStep State.pendingCommand at h
  cases hp : s.pend with
  | none => rw [hp] at h; exact .inl ⟨rfl, (Host.Outcome.next.inj h).symm⟩
  | some p =>
    rw [hp] at h
    cases hd : decode p.word with
    | error e =>
      simp only [Option.map_some, hd] at h
      exact .inr (.inl ⟨p, e, rfl, hd, (Host.Outcome.next.inj h).symm⟩)
    | ok i =>
      simp only [Option.map_some, hd] at h
      exact .inr (.inr ⟨p, i, rfl, hd, h⟩)

/-- What a HOST step can be: a held write waits or is accepted; with nothing to do nothing happens; else one access (R26,
R67, R68). -/
theorem hostStep_cases (h : hostStep s = .next t) :
    (t = s) ∨
    (∃ w, s.held = some w ∧ s.pend = none ∧ t = { s.accept w with held := none }) ∨
    (∃ o w, t = s.advanceHost.returnRead o w) ∨ (∃ o w, t = s.returnRead o w) ∨
    (∃ r w, s.held = none ∧ t = s.advanceHost.writeReg r w) := by
  unfold hostStep at h
  split at h
  · rename_i w hw
    split_ifs at h with hp
    · exact .inr (.inl ⟨w, hw, by simpa using hp, (Host.Outcome.next.inj h).symm⟩)
    · exact .inl (Host.Outcome.next.inj h).symm
  · rename_i hn
    split at h
    · exact .inl (Host.Outcome.next.inj h).symm
    · rename_i op ops ho
      cases op with
      | read w o =>
        simp only [State.busAccess] at h
        split at h
        · cases h
        · exact .inr (.inr (.inl ⟨_, _, (Host.Outcome.next.inj h).symm⟩))
      | write w o v =>
        simp only [State.busAccess] at h
        split at h
        · cases h
        · exact .inr (.inr (.inr (.inr ⟨_, _, hn, (Host.Outcome.next.inj h).symm⟩)))
      | poll o m v =>
        simp only [State.busAccess] at h
        split at h
        · cases h
        · split_ifs at h
          · exact .inr (.inr (.inl ⟨_, _, (Host.Outcome.next.inj h).symm⟩))
          · exact .inr (.inr (.inr (.inl ⟨_, _, (Host.Outcome.next.inj h).symm⟩)))
    · exact .inl (Host.Outcome.next.inj h).symm

/-- What a write to a register can be (R26, R68). -/
theorem writeReg_cases (r : Reg) (w : Word) :
    s.writeReg r w = s ∨ s.writeReg r w = { s with arg := w } ∨
    (s.pend = none ∧ s.writeReg r w = s.accept w) ∨ (s.pend ≠ none ∧ s.writeReg r w = { s with held := some w }) := by
  cases r with
  | cmd =>
    cases hp : s.pend with
    | none => exact .inr (.inr (.inl ⟨rfl, by simp [State.writeReg, State.writeCmd, hp]⟩))
    | some p => exact .inr (.inr (.inr ⟨by simp, by simp [State.writeReg, State.writeCmd, hp]⟩))
  | arg => exact .inr (.inl rfl)
  | _ => exact .inl rfl

/-- A turn changes the script only where it executes the statement that names it, which no HOST turn does (R96). -/
theorem passNamed_eq (s : State) (u : Turn) :
    ∃ rest, s.passNamed u = { s with script := rest } ∧ (rest = s.script ∨ u ≠ .host ∧ s.script = .named u :: rest) := by
  unfold State.passNamed
  split_ifs with h
  · obtain ⟨-, hu, hs⟩ := h
    refine ⟨s.script.tail, rfl, .inr ⟨hu, ?_⟩⟩
    cases hc : s.script <;> simp_all
  · exact ⟨s.script, rfl, .inl rfl⟩

@[simp] theorem passNamed_host (s : State) : s.passNamed .host = s := if_neg fun h => h.2.1 rfl

/-- A script at its end stays there. -/
theorem passNamed_of_nil (u : Turn) (h : s.script = []) : s.passNamed u = s := if_neg fun h' => by simp [h] at h'

/-- What a step can be: nothing with no turn given, else the step of the agent whose turn it is, with the script at its
statement or past it, on a well-formed configuration. -/
theorem step_cases (h : step s = .next t) :
    s.cfg.Wf ∧ ((s.turns = [] ∧ t = s) ∨
      ∃ u ts rest, s.turns = u :: ts ∧ (rest = s.script ∨ u ≠ .host ∧ s.script = .named u :: rest) ∧
        agentStep u { s with turns := ts, script := rest } = .next t) := by
  unfold step at h
  split_ifs at h with hw
  refine ⟨hw, ?_⟩
  split at h
  · rename_i ht; exact .inl ⟨ht, (Host.Outcome.next.inj h).symm⟩
  · rename_i u ts ht
    obtain ⟨rest, he, hr⟩ := passNamed_eq { s with turns := ts } u
    exact .inr ⟨u, ts, rest, ht, hr, by rw [← h, turnStep, he]⟩

/-! The stops (R203) -/

/-- The offsets of the window are the word boundaries in 0x00 to 0x3C (R25). -/
theorem regAt_eq_none {o : Nat} : regAt o = none ↔ ¬ (o % 4 = 0 ∧ o ≤ 0x3C) := by
  constructor
  · rintro h ⟨ha, hb⟩
    have : ∀ o ≤ 0x3C, o % 4 = 0 → regAt o ≠ none := by decide
    exact this o hb ha h
  · intro h
    unfold regAt
    split <;> first | rfl | (exfalso; exact h (by decide))

/-- Which accesses reach no register (R67). -/
theorem regFor_eq_none {w o : Nat} : regFor w o = none ↔ ¬ (w = 32 ∧ o % 4 = 0 ∧ o ≤ 0x3C) := by
  unfold regFor
  split_ifs with hw
  · simp [hw, regAt_eq_none]
  · simp [hw]

/-- The commands that can fault, and on what (R168, R169). -/
theorem exec_fault {i : Instr} {f : Fault} (h : exec i s = .fault f) :
    f = .unwrittenBlk ∧
      ((∃ j, i = .bufGet j ∧ j.toNat < s.cfg.blockMax ∧ s.blkByte j.toNat = none) ∨
       (∃ a, i = .nvWriteBlock a ∧ s.nvInflight = none ∧ ∃ j < (s.command i).len, s.blkByte j = none)) := by
  cases i <;> simp only [exec] at h
  case nop => cases h
  case serInit => unfold execSerInit at h; dsimp only at h; split_ifs at h
  case serWrite => unfold execSerWrite at h; split_ifs at h
  case serRead => unfold execSerRead at h; split_ifs at h
  case serResetRx => cases h
  case rtsigClear => cases h
  case nvRead => unfold execNvRead at h; split_ifs at h
  case nvWrite => unfold execNvWrite at h; split_ifs at h
  case nvReadBlock => unfold execNvReadBlock at h; dsimp only at h; split at h; cases h; split_ifs at h
  case bufPut => unfold execBufPut at h; split_ifs at h
  case bufGet j =>
    unfold execBufGet at h
    split_ifs at h with h1
    split at h <;> cases h
    rename_i hn
    exact ⟨rfl, .inl ⟨j, rfl, Nat.lt_of_not_le h1, hn⟩⟩
  case nvWriteBlock a =>
    unfold execNvWriteBlock at h
    dsimp only at h
    split at h
    · cases h
    · split_ifs at h with h1 h2 h3
      · cases h
        obtain ⟨j, hj, hn⟩ : ∃ j < (s.command (.nvWriteBlock a)).len, ¬ (s.blkByte j).isSome = true := by
          simpa [State.blkWritten] using h2.2
        exact ⟨rfl, .inr ⟨a, rfl, by simpa using h1, j, hj, by simpa using hn⟩⟩
      · unfold State.blockPayloadStep at h
        split at h <;> cases h
        rename_i hn
        exact ⟨rfl, .inr ⟨a, rfl, by simpa using h1, _, h3, hn⟩⟩

/-- No command is refused. -/
theorem exec_ne_refused (i : Instr) (s : State) (r : Refusal) : exec i s ≠ .refused r := by
  intro h
  cases i <;> simp only [exec] at h
  case nop => cases h
  case serInit => unfold execSerInit at h; dsimp only at h; split_ifs at h
  case serWrite => unfold execSerWrite at h; split_ifs at h
  case serRead => unfold execSerRead at h; split_ifs at h
  case serResetRx => cases h
  case rtsigClear => cases h
  case nvRead => unfold execNvRead at h; split_ifs at h
  case nvWrite => unfold execNvWrite at h; split_ifs at h
  case nvReadBlock => unfold execNvReadBlock at h; dsimp only at h; split at h; cases h; split_ifs at h
  case bufPut => unfold execBufPut at h; split_ifs at h
  case bufGet j =>
    unfold execBufGet at h
    split_ifs at h
    split at h <;> cases h
  case nvWriteBlock a =>
    unfold execNvWriteBlock at h
    dsimp only at h
    split at h
    · cases h
    · split_ifs at h
      unfold State.blockPayloadStep at h
      split at h <;> cases h

end Sys2Proof.Machine
end

