-- ==== Sys2Proof/Laws/Encoding.lean ====
section
/-! SUPPORT. The fields of command words: packing and taking apart are inverse (30_encoding.md R90, R97). -/

namespace Sys2Proof

@[simp] theorem opField_packWord (a : Addr) (d o : Byte) : opField (packWord a d o) = o := by
  apply BitVec.eq_of_getLsbD_eq
  intro i hi
  have h1 : ¬ 16 ≤ i := by omega
  simp [opField, packWord, hi, h1, show i < 32 by omega]

@[simp] theorem dataField_packWord (a : Addr) (d o : Byte) : dataField (packWord a d o) = d := by
  apply BitVec.eq_of_getLsbD_eq
  intro i hi
  have h1 : 8 + i < 16 := by omega
  simp [dataField, packWord, hi, h1, show 8 + i < 32 by omega]

@[simp] theorem addrField_packWord (a : Addr) (d o : Byte) : addrField (packWord a d o) = a := by
  apply BitVec.eq_of_getLsbD_eq
  intro i hi
  simp [addrField, packWord, hi, show 16 + i < 32 by omega, BitVec.getLsbD_of_ge o (16 + i) (by omega),
    BitVec.getLsbD_of_ge d (16 + i - 8) (by omega)]

/-- A word is packed from its three fields. -/
theorem packWord_fields (w : Word) : packWord (addrField w) (dataField w) (opField w) = w := by
  apply BitVec.eq_of_getLsbD_eq
  intro i hi
  simp only [packWord, opField, dataField, addrField, BitVec.getLsbD_or, BitVec.getLsbD_shiftLeft,
    BitVec.getLsbD_setWidth, BitVec.getLsbD_extractLsb']
  rcases Nat.lt_or_ge i 8 with h | h
  · simp [h, hi, show i < 16 by omega]
  · rcases Nat.lt_or_ge i 16 with h' | h'
    · simp [hi, h', show ¬ i < 8 by omega, show 8 + (i - 8) = i by omega, show i - 8 < 8 by omega,
        show i - 8 < 32 by omega]
    · simp [hi, show ¬ i < 8 by omega, show ¬ i < 16 by omega, show ¬ i - 8 < 8 by omega,
        show 16 + (i - 16) = i by omega, show i - 16 < 16 by omega, show i - 16 < 32 by omega]

/-- Decoding a packed word reads its fields back. -/
@[simp] theorem decode_packWord (a : Addr) (d o : Byte) : decode (packWord a d o) = decodeFields a d o := by
  simp [decode]

/-- A command's word has the `OP` of the word it was decoded from (R92). -/
theorem opField_of_decode {w : Word} {i : Instr} (h : decode w = .ok i) : opField w = opField (encode i) := by
  unfold decode decodeFields at h
  split at h <;> cases h <;> (rename_i ho; rw [encode, opField_packWord]; exact BitVec.eq_of_toNat_eq ho)

namespace Machine

/-- The record of an accepted word gives the word back. -/
@[simp] theorem word_acceptedCommand (w arg : Word) : (acceptedCommand w arg).word = w := packWord_fields w

end Machine

end Sys2Proof
end

