-- ==== Sys2Proof/Laws/Ring.lean ====
section
/-! SUPPORT. The arithmetic of ring indices (00_scope.md R7, 20_memory.md R61) on indices within a capacity. -/

namespace Sys2Proof.Machine

/-- Occupancy without a remainder, for indices in range. -/
theorem occ_eq {h t : Byte} {cap : Nat} (hh : h.toNat < cap) (ht : t.toNat < cap) :
    occ h t cap = if t.toNat ≤ h.toNat then h.toNat - t.toNat else h.toNat + cap - t.toNat := by
  unfold occ
  split_ifs with hle
  · rw [Int.emod_eq_of_lt (by omega) (by omega)]; omega
  · have : ((h.toNat : Int) - t.toNat) % cap = (h.toNat : Int) - t.toNat + cap := by
      rw [← Int.add_emod_right, Int.emod_eq_of_lt (by omega) (by omega)]
    rw [this]; omega

/-- An index advanced, without a remainder, for an index in range. -/
theorem inc_toNat {i : Byte} {cap : Nat} (hi : i.toNat < cap) (hc : cap ≤ 256) :
    (inc i cap).toNat = if i.toNat + 1 = cap then 0 else i.toNat + 1 := by
  unfold inc
  split_ifs with h
  · simp [h]
  · rw [Nat.mod_eq_of_lt (by omega), BitVec.toNat_ofNat, Nat.mod_eq_of_lt (by omega)]

theorem inc_lt {i : Byte} {cap : Nat} (hi : i.toNat < cap) (hc : cap ≤ 256) : (inc i cap).toNat < cap := by
  rw [inc_toNat hi hc]; split_ifs <;> omega

theorem occ_lt {h t : Byte} {cap : Nat} (hh : h.toNat < cap) (ht : t.toNat < cap) : occ h t cap < cap := by
  rw [occ_eq hh ht]; split_ifs <;> omega

@[simp] theorem occ_self (h : Byte) (cap : Nat) : occ h h cap = 0 := by simp [occ]

theorem occ_eq_zero {h t : Byte} {cap : Nat} (hh : h.toNat < cap) (ht : t.toNat < cap) :
    occ h t cap = 0 ↔ h = t := by
  rw [occ_eq hh ht, ← BitVec.toNat_inj]; split_ifs <;> omega

/-- A ring that is not full gains one byte when its head advances. -/
theorem occ_inc_head {h t : Byte} {cap : Nat} (hh : h.toNat < cap) (ht : t.toNat < cap) (hc : cap ≤ 256)
    (hfull : inc h cap ≠ t) : occ (inc h cap) t cap = occ h t cap + 1 := by
  have hne : (inc h cap).toNat ≠ t.toNat := fun e => hfull (BitVec.eq_of_toNat_eq e)
  rw [occ_eq (inc_lt hh hc) ht, occ_eq hh ht]
  rw [inc_toNat hh hc] at *
  split_ifs at * <;> omega

/-- A ring that is not empty loses one byte when its tail advances. -/
theorem occ_inc_tail {h t : Byte} {cap : Nat} (hh : h.toNat < cap) (ht : t.toNat < cap) (hc : cap ≤ 256)
    (hne : h ≠ t) : occ h t cap = occ h (inc t cap) cap + 1 := by
  have hne' : h.toNat ≠ t.toNat := fun e => hne (BitVec.eq_of_toNat_eq e)
  rw [occ_eq hh (inc_lt ht hc), occ_eq hh ht]
  rw [inc_toNat ht hc]
  split_ifs <;> omega

/-- The slot the `k`-th byte from the tail stands in, without a remainder. -/
theorem slot_eq {t : Byte} {cap k : Nat} (ht : t.toNat < cap) (hk : k < cap) :
    (t.toNat + k) % cap = if t.toNat + k < cap then t.toNat + k else t.toNat + k - cap := by
  split_ifs with h
  · exact Nat.mod_eq_of_lt h
  · rw [Nat.mod_eq_sub_mod (by omega), Nat.mod_eq_of_lt (by omega)]

/-- Counting from an advanced tail is counting one further from the old one. -/
theorem slot_inc {t : Byte} {cap : Nat} (k : Nat) (ht : t.toNat < cap) (hc : cap ≤ 256) :
    ((inc t cap).toNat + k) % cap = (t.toNat + (k + 1)) % cap := by
  rw [inc_toNat ht hc]
  split_ifs with h
  · rw [show t.toNat + (k + 1) = k + cap by omega, Nat.add_mod_right, Nat.zero_add]
  · rw [show t.toNat + 1 + k = t.toNat + (k + 1) by omega]

/-- The slot after the last byte held is the head's. -/
theorem slot_occ {h t : Byte} {cap : Nat} (hh : h.toNat < cap) (ht : t.toNat < cap) :
    (t.toNat + occ h t cap) % cap = h.toNat := by
  rw [slot_eq ht (occ_lt hh ht), occ_eq hh ht]
  split_ifs <;> omega

/-- A byte held does not stand in the head's slot. -/
theorem slot_ne_head {h t : Byte} {cap k : Nat} (hh : h.toNat < cap) (ht : t.toNat < cap)
    (hk : k < occ h t cap) : (t.toNat + k) % cap ≠ h.toNat := by
  have hlt := occ_lt hh ht
  rw [slot_eq ht (hk.trans hlt)]
  rw [occ_eq hh ht] at hk
  split_ifs at * <;> omega

end Sys2Proof.Machine
end

