-- ==== Sys2Proof/Laws/Invariants.lean ====
section
/-! SUPPORT. What the invariants and the ring contents of Safety.lean depend on, and what one push or pop does to them. -/

namespace Sys2Proof.Safety

open Sys2Proof.Machine

variable {s t : State} {b : Byte}

/-! Dependence on fields -/

/-- The ranges a well-formed configuration gives the rings (R4). -/
theorem caps_of_wf {c : Config} (h : c.Wf) :
    (2 ≤ c.rxCap ∧ c.rxCap ≤ 256) ∧ (2 ≤ c.txCap ∧ c.txCap ≤ 256) ∧ 1 ≤ c.lowWm ∧ c.lowWm ≤ c.highWm ∧
      c.highWm ≤ c.rxCap - 1 :=
  ⟨h.1.1, h.1.2.1, h.2.1⟩

/-- `RegistersOk` reads seven fields. -/
theorem registersOk_congr (h : RegistersOk s) (hc : t.cfg = s.cfg) (h1 : t.rxHead = s.rxHead) (h2 : t.rxTail = s.rxTail)
    (h3 : t.txHead = s.txHead) (h4 : t.txTail = s.txTail) (h5 : t.flow = s.flow) (h6 : t.txArmed = s.txArmed) :
    RegistersOk t := by
  obtain ⟨a, b, c, d, e, f, g, i, j⟩ := h
  constructor <;> simp only [hc, h1, h2, h3, h4, h5, h6, State.rxOcc] <;> assumption

/-- What is read of RX depends on five fields. -/
theorem rx_congr (hc : t.cfg = s.cfg) (h1 : t.rxHead = s.rxHead) (h2 : t.rxTail = s.rxTail) (h3 : t.rxMem = s.rxMem)
    (h4 : t.powerLosses = s.powerLosses) :
    rxContents t = rxContents s ∧ t.rxOcc = s.rxOcc ∧
      ∀ k, t.rxMem.read (rxUnread t k) = s.rxMem.read (rxUnread s k) := by
  simp [rxContents, State.rxOcc, rxUnread, State.rxSlot, hc, h1, h2, h3, h4]

/-- What is read of TX depends on five fields. -/
theorem tx_congr (hc : t.cfg = s.cfg) (h1 : t.txHead = s.txHead) (h2 : t.txTail = s.txTail) (h3 : t.txMem = s.txMem)
    (h4 : t.powerLosses = s.powerLosses) :
    txContents t = txContents s ∧ t.txOcc = s.txOcc ∧
      ∀ k, t.txMem.read (txUnsent t k) = s.txMem.read (txUnsent s k) := by
  simp [txContents, State.txOcc, txUnsent, State.txSlot, hc, h1, h2, h3, h4]

/-! One push and one pop -/

/-- Full, by occupancy (R61). -/
theorem inc_ne_iff {h t : Byte} {cap : Nat} (hh : h.toNat < cap) (ht : t.toNat < cap) (hc : cap ≤ 256) :
    inc h cap ≠ t ↔ occ h t cap + 1 < cap := by
  constructor
  · intro hne
    have := occ_inc_head hh ht hc hne
    have := occ_lt (inc_lt hh hc) ht
    omega
  · rintro hlt rfl
    rw [occ_eq hh ht, inc_toNat hh hc] at hlt
    split_ifs at hlt <;> omega

/-- A byte pushed into RX joins at the end (R132, R142). -/
theorem rxContents_push (h : RegistersOk s) (hne : inc s.rxHead s.cfg.rxCap ≠ s.rxTail) :
    rxContents (s.rxPush b) = rxContents s ++ [b] ∧ (s.rxPush b).rxOcc = s.rxOcc + 1 := by
  have ho : (s.rxPush b).rxOcc = s.rxOcc + 1 := occ_inc_head h.rxHead h.rxTail (caps_of_wf h.wf).1.2 hne
  have hr : ∀ k, (s.rxPush b).rxMem.read (rxUnread (s.rxPush b) k) =
      if rxUnread s k = s.rxHead.toNat then some b else s.rxMem.read (rxUnread s k) := fun k => Memory.read_write ..
  refine ⟨?_, ho⟩
  unfold rxContents
  rw [ho, List.range_succ, List.map_append]
  congr 1
  · refine List.map_congr_left fun k hk => ?_
    have e := hr k
    rw [if_neg (show rxUnread s k ≠ s.rxHead.toNat from slot_ne_head h.rxHead h.rxTail (List.mem_range.1 hk))] at e
    simp only [State.rxSlot, rxPush_powerLosses, e]; rfl
  · simp only [List.map_cons, List.map_nil, State.rxSlot, hr, show rxUnread s s.rxOcc = s.rxHead.toNat from
      slot_occ h.rxHead h.rxTail]; simp

/-- The byte at the tail of RX is the first, and popping removes it (R115, R142). -/
theorem rxContents_pop (h : RegistersOk s) (hne : s.rxHead ≠ s.rxTail) :
    rxContents s = s.rxFront :: rxContents s.rxPop ∧ s.rxOcc = s.rxPop.rxOcc + 1 ∧
      ∀ k, rxUnread s.rxPop k = rxUnread s (k + 1) := by
  have hc := (caps_of_wf h.wf).1.2
  have ho : s.rxOcc = s.rxPop.rxOcc + 1 := occ_inc_tail h.rxHead h.rxTail hc hne
  have hs : ∀ k, rxUnread s.rxPop k = rxUnread s (k + 1) := fun k => slot_inc k h.rxTail hc
  refine ⟨?_, ho, hs⟩
  unfold rxContents
  rw [ho, List.range_succ_eq_map, List.map_cons, List.map_map]
  congr 1
  · simp only [State.rxFront, rxUnread, Nat.add_zero, Nat.mod_eq_of_lt h.rxTail]
  · refine List.map_congr_left fun k _ => ?_
    simp only [Function.comp, hs]; rfl

/-- A byte pushed into TX joins at the end (R114, R142). -/
theorem txContents_push (h : RegistersOk s) (hne : inc s.txHead s.cfg.txCap ≠ s.txTail) :
    txContents (s.txPush b) = txContents s ++ [b] ∧ (s.txPush b).txOcc = s.txOcc + 1 := by
  have ho : (s.txPush b).txOcc = s.txOcc + 1 := occ_inc_head h.txHead h.txTail (caps_of_wf h.wf).2.1.2 hne
  have hr : ∀ k, (s.txPush b).txMem.read (txUnsent (s.txPush b) k) =
      if txUnsent s k = s.txHead.toNat then some b else s.txMem.read (txUnsent s k) := fun k => Memory.read_write ..
  refine ⟨?_, ho⟩
  unfold txContents
  rw [ho, List.range_succ, List.map_append]
  congr 1
  · refine List.map_congr_left fun k hk => ?_
    have e := hr k
    rw [if_neg (show txUnsent s k ≠ s.txHead.toNat from slot_ne_head h.txHead h.txTail (List.mem_range.1 hk))] at e
    simp only [State.txSlot, txPush_powerLosses, e]; rfl
  · simp only [List.map_cons, List.map_nil, State.txSlot, hr, show txUnsent s s.txOcc = s.txHead.toNat from
      slot_occ h.txHead h.txTail]; simp

/-- The byte at the tail of TX is the first, and popping removes it (R135, R142). -/
theorem txContents_pop (h : RegistersOk s) (hne : s.txHead ≠ s.txTail) :
    txContents s = s.txFront :: txContents s.txPop ∧ s.txOcc = s.txPop.txOcc + 1 ∧
      ∀ k, txUnsent s.txPop k = txUnsent s (k + 1) := by
  have hc := (caps_of_wf h.wf).2.1.2
  have ho : s.txOcc = s.txPop.txOcc + 1 := occ_inc_tail h.txHead h.txTail hc hne
  have hs : ∀ k, txUnsent s.txPop k = txUnsent s (k + 1) := fun k => slot_inc k h.txTail hc
  refine ⟨?_, ho, hs⟩
  unfold txContents
  rw [ho, List.range_succ_eq_map, List.map_cons, List.map_map]
  congr 1
  · simp only [State.txFront, txUnsent, Nat.add_zero, Nat.mod_eq_of_lt h.txTail]
  · refine List.map_congr_left fun k _ => ?_
    simp only [Function.comp, hs]; rfl

/-! Memories -/

/-- The four memories of the state at the first power-up are canonical. -/
theorem reset_memories_wf :
    State.reset.rxMem.wf = true ∧ State.reset.txMem.wf = true ∧ State.reset.nv.wf = true ∧ State.reset.blk.wf = true :=
  ⟨rfl, rfl, rfl, rfl⟩

/-- The operations over memories keep the canonical form: a ring's push, and a block write. -/
theorem push_memories_wf (h : MemoriesOk s) : (s.rxPush b).rxMem.wf = true ∧ (s.txPush b).txMem.wf = true :=
  ⟨Memory.wf_write _ _ h.rx, Memory.wf_write _ _ h.tx⟩

/-- A completed operation keeps the canonical form. -/
theorem finishProgramming_nv_wf (h : MemoriesOk s) : s.finishProgramming.nv.wf = true := by
  unfold State.finishProgramming
  split
  · exact h.nv
  · exact Memory.wf_write _ _ h.nv

/-- So does an interrupted one. -/
theorem interruptProgramming_nv_wf (h : MemoriesOk s) : s.interruptProgramming.nv.wf = true := by
  unfold State.interruptProgramming
  split
  · exact h.nv
  · exact Memory.wf_write _ _ h.nv

end Sys2Proof.Safety
end

