-- ==== Sys2Proof/Laws/PerInstr.lean ====
section
/-! SUPPORT. The per-instruction family `Fields`: a command's word is made of its `OP` and of the fields R92 says it takes,
and nothing else (R92, R94, R97). -/

namespace Sys2Proof.Laws.Fields

/-- `OP` always counts (R92), the word lays down only bits the command takes, with 0 in every other (R97), and the command does
not depend on what it writes there (R94): its two other fields are taken whole or not at all. -/
def Statement (i : Instr) : Prop :=
  usedBits i &&& 0x000000FF#32 = 0x000000FF#32 ∧
  encode i &&& usedBits i = encode i ∧
  (dataField (usedBits i) = 0 ∨ dataField (usedBits i) = 0xFF) ∧
  (addrField (usedBits i) = 0 ∨ addrField (usedBits i) = 0xFFFF)

/-- Masking a packed word masks its fields. -/
theorem packWord_and (a ma : Addr) (d md o mo : Byte) :
    packWord a d o &&& packWord ma md mo = packWord (a &&& ma) (d &&& md) (o &&& mo) := by
  have low : ∀ {w : Nat} (v : BitVec w) (n : Nat), w ≤ n → v.getLsbD n = false := fun v n h => BitVec.getLsbD_of_ge v n h
  apply BitVec.eq_of_getLsbD_eq
  intro n hn
  rcases Nat.lt_or_ge n 8 with h8 | h8
  · simp [packWord, hn, h8, show n < 16 by omega]
  · rcases Nat.lt_or_ge n 16 with h16 | h16
    · simp [packWord, hn, h16, low o n h8, low mo n h8, show ¬ n < 8 by omega]
    · simp [packWord, hn, low o n h8, low mo n h8, low d (n - 8) (by omega), low md (n - 8) (by omega),
        show ¬ n < 8 by omega, show ¬ n < 16 by omega]

/-- The word of a command laid out under its mask, the fields taken whole or not at all. -/
theorem of_fields {i : Instr} (a ma : Addr) (d md o : Byte) (hw : encode i = packWord a d o)
    (hm : usedBits i = packWord ma md 0xFF) (ha : (ma = 0 ∧ a = 0) ∨ ma = 0xFFFF) (hd : (md = 0 ∧ d = 0) ∨ md = 0xFF) :
    Statement i := by
  have keepA : a &&& ma = a := by
    rcases ha with ⟨rfl, rfl⟩ | rfl
    · rfl
    · exact BitVec.and_allOnes
  have keepO : o &&& 0xFF = o := BitVec.and_allOnes
  have keepD : d &&& md = d := by
    rcases hd with ⟨rfl, rfl⟩ | rfl
    · rfl
    · exact BitVec.and_allOnes
  refine ⟨?_, ?_, ?_, ?_⟩
  · rw [hm, show (0x000000FF#32) = packWord 0 0 0xFF from rfl, packWord_and,
      show ma &&& (0 : Addr) = 0 from BitVec.and_zero, show md &&& (0 : Byte) = 0 from BitVec.and_zero]; rfl
  · rw [hw, hm, packWord_and, keepA, keepD, keepO]
  · rw [hm, dataField_packWord]; exact hd.imp And.left id
  · rw [hm, addrField_packWord]; exact ha.imp And.left id

theorem nop : Statement .nop :=
  of_fields 0 0 0 0 0x00 rfl rfl (.inl ⟨rfl, rfl⟩) (.inl ⟨rfl, rfl⟩)

theorem serInit : Statement .serInit :=
  of_fields 0 0 0 0 0x01 rfl rfl (.inl ⟨rfl, rfl⟩) (.inl ⟨rfl, rfl⟩)

theorem serWrite (data : Byte) : Statement (.serWrite data) :=
  of_fields 0 0 data 0xFF 0x02 rfl rfl (.inl ⟨rfl, rfl⟩) (.inr rfl)

theorem serRead : Statement .serRead :=
  of_fields 0 0 0 0 0x03 rfl rfl (.inl ⟨rfl, rfl⟩) (.inl ⟨rfl, rfl⟩)

theorem serResetRx : Statement .serResetRx :=
  of_fields 0 0 0 0 0x04 rfl rfl (.inl ⟨rfl, rfl⟩) (.inl ⟨rfl, rfl⟩)

theorem rtsigClear (mask : Byte) : Statement (.rtsigClear mask) :=
  of_fields 0 0 mask 0xFF 0x05 rfl rfl (.inl ⟨rfl, rfl⟩) (.inr rfl)

theorem nvRead (addr : Addr) : Statement (.nvRead addr) :=
  of_fields addr 0xFFFF 0 0 0x10 rfl rfl (.inr rfl) (.inl ⟨rfl, rfl⟩)

theorem nvWrite (addr : Addr) (value : Byte) : Statement (.nvWrite addr value) :=
  of_fields addr 0xFFFF value 0xFF 0x11 rfl rfl (.inr rfl) (.inr rfl)

theorem nvWriteBlock (addr : Addr) : Statement (.nvWriteBlock addr) :=
  of_fields addr 0xFFFF 0 0 0x12 rfl rfl (.inr rfl) (.inl ⟨rfl, rfl⟩)

theorem nvReadBlock (addr : Addr) : Statement (.nvReadBlock addr) :=
  of_fields addr 0xFFFF 0 0 0x13 rfl rfl (.inr rfl) (.inl ⟨rfl, rfl⟩)

theorem bufPut (index : Addr) (value : Byte) : Statement (.bufPut index value) :=
  of_fields index 0xFFFF value 0xFF 0x14 rfl rfl (.inr rfl) (.inr rfl)

theorem bufGet (index : Addr) : Statement (.bufGet index) :=
  of_fields index 0xFFFF 0 0 0x15 rfl rfl (.inr rfl) (.inl ⟨rfl, rfl⟩)

end Sys2Proof.Laws.Fields
end

