-- ==== Sys2Proof/Tests/Slice0.lean ====
section
/-! SUPPORT. Tests, each a small closed fact whose expected result comes from spec/95_test_vectors.md or from the rule its
comment names, and one named witness for every statement that has hypotheses (each clause of it, at a boundary). -/

namespace Sys2Proof.Tests

open Sys2Proof.Machine Sys2Proof.Safety

/-- The next state of an outcome. -/
def next? : Host.Outcome State Fault Refusal → Option State
  | .next t => some t
  | .fault _ => none
  | .refused _ => none

/-- Config S of 95_test_vectors.md. -/
def small : Config := { Config.standard with rxCap := 8, highWm := 4, lowWm := 2 }

/-- The largest configuration R4 allows. -/
def largest : Config :=
  { Config.standard with rxCap := 256, txCap := 256, highWm := 255, lowWm := 255, nvSize := 65536, blockMax := 256 }

/-- The smallest configuration R4 allows. -/
def smallest : Config :=
  { Config.standard with rxCap := 2, txCap := 2, highWm := 1, lowWm := 1, nvSize := 1, blockMax := 1 }

/-- A state with a command just accepted. -/
def pending (s : State) (i : Instr) (arg : Word) : State := { s with pend := some (acceptedCommand (encode i) arg) }

/-- Config S after `SER_INIT`, three bytes unread, one byte unsent, a cell known. -/
def live : State :=
  { State.reset with
    cfg := small, serEn := true, rate := 9600, rxHead := 3, rxMem := [(0, 0x41), (1, 0x42), (2, 0x43)]
    txHead := 1, txMem := [(0, 0x4F)], txArmed := true, nv := [(5, 0x77)] }

/-- The reset state with an operation in flight at address 5 (V-NC2). -/
def programming : State :=
  { State.reset with nv := [(5, 0x77)], nvInflight := some ⟨5, .writeOnly, 0x33⟩ }

/-- Three block slots written and the cells of a record known (V-NC18). -/
def record : State :=
  { State.reset with
    nv := [(100, 0x01), (101, 0x02), (102, 0x03), (103, 0x0B)], blk := [(0, 0x01), (1, 0x02), (2, 0x03)] }

/-- The record of an `NV_WRITE_BLOCK 100` of length 3 with `k` bytes done. -/
def blockPend (k : Nat) (acc : Byte) : Pend := ⟨0x12, 0, 100, 3, BitVec.ofNat 17 k, acc⟩

/-- A configuration is refused (R4). -/
def refuses (c : Config) : Bool := !decide c.Wf

/-! ## Well-formedness (R4): each condition refuses an ill-formed term -/

theorem test_wf_standard :
    refuses Config.standard = false ∧ refuses small = false ∧ refuses largest = false ∧ refuses smallest = false := by decide

/-- R4 (1): a capacity of 1 or 257, no cell, a buffer of 257 slots. -/
theorem test_wf_refuses_ranges :
    refuses { Config.standard with txCap := 1 } = true ∧ refuses { Config.standard with rxCap := 257 } = true ∧
    refuses { Config.standard with nvSize := 0 } = true ∧ refuses { Config.standard with nvSize := 65537 } = true ∧
    refuses { Config.standard with blockMax := 0 } = true ∧ refuses { Config.standard with blockMax := 257 } = true := by decide

/-- R4 (2) -/
theorem test_wf_refuses_watermarks :
    refuses { Config.standard with lowWm := 0 } = true ∧ refuses { Config.standard with lowWm := 97 } = true ∧
    refuses { Config.standard with highWm := 128 } = true := by decide

/-- R4 (3) -/
theorem test_wf_refuses_equal_flow_bytes : refuses { Config.standard with xoffByte := 0x11 } = true := by decide

/-- R4 (4) -/
theorem test_wf_refuses_equal_realtime_bytes :
    refuses { Config.standard with rtReset := 0x3F } = true ∧ refuses { Config.standard with rtFeedHold := 0x7E } = true := by decide

/-- R4: the machine is not defined for an ill-formed configuration. -/
theorem test_step_refuses_ill_formed :
    step { State.reset with cfg := { Config.standard with lowWm := 0 } } = .refused .illFormedConfig := rfl

/-! ## Decoding: one word for every command, written out from R90 and R92 -/

/-- 0x00, V-SC15: ignored fields hold any value. -/
theorem test_decode_nop : decode 0xDEAD5500#32 = .ok .nop := rfl
/-- R97 -/
theorem test_decode_serInit : decode 0x00000001#32 = .ok .serInit := rfl
/-- V-ENC1 -/
theorem test_decode_serWrite : decode 0x00004102#32 = .ok (.serWrite 0x41) := rfl
/-- V-ENC7, V-ENC8 -/
theorem test_decode_serRead : decode 0x00000003#32 = .ok .serRead ∧ decode 0xFFFFFF03#32 = .ok .serRead := ⟨rfl, rfl⟩
/-- R116's example -/
theorem test_decode_serResetRx : decode 0x00000004#32 = .ok .serResetRx := rfl
/-- V-ENC6 -/
theorem test_decode_rtsigClear : decode 0x00000705#32 = .ok (.rtsigClear 0x07) := rfl
/-- V-NC4 -/
theorem test_decode_nvRead : decode 0x03FF0010#32 = .ok (.nvRead 1023) := rfl
/-- V-ENC2 -/
theorem test_decode_nvWrite : decode 0x00643C11#32 = .ok (.nvWrite 100 0x3C) := rfl
/-- V-ENC3 -/
theorem test_decode_nvWriteBlock : decode 0x00640012#32 = .ok (.nvWriteBlock 100) := rfl
/-- V-ENC4 -/
theorem test_decode_nvReadBlock : decode 0x00640013#32 = .ok (.nvReadBlock 100) := rfl
/-- V-ENC5 -/
theorem test_decode_bufPut : decode 0x00020314#32 = .ok (.bufPut 2 0x03) := rfl
/-- V-NC8 -/
theorem test_decode_bufGet : decode 0x007F0015#32 = .ok (.bufGet 127) := rfl
/-- V-ENC9 to V-ENC13 -/
theorem test_decode_illegal :
    decode 0x00000006#32 = .error (.illegalOpcode 0x06) ∧ decode 0x0000000F#32 = .error (.illegalOpcode 0x0F) ∧
    decode 0x00000016#32 = .error (.illegalOpcode 0x16) ∧ decode 0x000000FF#32 = .error (.illegalOpcode 0xFF) ∧
    decode 0x12345606#32 = .error (.illegalOpcode 0x06) := ⟨rfl, rfl, rfl, rfl, rfl⟩
/-- R97's examples, encoded. -/
theorem test_encode :
    encode (.serWrite 0x41) = 0x00004102#32 ∧ encode (.nvWrite 100 0x3C) = 0x00643C11#32 ∧
    encode (.nvWriteBlock 100) = 0x00640012#32 ∧ encode (.nvReadBlock 100) = 0x00640013#32 ∧
    encode (.bufPut 2 0x03) = 0x00020314#32 ∧ encode (.rtsigClear 0x07) = 0x00000705#32 ∧
    encode .serRead = 0x00000003#32 ∧ encode .serInit = 0x00000001#32 := by decide
/-- The host's interface: an 8-bit row has no other bits. -/
theorem test_decodeTableWord :
    decodeTableWord 8 0x02 = some (.serWrite 0) ∧ decodeTableWord 32 0x00643C11 = some (.nvWrite 100 0x3C) ∧
    decodeTableWord 32 0x00000006 = none := ⟨rfl, rfl, rfl⟩

/-! ## Arithmetic (R7): V-CS1, V-CS4 to V-CS6 -/

theorem test_csum :
    csum [0x01, 0x02, 0x03] = 0x0B ∧ csum [] = 0x00 ∧ csum [0x80, 0x00] = 0x01 ∧ csum [0xFF, 0xFF] = 0xFE ∧
    csum [0x01, 0x00] = 0x02 ∧ csum [0x00, 0x02] = 0x02 := by decide

/-- V-SC16: a wrapped ring. -/
theorem test_occ : occ 1 127 128 = 2 ∧ occ 1 0 128 = 1 ∧ inc 127 128 = 0 := by decide

/-! ## One step of each command (at most two each) -/

/-- R112 -/
theorem test_nop :
    (next? (exec .nop (pending { live with result := 0x100, err := .addr } .nop 0))).map
      (fun t => (t.result, t.err, t.pend)) = some (0x00000000, .ok, none) := by decide

/-- V-SC1, V-SC2: STATUS after a rate at and above the threshold. -/
theorem test_serInit :
    (next? (exec .serInit (pending State.reset .serInit 57600))).map State.statusWord = some 0x00000004 ∧
    (next? (exec .serInit (pending State.reset .serInit 57601))).map State.statusWord = some 0x00000044 := by decide

/-- V-SC3 -/
theorem test_serInit_rate_zero :
    (next? (exec .serInit (pending live .serInit 0))).map (fun t => (t.err.code, t.rate, t.serEn)) =
      some (4, 9600, true) := by decide

/-- V-SC6: enqueued in the last free slot whatever `ABORT_IN` is. -/
theorem test_serWrite_last_slot :
    (next? (exec (.serWrite 0x41) { State.reset with txHead := 62, abortIn := true })).map
      (fun t => (t.txMem.read 62, t.txHead, t.txArmed, t.result)) = some (some 0x41, 63, true, 0) := by decide

/-- V-SC5, V-SC7: aborted, and held, on a full TX. -/
theorem test_serWrite_full :
    (next? (exec (.serWrite 0x41) { State.reset with txHead := 63, abortIn := true })).map
      (fun t => (t.result, t.err, t.txHead)) = some (0x00000200, .ok, 63) ∧
    next? (exec (.serWrite 0x41) { State.reset with txHead := 63 }) = some { State.reset with txHead := 63 } := by decide

/-- V-SC16 -/
theorem test_serRead_wraps :
    (next? (exec .serRead { State.reset with rxHead := 1, rxTail := 127, rxMem := [(127, 0x31)] })).map
      (fun t => (t.result, t.rxTail, t.rxOcc)) = some (0x00000031, 0, 1) := by decide

/-- V-SC10, V-SC11: the low watermark after the dequeue. -/
theorem test_serRead_low_watermark :
    (next? (exec .serRead { State.reset with rxHead := 64, flow := .xoffAsserted, rxMem := [(0, 0x47)] })).map
      (fun t => (t.result, t.flow, t.txArmed)) = some (0x00000047, .xonPending, true) ∧
    (next? (exec .serRead { State.reset with rxHead := 65, flow := .xoffAsserted, rxMem := [(0, 0x47)] })).map
      (fun t => (t.flow, t.txArmed)) = some (.xoffAsserted, false) := by decide

/-- V-SC13 -/
theorem test_serResetRx :
    (next? (exec .serResetRx { State.reset with rxHead := 10, rxTail := 3, flow := .xoffAsserted })).map
      (fun t => (t.rxHead, t.rxTail, t.flow)) = some (10, 10, .xonAsserted) := by decide

/-- V-SC14 -/
theorem test_rtsigClear :
    (next? (exec (.rtsigClear 0xFA) { State.reset with rtsig := 0x07 })).map State.rtsig = some 0x05 := by decide

/-- V-NC1, V-NC3: a read, and an address just out of range while NV is busy. -/
theorem test_nvRead :
    (next? (exec (.nvRead 5) live)).map (fun t => (t.result, t.err)) = some (0x00000077, .ok) ∧
    (next? (exec (.nvRead 1024) programming)).map (fun t => (t.result, t.err.code)) = some (0, 2) := by decide

/-- S5, third and fourth rows. -/
theorem test_nvWrite :
    (next? (exec (.nvWrite 100 0xC3) { State.reset with nv := [(100, 0x3C)] })).map
      (fun t => (t.nvInflight, t.nvmodeWord, t.cnt, t.result)) =
        some (some ⟨100, .eraseAndWrite, 0xC3⟩, 0x00000007, ⟨0, 0, 0, 1⟩, 0) ∧
    (next? (exec (.nvWrite 100 0x5A) { State.reset with nv := [(100, 0x5A)] })).map
      (fun t => (t.nvInflight, t.nvmodeWord, t.cnt)) = some (none, 0x00000004, ⟨1, 0, 0, 0⟩) := by decide

/-- P2: the first payload step. -/
theorem test_nvWriteBlock_payload :
    (next? (exec (.nvWriteBlock 100) (pending { record with nv := [(100, 0xFF)] } (.nvWriteBlock 100) 3))).map
      (fun t => (t.nvInflight, t.pend)) = some (some ⟨100, .writeOnly, 0x01⟩, some (blockPend 1 0x01)) := by decide

/-- P2: the final step, and V-NC16: length 0. -/
theorem test_nvWriteBlock_final :
    (next? (exec (.nvWriteBlock 100) { record with pend := some (blockPend 3 0x0B) })).map
      (fun t => (t.nvInflight, t.pend, t.result)) = some (none, none, 0x000B0000) ∧
    (next? (exec (.nvWriteBlock 200) (pending { State.reset with nv := [(200, 0x99)] } (.nvWriteBlock 200) 0))).map
      (fun t => (t.nvInflight, t.result)) = some (some ⟨200, .writeOnly, 0x00⟩, 0) := by decide

/-- R172's example, and V-NC15: length 0. -/
theorem test_nvReadBlock :
    (next? (exec (.nvReadBlock 100) (pending { record with blk := [] } (.nvReadBlock 100) 3))).map
      (fun t => (t.result, t.blk)) = some (0x000B040B, [(0, 0x01), (1, 0x02), (2, 0x03)]) ∧
    (next? (exec (.nvReadBlock 200) (pending { State.reset with nv := [(200, 0x00)] } (.nvReadBlock 200) 0))).map
      State.result = some 0x00000400 := by decide

/-- V-NC11 to V-NC13: length before address, and the address just out of range. -/
theorem test_nvReadBlock_errors :
    (next? (exec (.nvReadBlock 2000) (pending State.reset (.nvReadBlock 2000) 129))).map (fun t => t.err.code) = some 3 ∧
    (next? (exec (.nvReadBlock 1000) (pending State.reset (.nvReadBlock 1000) 24))).map (fun t => t.err.code) = some 2 :=
  by decide

/-- V-NC7, V-NC9 -/
theorem test_bufPut :
    (next? (exec (.bufPut 127 0xAB) State.reset)).map (fun t => (t.blk, t.result)) = some ([(127, 0xAB)], 0) ∧
    (next? (exec (.bufPut 128 7) State.reset)).map (fun t => (t.blk, t.err.code)) = some ([], 2) := by decide

/-- V-NC8 -/
theorem test_bufGet :
    (next? (exec (.bufGet 127) { State.reset with blk := [(127, 0xAB)] })).map State.result = some 0x000000AB := by decide

/-- V-NC10, V-NC17 -/
theorem test_unwrittenBlk :
    exec (.bufGet 3) State.reset = .fault .unwrittenBlk ∧
    exec (.nvWriteBlock 10) (pending State.reset (.nvWriteBlock 10) 1) = .fault .unwrittenBlk := ⟨rfl, rfl⟩

/-! ## Engines, reset and the window -/

/-- V-EN1's transmit steps: an XOFF sent below the low watermark turns into an XON. -/
theorem test_txe_rechecks :
    let s : State := { live with rxTail := 2, flow := .xoffPending, txTail := 1 }
    (txeStep s).obs = [.lineOut 0x13] ∧ (txeStep s).flow = .xonPending ∧ (txeStep s).txArmed = true ∧
    (txeStep (txeStep s)).obs = [.lineOut 0x13, .lineOut 0x11] ∧ (txeStep (txeStep s)).flow = .xonAsserted ∧
    (txeStep (txeStep s)).txArmed = false := by decide

/-- V-EN5, V-EN8: a realtime byte on a full RX, and the abort hook. -/
theorem test_rxe_realtime :
    (rxeStep 0x21 { live with rxHead := 7 }).rtsig = 0x04 ∧ (rxeStep 0x21 { live with rxHead := 7 }).rxHead = 7 ∧
    (rxeStep 0x18 live).obs = [.lineIn 0x18, .abortHook] := by decide

/-- V-EN6, V-EN13: overflow, and the append that reaches the high watermark. -/
theorem test_rxe_buffering :
    (rxeStep 0x41 { State.reset with serEn := true, rxHead := 127 }).obs = [.lineIn 0x41, .rxDrop 0x41] ∧
    (rxeStep 0x41 { State.reset with serEn := true, rxHead := 95 }).flow = .xoffPending ∧
    (rxeStep 0x41 { State.reset with serEn := true, rxHead := 94 }).flow = .xonAsserted := by decide

/-- V-NC2 -/
theorem test_nve : (nveStep programming).nv = [(5, 0x33)] ∧ (nveStep programming).nvInflight = none := by decide

/-- V-NV1 to V-NV3, V-NV11 -/
theorem test_selectMode :
    selectMode 0x00 0xFF = .eraseOnly ∧ selectMode 0xFF 0x00 = .writeOnly ∧ selectMode 0x3C 0xC3 = .eraseAndWrite ∧
    selectMode 0x0F 0x3F = .eraseAndWrite := by decide

/-- R34: a counter wraps. -/
theorem test_counter_wraps : (ModeCounts.bump ⟨0xFFFFFFFF, 0, 0, 0⟩ .noOp).noOp = 0 := by decide

/-- V-RS1, V-RS2 -/
theorem test_reset :
    (resetStep { live with abortIn := true, rtsig := 0x05 }).statusWord = 0x00000080 ∧
    (resetStep { live with rtsig := 0x05 }).rtsig = 0 ∧
    (resetStep { State.reset with nv := [(100, 0x3C)], nvInflight := some ⟨100, .eraseAndWrite, 0xC3⟩ }).nv =
      [(100, 0xC3)] := by decide

/-- V-RS3: every other cell is unchanged by a power loss. -/
theorem test_powerLoss :
    (powerLossStep { record with nvInflight := some ⟨100, .eraseAndWrite, 0xC3⟩ }).nv.read 101 = some 0x02 ∧
    (powerLossStep { record with nvInflight := some ⟨100, .eraseAndWrite, 0xC3⟩ }).nvInflight = none := by decide

/-- The first `R STATUS` of P4, and the `STATUS` of P3. -/
theorem test_status :
    { State.reset with cfg := { Config.standard with txCap := 4 }, txHead := 3, txArmed := true }.statusWord = 0x03000008 ∧
    { live with rxHead := 4, flow := .xoffPending, txTail := 1 }.statusWord = 0x0004001C := by decide

/-- R35, R36 with the defaults of 00_scope.md section 3. -/
theorem test_cfg : cfg0Word Config.standard = 0x40603F7F ∧ cfg1Word Config.standard = 0x017F03FF := by decide

/-- R96: a poll stays the host's next access until the masked value is the one waited for (R98 `WAIT_NV`). -/
theorem test_poll :
    (next? (hostStep { programming with script := [.access (.poll 0x0C 2 0)] })).map State.script = some [.access (.poll 0x0C 2 0)] ∧
    (next? (hostStep { State.reset with script := [.access (.poll 0x0C 2 0)] })).map State.script = some [] := by decide

/-- R98: two expansions, as the bus accesses they make. -/
theorem test_pseudo :
    (State.reset.load (serInitRate 115200) []).script =
      [.access (.write 32 0x04 115200), .access (.write 32 0x00 0x00000001)] ∧
    (State.reset.load (putBlk 0 [0x01, 0x02]) []).script =
      [.access (.write 32 0x00 0x00000114), .access (.write 32 0x00 0x00010214)] := by decide

/-- R250: nothing pending at reset, so the run is over; a byte still to be sent with `SER_EN = 1` and it is not. -/
theorem test_runOver : runOver State.reset ∧ ¬ runOver live := by decide

/-- The end of P3, whose last statement is `ENV LINE_IN 0x18`. -/
def lastStatement : State :=
  { live with txTail := 1, txArmed := false }.load [.lineIn 0x18] (namedTurns [.lineIn 0x18])

/-- R250: the end state is the one after that byte was taken, not the one before; what is observed of it is P3's `IDX` with the
indices of `live`, `RTSIG` 0 and the record's end. -/
theorem test_endState :
    ∃ t, EndState lastStatement t ∧ (observables t).obs = [.lineIn 0x18, .abortHook] ∧
      (observables t).window.take 7 = [0, 0, 0, 0x00030004, 0, 9600, 0x01010003] :=
  ⟨_, ⟨1, rfl, by decide, fun m hm u h => by
    obtain rfl : m = 0 := by omega
    cases h; decide⟩, rfl, by decide⟩

/-- R26, R96: the script stays at a write that is held, and a `STEP CE` behind it is not executed by the CE step that ends the
hold. -/
theorem test_held_keeps_the_script :
    let s := { pending State.reset .nop 0 with held := some 3, script := [.named .ce], turns := [.ce] }
    (next? (step s)).map (fun t => (t.pend, t.held, t.script)) = some (none, some 3, [.named .ce]) := by decide

/-- The host's interface: the very next step runs the word. -/
theorem test_withFetchWord :
    step (State.reset.withFetchWord 32 0x00004102) =
      exec (.serWrite 0x41) (pending State.reset (.serWrite 0x41) 0) := rfl

/-! ## Witnesses: the hypotheses of each statement, met together, clause by clause -/

theorem witness_IgnoredFieldsDoNotMatter :
    decode 0xFFFFFF03#32 = .ok .serRead ∧
    0x00000003#32 &&& usedBits .serRead = 0xFFFFFF03#32 &&& usedBits .serRead := ⟨rfl, rfl⟩

/-- The clauses: the CE's turn with a command pending, another agent's turn, no turn; a script at the statement that names the
turn, and not there in each way. -/
theorem witness_StepRunsPendingCommand :
    (refuses State.reset.cfg = false ∧ { pending State.reset .nop 0 with turns := [.ce] }.turns = [.ce] ∧
      (pending State.reset .nop 0).pend = some ⟨0, 0, 0, 0, 0, 0⟩ ∧ decode (Pend.word ⟨0, 0, 0, 0, 0, 0⟩) = .ok .nop) ∧
    { State.reset with turns := [.host] }.turns = [.host] ∧ State.reset.turns = [] ∧
    (State.reset.held = none ∧ { State.reset with script := [.named .ce] }.script = [.named .ce] ∧ Turn.ce ≠ .host) ∧
    { State.reset with held := some 3 }.held ≠ none ∧ ∀ rest, State.reset.script ≠ .named .ce :: rest :=
  ⟨⟨by decide, rfl, by decide, rfl⟩, rfl, rfl, ⟨rfl, rfl, by decide⟩, by decide, fun _ h => nomatch h⟩

/-- A read of another width, a poll just outside the window, and both commands on an unwritten slot. -/
theorem witness_FaultsOnlyAsListed :
    step { State.reset with script := [.access (.read 8 0x00)], turns := [.host] } = .fault .busAccess ∧
    step { State.reset with script := [.access (.poll 0x40 0 0)], turns := [.host] } = .fault .busAccess ∧
    step { pending State.reset (.bufGet 127) 0 with turns := [.ce] } = .fault .unwrittenBlk ∧
    step { pending State.reset (.nvWriteBlock 10) 1 with turns := [.ce] } = .fault .unwrittenBlk :=
  ⟨rfl, rfl, rfl, rfl⟩

/-- Both illegal ranges at both ends. -/
theorem witness_IllegalOpcodeCompletesWithError :
    State.reset.pend = none ∧
    (0x06 ≤ (opField 0x00000006).toNat ∧ (opField 0x00000006).toNat ≤ 0x0F) ∧
    (0x06 ≤ (opField 0x0000000F).toNat ∧ (opField 0x0000000F).toNat ≤ 0x0F) ∧
    0x16 ≤ (opField 0x00000016).toNat ∧ 0x16 ≤ (opField 0x000000FF).toNat := by decide

/-- The four clauses: a write accepted, a write held, a held write waiting, a held write accepted. -/
theorem witness_CmdWriteAcceptedOrHeld :
    (State.reset.held = none ∧ { State.reset with script := [.access (.write 32 0x00 3)] }.script = [.access (.write 32 0x00 3)] ∧
      State.reset.pend = none) ∧
    ((pending State.reset .nop 0).held = none ∧
      { pending State.reset .nop 0 with script := [.access (.write 32 0x00 3)] }.script = [.access (.write 32 0x00 3)] ∧
      (pending State.reset .nop 0).pend ≠ none) ∧
    ({ pending State.reset .nop 0 with held := some 3 }.held = some 3 ∧
      { pending State.reset .nop 0 with held := some 3 }.pend ≠ none) ∧
    ({ State.reset with held := some 3 }.held = some 3 ∧ { State.reset with held := some 3 }.pend = none) := by decide

theorem witness_ArgIsCopiedAtAcceptance :
    State.reset.pend = none ∧ State.reset.held = none ∧
    { State.reset with script := [.access (.write 32 0x04 0xFFFFFFFF)] }.script = [.access (.write 32 0x04 0xFFFFFFFF)] := by decide

/-- The last offset inside, the first outside, one off a boundary, another width (of a poll only the offset counts). -/
theorem witness_BusAccessFaultsOutsideWindow :
    (32 = 32 ∧ 0x3C % 4 = 0 ∧ 0x3C ≤ 0x3C) ∧ ¬ (32 = 32 ∧ 0x40 % 4 = 0 ∧ 0x40 ≤ 0x3C) ∧
    ¬ (32 = 32 ∧ 0x3B % 4 = 0 ∧ 0x3B ≤ 0x3C) ∧ ¬ (16 = 32 ∧ 0x00 % 4 = 0 ∧ 0x00 ≤ 0x3C) := by decide

/-- The last clauses: a poll that is over, and one that is not. -/
theorem witness_BusSideEffectsOnlyOfArgAndCmd :
    (Reg.result ≠ .cmd ∧ Reg.result ≠ .arg) ∧ State.reset.pend = none ∧ (pending State.reset .nop 0).pend ≠ none ∧
    State.reset.readReg .status &&& 2 = 0 ∧ programming.readReg .status &&& 2 ≠ 0 := by decide

theorem witness_ConfigurationWords :
    refuses State.reset.cfg = false ∧ refuses { State.reset with cfg := largest }.cfg = false ∧
    refuses { State.reset with cfg := smallest }.cfg = false := by decide

/-- Rate 0, the threshold, one above it. -/
theorem witness_SerInitTakesTheRate :
    (∃ p, (pending State.reset .serInit 0).pend = some p ∧ p.arg = 0) ∧
    (∃ p, (pending State.reset .serInit 57600).pend = some p ∧ p.arg ≠ 0) ∧
    (∃ p, (pending State.reset .serInit 57601).pend = some p ∧ p.arg ≠ 0) :=
  ⟨⟨_, rfl, rfl⟩, ⟨_, rfl, by decide⟩, ⟨_, rfl, by decide⟩⟩

/-- One free slot; full with and without the abort. -/
theorem witness_SerWriteEnqueuesAbortsOrHolds :
    inc 62 Config.standard.txCap ≠ State.reset.txTail ∧
    (inc 63 Config.standard.txCap = State.reset.txTail ∧ { State.reset with abortIn := true }.abortIn = true) ∧
    (inc 63 Config.standard.txCap = State.reset.txTail ∧ State.reset.abortIn = false) := by decide

/-- Empty; a dequeue to one below the low watermark; a dequeue to it. -/
theorem witness_SerReadDequeues :
    State.reset.rxHead = State.reset.rxTail ∧
    (let s : State := { State.reset with rxHead := 64, flow := .xoffAsserted }
     s.rxHead ≠ s.rxTail ∧ s.cfg.flowControl = true ∧ s.flow = .xoffAsserted ∧
       occ s.rxHead (inc s.rxTail s.cfg.rxCap) s.cfg.rxCap < s.cfg.lowWm) ∧
    (let s : State := { State.reset with rxHead := 65, flow := .xoffAsserted }
     s.rxHead ≠ s.rxTail ∧ ¬ occ s.rxHead (inc s.rxTail s.cfg.rxCap) s.cfg.rxCap < s.cfg.lowWm) := by decide

/-- The first illegal address, the last legal one idle, the last legal one busy. -/
theorem witness_NvReadReturnsTheCell :
    State.reset.cfg.nvSize ≤ (1024 : Addr).toNat ∧
    ((1023 : Addr).toNat < State.reset.cfg.nvSize ∧ State.reset.nvInflight = none) ∧
    ((1023 : Addr).toNat < programming.cfg.nvSize ∧ programming.nvInflight ≠ none) := by decide

/-- The same bounds, with a mode that issues and one that does not. -/
theorem witness_NvWriteIssuesTheOperation :
    State.reset.cfg.nvSize ≤ (1024 : Addr).toNat ∧
    ((5 : Addr).toNat < live.cfg.nvSize ∧ live.nvInflight = none ∧ NvMode.noOp = selectMode (live.nvByte 5) 0x77) ∧
    ((5 : Addr).toNat < live.cfg.nvSize ∧ live.nvInflight = none ∧ NvMode.writeOnly = selectMode (live.nvByte 5) 0x33) ∧
    ((1023 : Addr).toNat < programming.cfg.nvSize ∧ programming.nvInflight ≠ none) := by decide

theorem witness_ModeCountersWrap : NvMode.noOp ≠ NvMode.eraseOnly := by decide

theorem witness_NveCompletesTheOperation :
    State.reset.nvInflight = none ∧ programming.nvInflight = some ⟨5, .writeOnly, 0x33⟩ ∧
    (6 : Nat) ≠ (InFlight.mk 5 .writeOnly 0x33).addr.toNat := by decide

/-- Length one too long; the trailing byte one too far; busy; a slot missing. -/
theorem witness_NvWriteBlockChecksFirst :
    (∃ p, (pending State.reset (.nvWriteBlock 100) 129).pend = some p ∧ p.i = 0 ∧ State.reset.cfg.blockMax < p.len) ∧
    (∃ p, (pending State.reset (.nvWriteBlock 1000) 24).pend = some p ∧ p.i = 0 ∧ p.len ≤ State.reset.cfg.blockMax ∧
      State.reset.cfg.nvSize ≤ (1000 : Addr).toNat + p.len) ∧
    (∃ p, (pending programming (.nvWriteBlock 1000) 23).pend = some p ∧ p.i = 0 ∧ p.len ≤ programming.cfg.blockMax ∧
      (1000 : Addr).toNat + p.len < programming.cfg.nvSize ∧ programming.nvInflight ≠ none) ∧
    (∃ p, (pending State.reset (.nvWriteBlock 10) 1).pend = some p ∧ p.i = 0 ∧ p.len ≤ State.reset.cfg.blockMax ∧
      (10 : Addr).toNat + p.len < State.reset.cfg.nvSize ∧ State.reset.nvInflight = none ∧
      ∃ j < p.len, State.reset.blkByte j = none) :=
  ⟨⟨_, rfl, by decide⟩, ⟨_, rfl, by decide⟩, ⟨_, rfl, by decide⟩,
    ⟨_, rfl, rfl, by decide, by decide, rfl, 0, by decide, rfl⟩⟩

/-- The first payload byte, which programs nothing, and the last, over another byte. -/
theorem witness_NvWriteBlockPayloadStep :
    ((blockPend 0 0).i.toNat < (blockPend 0 0).len ∧ (blockPend 0 0).len ≤ record.cfg.blockMax ∧
      (100 : Addr).toNat + (blockPend 0 0).len < record.cfg.nvSize ∧ record.nvInflight = none ∧
      (∀ j < (blockPend 0 0).len, record.blkByte j ≠ none) ∧ record.blkByte (blockPend 0 0).i.toNat = some 0x01 ∧
      NvMode.noOp = selectMode (record.nvByte ((100 : Addr).toNat + (blockPend 0 0).i.toNat)) 0x01) ∧
    ((blockPend 2 4).i.toNat < (blockPend 2 4).len ∧ (blockPend 2 4).len ≤ record.cfg.blockMax ∧
      (101 : Addr).toNat + (blockPend 2 4).len < record.cfg.nvSize ∧ record.blkByte (blockPend 2 4).i.toNat = some 0x03 ∧
      NvMode.writeOnly = selectMode (record.nvByte ((101 : Addr).toNat + (blockPend 2 4).i.toNat)) 0x03) := by decide

/-- A record of three bytes, and of none. -/
theorem witness_NvWriteBlockFinalStep :
    ((blockPend 3 0x0B).i.toNat = (blockPend 3 0x0B).len ∧ (blockPend 3 0x0B).len ≤ record.cfg.blockMax ∧
      (100 : Addr).toNat + (blockPend 3 0x0B).len < record.cfg.nvSize ∧ record.nvInflight = none ∧
      NvMode.noOp = selectMode (record.nvByte (100 + (blockPend 3 0x0B).len)) (blockPend 3 0x0B).acc) ∧
    ∃ p, (pending record (.nvWriteBlock 103) 0).pend = some p ∧ p.i.toNat = p.len ∧ p.len ≤ record.cfg.blockMax ∧
      (103 : Addr).toNat + p.len < record.cfg.nvSize ∧
      NvMode.writeOnly = selectMode (record.nvByte (103 + p.len)) p.acc := ⟨by decide, _, rfl, by decide⟩

/-- Length one too long; the trailing byte one too far; busy; the longest length and the last address allowed. -/
theorem witness_NvReadBlockVerifies :
    (∃ p, (pending State.reset (.nvReadBlock 100) 129).pend = some p ∧ State.reset.cfg.blockMax < p.len) ∧
    (∃ p, (pending State.reset (.nvReadBlock 1000) 24).pend = some p ∧ p.len ≤ State.reset.cfg.blockMax ∧
      State.reset.cfg.nvSize ≤ (1000 : Addr).toNat + p.len) ∧
    (∃ p, (pending programming (.nvReadBlock 1000) 23).pend = some p ∧ p.len ≤ programming.cfg.blockMax ∧
      (1000 : Addr).toNat + p.len < programming.cfg.nvSize ∧ programming.nvInflight ≠ none) ∧
    (∃ p, (pending State.reset (.nvReadBlock 895) 128).pend = some p ∧ p.len ≤ State.reset.cfg.blockMax ∧
      (895 : Addr).toNat + p.len < State.reset.cfg.nvSize ∧ State.reset.nvInflight = none) :=
  ⟨⟨_, rfl, by decide⟩, ⟨_, rfl, by decide⟩, ⟨_, rfl, by decide⟩, ⟨_, rfl, by decide⟩⟩

theorem witness_BufPutWritesTheSlot :
    State.reset.cfg.blockMax ≤ (128 : Addr).toNat ∧ (127 : Addr).toNat < State.reset.cfg.blockMax := by decide

/-- Beyond the buffer, a written slot, the last slot unwritten. -/
theorem witness_BufGetReadsTheSlot :
    record.cfg.blockMax ≤ (128 : Addr).toNat ∧
    ((2 : Addr).toNat < record.cfg.blockMax ∧ record.blkByte (2 : Addr).toNat = some 0x03) ∧
    ((127 : Addr).toNat < record.cfg.blockMax ∧ record.blkByte (127 : Addr).toNat = none) := by decide

/-- A pending command that waits and one that does not. -/
theorem witness_HoldsExactlyWhenDisabled :
    ((pending programming (.nvRead 5) 0).pend.isSome = true ∧ commandEnabled (.nvRead 5) (pending programming (.nvRead 5) 0) = false) ∧
    ((pending programming (.nvRead 1024) 0).pend.isSome = true ∧
      commandEnabled (.nvRead 1024) (pending programming (.nvRead 1024) 0) = true) := by decide

theorem witness_ErrorsArePrecise :
    ∃ t, (pending live .serInit 0).pend.isSome = true ∧ exec .serInit (pending live .serInit 0) = .next t ∧
      t.pend = none ∧ t.err ≠ .ok := ⟨_, rfl, rfl, rfl, by decide⟩

/-- A command that ends in an error and one that ends without. -/
theorem witness_ErrorsAreTheListedOnes :
    (∃ p, (pending live .serInit 0).pend = some p ∧ p.arg = 0) ∧
    ∃ p t, (pending live .serRead 0).pend = some p ∧ exec .serRead (pending live .serRead 0) = .next t ∧ t.pend = none :=
  ⟨⟨_, rfl, rfl⟩, ⟨_, _, rfl, rfl, rfl⟩⟩

/-- Every command of the link answers a next state; slot 0 is not the slot written. -/
theorem witness_SerialCommandsFrame :
    (∀ i ∈ [Instr.nop, .serInit, .serWrite 0x41, .serRead, .serResetRx, .rtsigClear 0x07],
      (next? (exec i (pending live i 9600))).isSome = true) ∧ (0 : Nat) ≠ live.txHead.toNat := by decide

/-- Every command of the store answers a next state; slots 2 and 3 lie outside what the two writers of slots write. -/
theorem witness_StoreCommandsFrame :
    (∀ i ∈ [Instr.nvRead 100, .bufGet 0, .nvWrite 100 0x07, .nvWriteBlock 100, .bufPut 1 0x07, .nvReadBlock 100],
      (next? (exec i (pending record i 3))).isSome = true) ∧
    (2 : Nat) ≠ (1 : Addr).toNat ∧
    ∃ p, (pending record (.nvReadBlock 100) 3).pend = some p ∧ p.len ≤ 3 := ⟨by decide, by decide, _, rfl, by decide⟩

/-- Before `SER_INIT`; after it with each of the four bytes. -/
theorem witness_RxeActsOnRealtimeBytes :
    refuses live.cfg = false ∧ State.reset.serEn = false ∧ live.serEn = true ∧
    0x3F = live.cfg.rtStatus ∧ 0x7E = live.cfg.rtCycleStart ∧ 0x21 = live.cfg.rtFeedHold ∧ 0x18 = live.cfg.rtReset := by
  decide

/-- Full; an append to the high watermark; an append below it. -/
theorem witness_RxeBuffersOtherBytes :
    (live.serEn = true ∧ isRealtime live.cfg 0x41 = false) ∧
    inc 7 live.cfg.rxCap = live.rxTail ∧
    (inc live.rxHead live.cfg.rxCap ≠ live.rxTail ∧ live.cfg.flowControl = true ∧ live.flow = .xonAsserted ∧
      live.cfg.highWm ≤ occ (inc live.rxHead live.cfg.rxCap) live.rxTail live.cfg.rxCap) ∧
    (inc 2 live.cfg.rxCap ≠ live.rxTail ∧ ¬ live.cfg.highWm ≤ occ (inc 2 live.cfg.rxCap) live.rxTail live.cfg.rxCap) := by
  decide

/-- Each branch of the transmit step, the watermark checks at their boundaries. -/
theorem witness_TxeSendsFlowBytesFirst :
    ¬ (State.reset.serEn = true ∧ State.reset.txArmed = true) ∧
    (live.serEn = true ∧ live.txArmed = true ∧ live.cfg.flowControl = true) ∧
    (let s : State := { live with rxTail := 2, flow := .xoffPending }
     s.flow = .xoffPending ∧ s.rxOcc < s.cfg.lowWm) ∧
    (let s : State := { live with rxTail := 1, flow := .xoffPending }
     s.flow = .xoffPending ∧ s.cfg.lowWm ≤ s.rxOcc) ∧
    (let s : State := { live with rxHead := 4, flow := .xonPending }
     s.flow = .xonPending ∧ s.cfg.highWm ≤ s.rxOcc) ∧
    (let s : State := { live with flow := .xonPending }
     s.flow = .xonPending ∧ s.rxOcc < s.cfg.highWm) ∧
    (live.flowPending = false ∧ live.txHead ≠ live.txTail) ∧
    ({ live with txTail := 1 }.flowPending = false ∧ { live with txTail := 1 }.txHead = { live with txTail := 1 }.txTail) := by
  decide

/-- Every agent but reset and power loss takes a step. -/
theorem witness_OwnershipTableIsKept :
    ∀ u ∈ [Turn.host, .ce, .rxe 0x41, .txe, .nve, .abort true],
      (next? (agentStep u (pending live .serRead 0))).isSome = true ∧ u ≠ .reset ∧ u ≠ .powerLoss := by decide

/-- A step that drives `ABORT_IN`, and one that clears `SER_EN`. -/
theorem witness_OnlyTheNamedEventsChange :
    (∃ t, step { live with turns := [.abort true] } = .next t ∧ t.abortIn ≠ live.abortIn) ∧
    ∃ t, step { live with turns := [.reset] } = .next t ∧ live.serEn = true ∧ t.serEn = false :=
  ⟨⟨_, rfl, by decide⟩, ⟨_, rfl, rfl, rfl⟩⟩

theorem witness_ResetLeavesTheListedValues :
    (∃ t, t = resetStep programming) ∧ ∀ f, programming.nvInflight = some f → 6 ≠ f.addr.toNat :=
  ⟨⟨_, rfl⟩, fun f h => by cases h; decide⟩

/-- The cell in flight, and another. -/
theorem witness_InflightCellAtResetAndPowerLoss :
    (∀ f, programming.nvInflight = some f → 5 = f.addr.toNat) ∧ (∀ f, programming.nvInflight = some f → 6 ≠ f.addr.toNat) := by
  constructor <;> (intro f h; cases h; decide)

/-! The invariants hold of states with something in every memory, and those states take steps. -/

theorem live_registersOk : RegistersOk live := by constructor <;> decide

theorem witness_RegisterInvariantsAreKept :
    RegistersOk { live with turns := [.rxe 0x44] } ∧ ∃ t, step { live with turns := [.rxe 0x44] } = .next t :=
  ⟨by constructor <;> decide, _, rfl⟩

theorem witness_MemoriesStayCanonical :
    MemoriesOk { live with turns := [.rxe 0x44] } ∧ ∃ t, step { live with turns := [.rxe 0x44] } = .next t :=
  ⟨by constructor <;> rfl, _, rfl⟩

theorem live_ringsWritten : RingsWritten live := ⟨live_registersOk, by decide, by decide⟩

theorem witness_RingSlotsAreWrittenBeforeRead :
    RingsWritten { live with turns := [.txe] } ∧ ∃ t, step { live with turns := [.txe] } = .next t :=
  ⟨⟨by constructor <;> decide, live_ringsWritten.rx, live_ringsWritten.tx⟩, _, rfl⟩

theorem live_realtimeExcluded : RealtimeExcluded live := ⟨live_registersOk, by decide⟩

theorem witness_RealtimeBytesAreNeverRead :
    (RealtimeExcluded { live with turns := [.rxe 0x44] } ∧ ∃ t, step { live with turns := [.rxe 0x44] } = .next t) ∧
    RealtimeExcluded live ∧ live.rxHead ≠ live.rxTail ∧ ∃ t, exec .serRead live = .next t :=
  ⟨⟨⟨by constructor <;> decide, live_realtimeExcluded.unread⟩, _, rfl⟩, live_realtimeExcluded, by decide, _, rfl⟩

/-- A block write with two bytes done and its second cell still in flight. -/
def underway : State :=
  { record with
    nv := [(100, 0x01), (101, 0xFF)], pend := some (blockPend 2 0x04), nvInflight := some ⟨101, .writeOnly, 0x02⟩ }

theorem witness_StoreInvariantIsKept :
    StoreOk { underway with turns := [.nve] } ∧ ∃ t, step { underway with turns := [.nve] } = .next t := by
  refine ⟨⟨by decide, fun f h => ?_, fun p h _ => ?_, fun p h => ?_⟩, _, rfl⟩ <;> (cases h; decide)

/-- One slot left for the append; a byte to read. -/
theorem witness_RxIsFifo :
    (RegistersOk { live with rxTail := 5, flow := .xoffAsserted } ∧ live.serEn = true ∧ isRealtime live.cfg 0x44 = false ∧
      { live with rxTail := 5, flow := .xoffAsserted }.rxOcc + 1 < live.cfg.rxCap) ∧
    RegistersOk live ∧ live.rxHead ≠ live.rxTail ∧ ∃ t, exec .serRead live = .next t :=
  ⟨⟨by constructor <;> decide, rfl, rfl, by decide⟩, live_registersOk, by decide, _, rfl⟩

theorem witness_TxDrainsInOrder :
    (RegistersOk live ∧ live.txOcc + 1 < live.cfg.txCap ∧ ∃ t, exec (.serWrite 0x41) live = .next t) ∧
    live.serEn = true ∧ live.flow.pending = false ∧ live.txHead ≠ live.txTail :=
  ⟨⟨live_registersOk, by decide, _, rfl⟩, by decide⟩

/-- The append that reaches the high watermark; the read that falls below the low one. -/
theorem witness_FlowBytePrecedesPayload :
    (RegistersOk live ∧ live.serEn = true ∧ live.cfg.flowControl = true ∧ live.flow = .xonAsserted ∧
      isRealtime live.cfg 0x44 = false ∧ live.rxOcc + 1 < live.cfg.rxCap ∧ live.cfg.highWm ≤ live.rxOcc + 1) ∧
    let s : State := { live with rxTail := 1, flow := .xoffAsserted }
    RegistersOk s ∧ s.serEn = true ∧ s.cfg.flowControl = true ∧ s.flow = .xoffAsserted ∧ s.rxHead ≠ s.rxTail ∧
      s.rxOcc ≤ s.cfg.lowWm ∧ ∃ t, exec .serRead s = .next t :=
  ⟨⟨live_registersOk, by decide⟩, by constructor <;> decide, rfl, rfl, rfl, by decide, by decide, _, rfl⟩

theorem witness_ByteRoundTrip :
    ∃ t, (5 : Addr).toNat < live.cfg.nvSize ∧ live.nvInflight = none ∧ exec (.nvWrite 5 0x88) live = .next t :=
  ⟨_, by decide, rfl, rfl⟩

/-- Program P2's record, ready to be written. -/
theorem witness_BlockRoundTrip :
    let s : State :=
      { pending record (.nvWriteBlock 100) 3 with
        arg := 3, turns := [.ce, .nve, .ce, .nve, .ce, .nve, .ce, .nve, .txe] }
    refuses s.cfg = false ∧ decode (encode (.nvWriteBlock 100)) = .ok (.nvWriteBlock 100) ∧
    s.pend = some (acceptedCommand (encode (.nvWriteBlock 100)) s.arg) ∧ s.nvInflight = none ∧
    [0x01#8, 0x02#8, 0x03#8].length = s.arg.toNat % 65536 ∧ [0x01#8, 0x02#8, 0x03#8].length ≤ s.cfg.blockMax ∧
    (100 : Addr).toNat + [0x01#8, 0x02#8, 0x03#8].length < s.cfg.nvSize ∧
    (∀ j, (h : j < [0x01#8, 0x02#8, 0x03#8].length) → s.blkByte j = some [0x01#8, 0x02#8, 0x03#8][j]) ∧
    s.turns = (List.replicate ([0x01#8, 0x02#8, 0x03#8].length + 1) [Turn.ce, Turn.nve]).flatten ++ [.txe] :=
  ⟨by decide, rfl, rfl, rfl, rfl, by decide, by decide, by decide, rfl⟩

theorem witness_OneChangedByteIsDetected : (0x02 : Byte) ≠ 0x03 := by decide

/-- The smallest TX, full before `SER_INIT`. -/
theorem witness_FullTxBeforeInitIsStuck :
    let s : State := { pending State.reset (.serWrite 0x41) 0 with cfg := smallest, txHead := 1, txArmed := true }
    decode (encode (.serWrite 0x41)) = .ok (.serWrite 0x41) ∧
    s.pend = some (acceptedCommand (encode (.serWrite 0x41)) 0) ∧ s.txFull = true ∧ s.serEn = false ∧
    s.abortIn = false ∧ s.nvInflight = none ∧ ∃ t, turnStep .txe s = .next t :=
  ⟨rfl, rfl, rfl, rfl, rfl, rfl, _, rfl⟩

/-- The run whose CE always moves: the read completes at once and nothing follows. -/
def readRun : Nat → State
  | 0 => pending live (.nvRead 5) 0
  | _ + 1 => { live with result := 0x77, err := .ok, pend := none }

/-- The same with the transmit side idle, so that every agent is given what R214 asks. -/
def quietRun (n : Nat) : State := { readRun n with txArmed := false }

theorem witness_FairRunsCompleteNvReads :
    Follows (fun _ => .ce) quietRun ∧ Fair (fun _ => .ce) quietRun ∧
    (quietRun 0).pend = some (acceptedCommand (encode (.nvRead 5)) 0) ∧
    decode (acceptedCommand (encode (.nvRead 5)) 0).word = .ok (.nvRead 5) := by
  refine ⟨fun n => ?_, ⟨fun n => ⟨n, Nat.le_refl n, .inr ?_⟩, fun n => ⟨n, Nat.le_refl n, .inr ?_⟩,
    fun n => ⟨n, Nat.le_refl n, .inl rfl⟩⟩, rfl, rfl⟩
  all_goals (cases n <;> rfl)

end Sys2Proof.Tests
end

/-! PROOF. The scope of the machine (00_scope.md): which configurations it runs on (R4), when a pending command waits (R8), and the
arithmetic of the checksum (R7). -/

namespace Sys2Proof.Machine

section

variable {s t : State} {i : Instr} {p : Pend}

/-! The only refusal (R4, R203) -/

/-- No access is refused: one that reaches no register is a fault (R67). -/
theorem busAccess_ne_refused (s : State) (op : HostOp) (r : Refusal) : s.busAccess op ≠ .refused r := by
  intro h
  cases op
  all_goals
    simp only [State.busAccess] at h
    split at h <;> cases h

theorem hostStep_ne_refused (s : State) (r : Refusal) : hostStep s ≠ .refused r := by
  intro h
  unfold hostStep at h
  split at h
  · cases h
  · split at h
    · cases h
    · exact busAccess_ne_refused _ _ _ h
    · cases h

theorem ceStep_ne_refused (s : State) (r : Refusal) : ceStep s ≠ .refused r := by
  intro h
  unfold ceStep at h
  split at h
  · cases h
  · exact exec_ne_refused _ _ _ h
  · cases h

/-- No agent's step is refused, so only the configuration can be. -/
theorem agentStep_ne_refused (u : Turn) (s : State) (r : Refusal) : agentStep u s ≠ .refused r := by
  intro h
  cases u with
  | host => exact hostStep_ne_refused s r h
  | ce => exact ceStep_ne_refused s r h
  | rxe | txe | nve | abort | reset | powerLoss => cases h

theorem step_of_not_wf (h : ¬ s.cfg.Wf) : step s = .refused .illFormedConfig := if_neg h

theorem step_ne_refused_of_wf (h : s.cfg.Wf) (r : Refusal) : step s ≠ .refused r := by
  intro hr
  unfold step at hr
  rw [if_pos h] at hr
  split at hr
  · cases hr
  · exact agentStep_ne_refused _ _ _ hr

/-! Waiting (R8, R110) -/

/-- A command whose Enabled line is false waits. -/
theorem exec_of_disabled (h : commandEnabled i s = false) : exec i s = .next s := by
  cases i with
  | nop | serInit | serRead | serResetRx | rtsigClear | bufPut | bufGet => cases h
  | serWrite b =>
    obtain ⟨hfull, habort⟩ : s.txFull = true ∧ s.abortIn = false := by simpa [commandEnabled] using h
    simp [exec, execSerWrite, hfull, habort]
  | nvRead a =>
    obtain ⟨hbusy, hlegal⟩ : s.nvInflight ≠ none ∧ a.toNat < s.cfg.nvSize := by simpa [commandEnabled] using h
    simp [exec, execNvRead, hbusy, hlegal]
  | nvWrite a v =>
    obtain ⟨hbusy, hlegal⟩ : s.nvInflight ≠ none ∧ a.toNat < s.cfg.nvSize := by simpa [commandEnabled] using h
    simp [exec, execNvWrite, hbusy, hlegal]
  | nvWriteBlock a =>
    obtain ⟨hbusy, hok⟩ := Bool.or_eq_false_iff.1 h
    rw [Option.isSome_eq_false_iff, Option.isNone_iff_eq_none] at hok
    simp only [exec, execNvWriteBlock, hok, hbusy, if_true]
  | nvReadBlock a =>
    obtain ⟨hbusy, hok⟩ := Bool.or_eq_false_iff.1 h
    rw [Option.isSome_eq_false_iff, Option.isNone_iff_eq_none] at hok
    simp only [exec, execNvReadBlock, hok, hbusy, if_true]

/-- The end of a command frees the slot, so it is not a wait (R111). -/
theorem complete_pend_ne (hp : s.pend = some p) (t : State) (w : Word) (e : Err) : (t.complete w e).pend ≠ s.pend := by
  simp [hp]

/-- A payload step counts one more byte done, modulo the width of the count, so it is not a wait (R170). -/
theorem payload_pend_ne (p : Pend) (b : Byte) : some { p with i := p.i + 1, acc := csumStep p.acc b } ≠ some p := by
  intro h
  have hi : p.i + 1 = p.i := congrArg Pend.i (Option.some.inj h)
  exact absurd (add_eq_left.1 hi) (by decide)

/-- What the CE step of a pending command can be: a wait while the command is disabled, or a change of the pending record. -/
theorem exec_waits_or_changes_pend (hp : s.pend = some p) (h : exec i s = .next t) :
    t = s ∧ commandEnabled i s = false ∨ t.pend ≠ s.pend := by
  cases i with
  | nop => cases h; exact .inr (complete_pend_ne hp _ _ _)
  | serInit =>
    obtain rfl | ⟨d, rfl⟩ := execSerInit_cases h
    all_goals exact .inr (complete_pend_ne hp _ _ _)
  | serWrite b =>
    obtain ⟨-, rfl⟩ | ⟨-, -, rfl⟩ | ⟨hfull, habort, rfl⟩ := execSerWrite_cases h
    · exact .inr (complete_pend_ne hp _ _ _)
    · exact .inr (complete_pend_ne hp _ _ _)
    · exact .inl ⟨rfl, by simp [commandEnabled, hfull, habort]⟩
  | serRead =>
    obtain ⟨-, rfl⟩ | ⟨-, rfl⟩ := execSerRead_cases h
    all_goals exact .inr (complete_pend_ne hp _ _ _)
  | serResetRx => cases h; exact .inr (complete_pend_ne hp _ _ _)
  | rtsigClear m => cases h; exact .inr (complete_pend_ne hp _ _ _)
  | nvRead a =>
    obtain ⟨-, rfl⟩ | ⟨-, -, rfl⟩ | ⟨hlegal, hbusy, rfl⟩ := execNvRead_cases h
    · exact .inr (complete_pend_ne hp _ _ _)
    · exact .inr (complete_pend_ne hp _ _ _)
    · exact .inl ⟨rfl, by simp [commandEnabled, hlegal, hbusy]⟩
  | nvWrite a v =>
    obtain ⟨-, rfl⟩ | ⟨-, -, rfl⟩ | ⟨hlegal, hbusy, rfl⟩ := execNvWrite_cases h
    · exact .inr (complete_pend_ne hp _ _ _)
    · exact .inr (complete_pend_ne hp _ _ _)
    · exact .inl ⟨rfl, by simp [commandEnabled, hlegal, hbusy]⟩
  | nvWriteBlock a =>
    have hc := command_of_pending hp (.nvWriteBlock a)
    obtain ⟨e, -, rfl⟩ | ⟨hok, hbusy, rfl⟩ | ⟨-, -, -, ⟨-, b, -, rfl⟩ | ⟨-, rfl⟩⟩ := execNvWriteBlock_cases hc h
    · exact .inr (complete_pend_ne hp _ _ _)
    · exact .inl ⟨rfl, by simp [commandEnabled, hc, hok, hbusy]⟩
    · exact .inr (hp ▸ payload_pend_ne p b)
    · exact .inr (complete_pend_ne hp _ _ _)
  | nvReadBlock a =>
    have hc := command_of_pending hp (.nvReadBlock a)
    obtain ⟨e, -, rfl⟩ | ⟨hok, hbusy, rfl⟩ | ⟨-, -, rfl⟩ := execNvReadBlock_cases hc h
    · exact .inr (complete_pend_ne hp _ _ _)
    · exact .inl ⟨rfl, by simp [commandEnabled, hc, hok, hbusy]⟩
    · exact .inr (complete_pend_ne hp _ _ _)
  | bufPut j v =>
    obtain ⟨-, rfl⟩ | ⟨-, rfl⟩ := execBufPut_cases h
    all_goals exact .inr (complete_pend_ne hp _ _ _)
  | bufGet j =>
    obtain ⟨-, rfl⟩ | ⟨-, b, -, rfl⟩ := execBufGet_cases h
    all_goals exact .inr (complete_pend_ne hp _ _ _)

/-! The checksum (R7, R175) -/

/-- A rotation doubles the byte and brings its top bit round to the bottom (R7). -/
theorem rotl8_toNat (v : Byte) : (rotl8 v).toNat = (2 * v.toNat + v.toNat / 128) % 256 := by
  have htop : v.toNat / 128 < 2 ^ 1 := by omega
  calc (rotl8 v).toNat
      = (v.toNat % 128) <<< 1 ||| v.toNat / 128 := by
        simp only [rotl8, BitVec.toNat_or, BitVec.toNat_shiftLeft, BitVec.toNat_ushiftRight, Nat.shiftLeft_eq,
          Nat.shiftRight_eq_div_pow]
        congr 1; omega
    _ = (v.toNat % 128) <<< 1 + v.toNat / 128 := (Nat.shiftLeft_add_eq_or_of_lt htop _).symm
    _ = (2 * v.toNat + v.toNat / 128) % 256 := by rw [Nat.shiftLeft_eq]; omega

/-- Rotating right by one gives the byte back. -/
theorem toNat_of_rotl8 (v : Byte) : v.toNat = (rotl8 v).toNat / 2 + 128 * ((rotl8 v).toNat % 2) := by
  have htop : v.toNat / 128 < 2 := by omega
  have hr : (rotl8 v).toNat = 2 * (v.toNat % 128) + v.toNat / 128 := by rw [rotl8_toNat]; omega
  omega

theorem rotl8_injective : Function.Injective rotl8 := by
  intro v w h
  apply BitVec.eq_of_toNat_eq
  rw [toNat_of_rotl8 v, h, ← toNat_of_rotl8 w]

/-- A checksum step loses nothing of the running value, whatever the byte. -/
theorem csumStep_left_injective (b : Byte) : Function.Injective (csumStep · b) :=
  (add_left_injective b).comp rotl8_injective

/-- A checksum step loses nothing of the byte, whatever the running value. -/
theorem csumStep_right_injective (c : Byte) : Function.Injective (csumStep c) := add_right_injective (rotl8 c)

/-- The bytes that follow carry every difference in the running value to the end. -/
theorem foldl_csumStep_injective (bs : List Byte) : Function.Injective (bs.foldl csumStep) := by
  induction bs with
  | nil => exact Function.injective_id
  | cons b bs ih => exact ih.comp (csumStep_left_injective b)

/-- The checksum of a list in terms of one of its bytes. -/
theorem csum_split (before after : List Byte) (b : Byte) :
    csum (before ++ b :: after) = after.foldl csumStep (csumStep (csum before) b) := List.foldl_append

end

/-! The statements -/

/-- Settles O7: no agent's step is refused, and the step asks for a well-formed configuration first. -/
theorem refusedIffIllFormed : Obligations.RefusedIffIllFormed := by
  intro s r
  constructor
  · intro h
    by_cases hw : s.cfg.Wf
    · exact absurd h (step_ne_refused_of_wf hw r)
    · rw [step_of_not_wf hw] at h
      exact ⟨hw, (Host.Outcome.refused.inj h).symm⟩
  · rintro ⟨hw, rfl⟩
    exact step_of_not_wf hw

/-- Settles O34: an enabled step changes the pending record, so answering the same state is waiting. -/
theorem holdsExactlyWhenDisabled : Obligations.HoldsExactlyWhenDisabled := by
  intro i s hp
  obtain ⟨p, hp⟩ := Option.isSome_iff_exists.1 hp
  constructor
  · intro h
    obtain ⟨-, hdisabled⟩ | hne := exec_waits_or_changes_pend hp h
    · exact hdisabled
    · exact absurd rfl hne
  · exact exec_of_disabled

/-- Settles O58: rotation and addition are injective, so a changed byte changes the running value and every later one. -/
theorem oneChangedByteIsDetected : Obligations.OneChangedByteIsDetected := by
  refine ⟨fun c b => ?_, rfl, csum_append, fun before after b c hne h => hne ?_⟩
  · rw [csumStep, BitVec.toNat_add, rotl8_toNat]
  · rw [csum_split, csum_split] at h
    exact csumStep_right_injective _ (foldl_csumStep_injective after h)

end Sys2Proof.Machine

/-! PROOF. The registers (10_state.md): what every step keeps of them and of the store's records (R39 to R42), what only a named
event changes (R24, R41), and what the host sees of them through the register window (R25 to R38). -/

namespace Sys2Proof.Machine

open Sys2Proof.Safety

section

variable {s t : State} {i : Instr} {p : Pend}

/-! What a step can be -/

/-- A HOST step touches the command slot, `ARG` and the host's own bookkeeping; the slot only to accept a command where none is
pending (R26, R68, R71). -/
theorem hostStep_frame (h : hostStep s = .next t) :
    ∃ arg pend held script hostReads,
      t = { s with arg := arg, pend := pend, held := held, script := script, hostReads := hostReads } ∧
      (pend = s.pend ∨ ∃ w, s.pend = none ∧ pend = some (acceptedCommand w s.arg)) := by
  obtain rfl | ⟨w, -, hp, rfl⟩ | ⟨o, w, rfl⟩ | ⟨o, w, rfl⟩ | ⟨r, w, -, rfl⟩ := hostStep_cases h
  · exact ⟨_, _, _, _, _, rfl, .inl rfl⟩
  · exact ⟨_, _, _, _, _, rfl, .inr ⟨w, hp, rfl⟩⟩
  · exact ⟨_, _, _, _, _, rfl, .inl rfl⟩
  · exact ⟨_, _, _, _, _, rfl, .inl rfl⟩
  · obtain he | he | ⟨hp, he⟩ | ⟨-, he⟩ := writeReg_cases (s := s.advanceHost) r w
    all_goals rw [he]
    · exact ⟨_, _, _, _, _, rfl, .inl rfl⟩
    · exact ⟨_, _, _, _, _, rfl, .inl rfl⟩
    · exact ⟨_, _, _, _, _, rfl, .inr ⟨w, hp, rfl⟩⟩
    · exact ⟨_, _, _, _, _, rfl, .inl rfl⟩

theorem checkXoff_frame (s : State) : ∃ armed flow, s.checkXoff = { s with txArmed := armed, flow := flow } := by
  unfold State.checkXoff
  split_ifs
  · exact ⟨_, _, rfl⟩
  · exact ⟨_, _, rfl⟩

/-- The RXE step touches the write side of RX, FLOW with the arming, and `RTSIG` (R71, R130 to R133). -/
theorem rxeStep_frame (b : Byte) (s : State) :
    ∃ head mem armed flow rtsig obs,
      rxeStep b s = { s with
        rxHead := head, rxMem := mem, txArmed := armed, flow := flow, rtsig := rtsig, obs := obs } ∧
      s.obs <+: obs := by
  have one : ∀ e, s.obs <+: s.obs ++ [e] := fun e => List.prefix_append _ _
  have two : ∀ e f, s.obs <+: s.obs ++ [e] ++ [f] := fun e f => (one e).trans (List.prefix_append _ _)
  unfold rxeStep
  split_ifs
  · exact ⟨_, _, _, _, _, _, rfl, one _⟩
  · unfold State.realtime
    split_ifs
    case pos | pos | pos => exact ⟨_, _, _, _, _, _, rfl, one _⟩
    · exact ⟨_, _, _, _, _, _, rfl, two _ _⟩
    · exact ⟨_, _, _, _, _, _, rfl, one _⟩
  · unfold State.buffer
    split_ifs
    · exact ⟨_, _, _, _, _, _, rfl, two _ _⟩
    · obtain ⟨armed, flow, he⟩ := checkXoff_frame ((s.emit (.lineIn b)).rxPush b)
      exact ⟨_, _, armed, flow, _, _, he, one _⟩

theorem disarm_frame (s : State) : ∃ armed, s.disarm = { s with txArmed := armed } := by
  unfold State.disarm
  split_ifs
  · exact ⟨_, rfl⟩
  · exact ⟨_, rfl⟩

theorem transmit_frame (s : State) :
    ∃ tail flow obs, s.transmit = { s with txTail := tail, flow := flow, obs := obs } ∧ s.obs <+: obs := by
  unfold State.transmit
  split_ifs
  case pos | pos => exact ⟨_, _, _, rfl, List.prefix_append _ _⟩
  · exact ⟨_, _, _, rfl, List.prefix_refl _⟩
  · exact ⟨_, _, _, rfl, List.prefix_append _ _⟩

/-- The TXE step touches the read side of TX and FLOW with the arming (R71, R134 to R137). -/
theorem txeStep_frame (s : State) :
    ∃ tail armed flow obs,
      txeStep s = { s with txTail := tail, txArmed := armed, flow := flow, obs := obs } ∧ s.obs <+: obs := by
  unfold txeStep
  split_ifs
  · obtain ⟨tail, flow, obs, ht, hobs⟩ := transmit_frame s
    obtain ⟨armed, hd⟩ := disarm_frame s.transmit
    exact ⟨tail, armed, flow, obs, by rw [hd, ht], hobs⟩
  · exact ⟨_, _, _, _, rfl, List.prefix_refl _⟩

/-- What every agent's step keeps, whosever turn it is and wherever the script stands, every step keeps. -/
theorem step_keeps {P : State → Prop} (hturn : ∀ s ts rest, P s → P { s with turns := ts, script := rest })
    (hagent : ∀ u s t, P s → agentStep u s = .next t → P t) (hs : P s) (h : step s = .next t) : P t := by
  obtain ⟨-, ⟨-, rfl⟩ | ⟨u, ts, rest, -, -, hu⟩⟩ := step_cases h
  · exact hs
  · exact hagent u _ _ (hturn s ts rest hs) hu

/-! The invariants of the registers (R42) -/

/-- The capacities fit the eight bits of a ring index (R4). -/
theorem caps_le_of_registersOk (h : RegistersOk s) : s.cfg.rxCap ≤ 256 ∧ s.cfg.txCap ≤ 256 := by
  obtain ⟨⟨-, hrx⟩, ⟨-, htx⟩, -⟩ := caps_of_wf h.wf
  exact ⟨hrx, htx⟩

theorem registersOk_pend (h : RegistersOk s) (q : Option Pend) : RegistersOk { s with pend := q } :=
  registersOk_congr h rfl rfl rfl rfl rfl rfl rfl

/-- The end of a command touches none of the registers of R42. -/
theorem registersOk_complete (h : RegistersOk s) (w : Word) (e : Err) : RegistersOk (s.complete w e) :=
  registersOk_congr h rfl rfl rfl rfl rfl rfl rfl

theorem registersOk_writeByte (h : RegistersOk s) (a : Nat) (v : Byte) : RegistersOk (s.writeByte a v) :=
  registersOk_congr h rfl rfl rfl rfl rfl rfl rfl

theorem registersOk_emit (h : RegistersOk s) (e : Event) : RegistersOk (s.emit e) :=
  registersOk_congr h rfl rfl rfl rfl rfl rfl rfl

/-- `FLOW` may change with flow control on and the transmit path armed, to XON only below the high watermark (R136). -/
theorem registersOk_of_flow {f : Flow} (h : RegistersOk s) (hf : s.cfg.flowControl = true) (ha : s.txArmed = true)
    (hb : f = .xonAsserted → s.rxOcc < s.cfg.highWm) : RegistersOk { s with flow := f } where
  wf := h.wf
  rxHead := h.rxHead
  rxTail := h.rxTail
  txHead := h.txHead
  txTail := h.txTail
  flowOff := fun hoff => absurd (hf.symm.trans hoff) nofun
  flowArmed := fun _ => ha
  payloadArmed := fun _ => ha
  belowHigh := fun hx _ => hb hx

/-- A byte appended, with the XOFF check: the check fires where the append reaches the high watermark (R132, R133). -/
theorem registersOk_push (h : RegistersOk s) (b : Byte) : RegistersOk (s.rxPush b).checkXoff := by
  have hhead := inc_lt h.rxHead (caps_le_of_registersOk h).1
  by_cases hx : (s.rxPush b).cfg.flowControl = true ∧ (s.rxPush b).flow = .xonAsserted ∧
      (s.rxPush b).cfg.highWm ≤ (s.rxPush b).rxOcc
  · obtain ⟨hf, hx, ho⟩ := hx
    rw [checkXoff_of_high hf hx ho]
    exact { wf := h.wf, rxHead := hhead, rxTail := h.rxTail, txHead := h.txHead, txTail := h.txTail
            flowOff := fun hoff => absurd (hf.symm.trans hoff) nofun
            flowArmed := fun _ => rfl, payloadArmed := fun _ => rfl, belowHigh := nofun }
  · rw [checkXoff_of_not hx]
    exact { h with
      rxHead := hhead
      belowHigh := fun hxon hon => Nat.lt_of_not_le fun ho => hx ⟨hon, hxon, ho⟩ }

/-- A byte removed, with the XON check: the occupancy falls, so it stays below the high watermark (R115). -/
theorem registersOk_pop (h : RegistersOk s) (hne : s.rxHead ≠ s.rxTail) : RegistersOk s.rxPop.checkXon := by
  have htail := inc_lt h.rxTail (caps_le_of_registersOk h).1
  obtain ⟨-, hocc, -⟩ := rxContents_pop h hne
  by_cases hx : s.rxPop.cfg.flowControl = true ∧ s.rxPop.flow = .xoffAsserted ∧ s.rxPop.rxOcc < s.rxPop.cfg.lowWm
  · obtain ⟨hf, hx, ho⟩ := hx
    rw [checkXon_of_low hf hx ho]
    exact { wf := h.wf, rxHead := h.rxHead, rxTail := htail, txHead := h.txHead, txTail := h.txTail
            flowOff := fun hoff => absurd (hf.symm.trans hoff) nofun
            flowArmed := fun _ => rfl, payloadArmed := fun _ => rfl, belowHigh := nofun }
  · rw [checkXon_of_not hx]
    exact { h with
      rxTail := htail
      belowHigh := fun hxon hon => by
        have := h.belowHigh hxon hon
        simp only [rxPop_cfg]; omega }

/-- An empty RX with FLOW at its reset value (R116, R231). -/
theorem registersOk_serResetRx (h : RegistersOk s) :
    RegistersOk { s with rxTail := s.rxHead, flow := .xonAsserted } :=
  { h with
    rxTail := h.rxHead
    flowOff := fun _ => rfl
    flowArmed := nofun
    belowHigh := fun _ _ => by
      have := caps_of_wf h.wf
      simp only [State.rxOcc, occ_self]; omega }

theorem registersOk_txPush (h : RegistersOk s) (b : Byte) : RegistersOk { s.txPush b with txArmed := true } :=
  { h with
    txHead := inc_lt h.txHead (caps_le_of_registersOk h).2
    flowArmed := fun _ => rfl
    payloadArmed := fun _ => rfl }

theorem registersOk_txPop (h : RegistersOk s) (ha : s.txArmed = true) : RegistersOk s.txPop :=
  { h with
    txTail := inc_lt h.txTail (caps_le_of_registersOk h).2
    payloadArmed := fun _ => ha }

/-- The disarm check disarms only with nothing left to send; with flow control off no flow byte is (R137). -/
theorem registersOk_disarm (h : RegistersOk s) : RegistersOk s.disarm := by
  by_cases hd : s.txHead = s.txTail ∧ s.flowPending = false
  · obtain ⟨he, hf⟩ := hd
    have hidle : s.flow.pending = false := by
      cases hc : s.cfg.flowControl with
      | false => rw [h.flowOff hc]; rfl
      | true => simpa [State.flowPending, hc] using hf
    rw [disarm_of_drained he hf]
    exact { h with
      flowArmed := fun hp => by simp [hidle] at hp
      payloadArmed := fun hne => absurd he hne }
  · rwa [State.disarm, if_neg hd]

/-- What one transmit-ready event of an armed path sends: a pending flow byte, nothing, or payload (R135, R136). -/
theorem registersOk_transmit (h : RegistersOk s) (ha : s.txArmed = true) : RegistersOk s.transmit := by
  unfold State.transmit
  split_ifs with hxoff hxon hempty
  · refine registersOk_of_flow (registersOk_emit h _) hxoff.1 ha fun hf => ?_
    unfold State.flowAfterXoff at hf
    split_ifs at hf
  · refine registersOk_of_flow (registersOk_emit h _) hxon.1 ha fun hf => ?_
    unfold State.flowAfterXon at hf
    split_ifs at hf with ho
    exact Nat.lt_of_not_le ho
  · exact h
  · exact registersOk_emit (registersOk_txPop h ha) _

theorem registersOk_txeStep (h : RegistersOk s) : RegistersOk (txeStep s) := by
  unfold txeStep
  split_ifs with he
  · obtain ⟨-, ha⟩ := Bool.and_eq_true_iff.1 he
    exact registersOk_disarm (registersOk_transmit h ha)
  · exact h

/-- A realtime byte acts on no register of R42 (R131). -/
theorem registersOk_realtime (h : RegistersOk s) (b : Byte) : RegistersOk (s.realtime b) := by
  unfold State.realtime
  split_ifs
  case pos | pos | pos => exact registersOk_congr h rfl rfl rfl rfl rfl rfl rfl
  · exact registersOk_emit h _
  · exact h

theorem registersOk_rxeStep (h : RegistersOk s) (b : Byte) : RegistersOk (rxeStep b s) := by
  unfold rxeStep
  split_ifs
  · exact registersOk_emit h _
  · exact registersOk_realtime (registersOk_emit h _) b
  · unfold State.buffer
    split_ifs
    · exact registersOk_emit (registersOk_emit h _) _
    · exact registersOk_push (registersOk_emit h _) b

theorem registersOk_finishProgramming (h : RegistersOk s) : RegistersOk s.finishProgramming :=
  registersOk_congr h (by simp) (by simp) (by simp) (by simp) (by simp) (by simp) (by simp)

/-- The reset values meet the invariants of R42 in every well-formed configuration (R231). -/
theorem registersOk_resetValues (h : s.cfg.Wf) : RegistersOk s.resetValues := by
  obtain ⟨hrx, htx, hlow, hhigh, -⟩ := caps_of_wf h
  have hr : 0 < s.cfg.rxCap := by omega
  have ht : 0 < s.cfg.txCap := by omega
  exact { wf := h, rxHead := hr, rxTail := hr, txHead := ht, txTail := ht
          flowOff := fun _ => rfl, flowArmed := nofun, payloadArmed := fun hne => absurd rfl hne
          belowHigh := fun _ _ => by simp [State.rxOcc]; omega }

theorem registersOk_exec (h : RegistersOk s) (hx : exec i s = .next t) : RegistersOk t := by
  cases i with
  | nop => cases hx; exact registersOk_complete h _ _
  | serInit =>
    obtain rfl | ⟨d, rfl⟩ := execSerInit_cases hx
    all_goals exact registersOk_congr h rfl rfl rfl rfl rfl rfl rfl
  | serWrite b =>
    obtain ⟨-, rfl⟩ | ⟨-, -, rfl⟩ | ⟨-, -, rfl⟩ := execSerWrite_cases hx
    · exact registersOk_complete (registersOk_txPush h b) _ _
    · exact registersOk_complete h _ _
    · exact h
  | serRead =>
    obtain ⟨-, rfl⟩ | ⟨hne, rfl⟩ := execSerRead_cases hx
    · exact registersOk_complete h _ _
    · exact registersOk_complete (registersOk_pop h hne) _ _
  | serResetRx => cases hx; exact registersOk_complete (registersOk_serResetRx h) _ _
  | rtsigClear m => cases hx; exact registersOk_congr h rfl rfl rfl rfl rfl rfl rfl
  | nvRead a =>
    obtain ⟨-, rfl⟩ | ⟨-, -, rfl⟩ | ⟨-, -, rfl⟩ := execNvRead_cases hx
    · exact registersOk_complete h _ _
    · exact registersOk_complete h _ _
    · exact h
  | nvWrite a v =>
    obtain ⟨-, rfl⟩ | ⟨-, -, rfl⟩ | ⟨-, -, rfl⟩ := execNvWrite_cases hx
    · exact registersOk_complete h _ _
    · exact registersOk_complete (registersOk_writeByte h _ _) _ _
    · exact h
  | nvWriteBlock a =>
    obtain ⟨e, -, rfl⟩ | ⟨-, -, rfl⟩ | ⟨-, -, -, ⟨-, b, -, rfl⟩ | ⟨-, rfl⟩⟩ := execNvWriteBlock_cases rfl hx
    · exact registersOk_complete h _ _
    · exact h
    · exact registersOk_pend (registersOk_writeByte h _ _) _
    · exact registersOk_complete (registersOk_writeByte h _ _) _ _
  | nvReadBlock a =>
    obtain ⟨e, -, rfl⟩ | ⟨-, -, rfl⟩ | ⟨-, -, rfl⟩ := execNvReadBlock_cases rfl hx
    · exact registersOk_complete h _ _
    · exact h
    · exact registersOk_congr h rfl rfl rfl rfl rfl rfl rfl
  | bufPut j v =>
    obtain ⟨-, rfl⟩ | ⟨-, rfl⟩ := execBufPut_cases hx
    all_goals exact registersOk_congr h rfl rfl rfl rfl rfl rfl rfl
  | bufGet j =>
    obtain ⟨-, rfl⟩ | ⟨-, b, -, rfl⟩ := execBufGet_cases hx
    all_goals exact registersOk_complete h _ _

theorem registersOk_ceStep (h : RegistersOk s) (hx : ceStep s = .next t) : RegistersOk t := by
  obtain ⟨-, rfl⟩ | ⟨p, e, -, -, rfl⟩ | ⟨p, i, -, -, hi⟩ := ceStep_cases hx
  · exact h
  · exact registersOk_complete h _ _
  · exact registersOk_exec h hi

theorem registersOk_agentStep (u : Turn) (s t : State) (h : RegistersOk s) (hx : agentStep u s = .next t) :
    RegistersOk t := by
  cases u with
  | host =>
    obtain ⟨arg, pend, held, script, reads, rfl, -⟩ := hostStep_frame hx
    exact registersOk_congr h rfl rfl rfl rfl rfl rfl rfl
  | ce => exact registersOk_ceStep h hx
  | rxe b => cases hx; exact registersOk_rxeStep h b
  | txe => cases hx; exact registersOk_txeStep h
  | nve => cases hx; exact registersOk_finishProgramming h
  | abort l => cases hx; exact registersOk_congr h rfl rfl rfl rfl rfl rfl rfl
  | reset => cases hx; exact registersOk_resetValues (by simpa using h.wf)
  | powerLoss =>
    cases hx
    have hwf : (s.emit .powerLoss).interruptProgramming.cfg.Wf := by simpa using h.wf
    exact registersOk_congr (registersOk_resetValues hwf) rfl rfl rfl rfl rfl rfl rfl

end

/-- Settles O47: each agent's step keeps the invariants, and the order of turns is none of their business. -/
theorem registerInvariantsAreKept : Obligations.RegisterInvariantsAreKept := fun _ _ h hx =>
  step_keeps (fun _ _ _ h => registersOk_congr h rfl rfl rfl rfl rfl rfl rfl) registersOk_agentStep h hx

end Sys2Proof.Machine

/-! PROOF. The records of the store (10_state.md R39, R40): an operation in flight will leave its value, and a block write under way
has passed its checks, whatever steps come between. -/

namespace Sys2Proof.Machine

open Sys2Proof.Safety

section

variable {s t : State} {i : Instr} {p : Pend}

/-! The operation in flight (R40, R162, R163) -/

/-- Clearing the bits in which a byte differs loses nothing when no bit has to be set: a write alone reaches the value (R163). -/
theorem and_eq_right_of_clears {old v : Byte} (h : (old ^^^ v) &&& v = 0) : old &&& v = v := by
  apply BitVec.eq_of_getLsbD_eq
  intro n hn
  have hbit := congrArg (BitVec.getLsbD · n) h
  revert hbit
  simp only [BitVec.getLsbD_and, BitVec.getLsbD_xor]
  cases old.getLsbD n <;> cases v.getLsbD n <;> simp

/-- The decided operation leaves exactly the value it was decided for (R163, derived). -/
theorem programmed_selectMode (old v : Byte) : programmed (selectMode old v) old v = v := by
  unfold selectMode
  dsimp only
  split_ifs with hboth herase hdiff
  · exact BitVec.allOnes_and
  · exact herase.2.symm
  · refine and_eq_right_of_clears ?_
    by_contra hset
    exact herase ⟨hset, by_contra fun hv => hboth ⟨hset, hv⟩⟩
  · exact BitVec.xor_eq_zero_iff.1 (not_not.1 hdiff)

/-- An operation is issued for every decision but NoOp (R165). -/
theorem issued_eq_some {a : Nat} {m : NvMode} {v : Byte} {f : InFlight} :
    issued a m v = some f ↔ m ≠ .noOp ∧ f = ⟨BitVec.ofNat 16 a, m, v⟩ := by
  unfold issued
  split_ifs with h
  · simp [h]
  · simp [h, eq_comm]

/-- What an operation in flight means between steps: the `inflight` part of `StoreOk` (R40, R160, R163). -/
def InflightOk (s : State) : Prop :=
  ∀ f, s.nvInflight = some f →
    f.addr.toNat < s.cfg.nvSize ∧ f.mode ≠ .noOp ∧ programmed f.mode (s.nvByte f.addr.toNat) f.value = f.value

theorem inflightOk_of_idle (h : s.nvInflight = none) : InflightOk s := fun f hf => by simp [h] at hf

theorem inflightOk_congr (h : InflightOk s) (hc : t.cfg = s.cfg) (hn : t.nv = s.nv) (hi : t.nvInflight = s.nvInflight) :
    InflightOk t := by
  unfold InflightOk State.nvByte
  rw [hc, hn, hi]
  exact h

/-- `writeByte` at a legal address issues only an operation that will leave its value (R163, R165). -/
theorem inflightOk_writeByte (hw : s.cfg.Wf) {a : Nat} (ha : a < s.cfg.nvSize) (v : Byte) :
    InflightOk (s.writeByte a v) := by
  intro f hf
  obtain ⟨hmode, rfl⟩ := issued_eq_some.1 hf
  obtain ⟨⟨-, -, ⟨-, hsize⟩, -⟩, -⟩ := hw
  have haddr : (BitVec.ofNat 16 a).toNat = a := by
    rw [BitVec.toNat_ofNat]; exact Nat.mod_eq_of_lt (by omega)
  refine ⟨haddr.trans_lt ha, hmode, ?_⟩
  rw [haddr, nvByte_writeByte]
  exact programmed_selectMode _ v

/-! The invariant of the store -/

/-- With no command pending, only the operation in flight matters. -/
theorem storeOk_of_noCommand (hw : t.cfg.Wf) (hi : InflightOk t) (hp : t.pend = none) : StoreOk t where
  wf := hw
  inflight := hi
  underway := fun p h => by simp [hp] at h
  running := fun p h => by simp [hp] at h

/-- A step that ends its command and neither issues nor completes an operation. -/
theorem storeOk_of_completed (h : StoreOk s) (hc : t.cfg = s.cfg) (hn : t.nv = s.nv) (hi : t.nvInflight = s.nvInflight)
    (hp : t.pend = none) : StoreOk t :=
  storeOk_of_noCommand (hc ▸ h.wf) (inflightOk_congr h.inflight hc hn hi) hp

theorem storeOk_complete (h : StoreOk s) (w : Word) (e : Err) : StoreOk (s.complete w e) :=
  storeOk_of_completed h rfl rfl rfl rfl

/-- The command part of `StoreOk` reads the pending record, the block buffer and the configuration only, so the cells and the
operation in flight are free to change. -/
theorem storeOk_of_samePend (h : StoreOk s) (hi : InflightOk t) (hc : t.cfg = s.cfg) (hb : t.blk = s.blk)
    (hp : t.pend = s.pend) : StoreOk t := by
  have hslot : t.blkByte = s.blkByte := by unfold State.blkByte; rw [hb]
  obtain ⟨hw, -, hu, hr⟩ := h
  constructor
  case wf => exact hc ▸ hw
  case inflight => exact hi
  case underway => unfold State.blockError State.blkWritten; rw [hc, hp, hslot]; exact hu
  case running => unfold blkBytes; rw [hp, hslot]; exact hr

/-- `StoreOk` reads five fields. -/
theorem storeOk_congr (h : StoreOk s) (hc : t.cfg = s.cfg) (hn : t.nv = s.nv) (hi : t.nvInflight = s.nvInflight)
    (hb : t.blk = s.blk) (hp : t.pend = s.pend) : StoreOk t :=
  storeOk_of_samePend h (inflightOk_congr h.inflight hc hn hi) hc hb hp

/-- A freshly accepted command has no bytes done and the checksum of none (R39, R110). -/
theorem storeOk_accepted (h : StoreOk s) (hc : t.cfg = s.cfg) (hn : t.nv = s.nv) (hi : t.nvInflight = s.nvInflight)
    {w arg : Word} (hp : t.pend = some (acceptedCommand w arg)) : StoreOk t where
  wf := hc ▸ h.wf
  inflight := inflightOk_congr h.inflight hc hn hi
  underway := fun p h hne => by
    obtain rfl := Option.some.inj (hp.symm.trans h)
    exact absurd rfl hne
  running := fun p h => by
    obtain rfl := Option.some.inj (hp.symm.trans h)
    rfl

/-! The block write (R169 to R171) -/

/-- The record a block write works on is its own: `OP` 0x12 and the operand's address (R91, R92). -/
theorem op_addr_of_nvWriteBlock {a : Addr} (hd : decode p.word = .ok (.nvWriteBlock a)) : p.op = 0x12#8 ∧ p.addr = a := by
  have hop : p.op = 0x12#8 := by simpa [Pend.word, encode] using opField_of_decode hd
  rw [Pend.word, decode_packWord, hop] at hd
  exact ⟨hop, Instr.nvWriteBlock.inj (Except.ok.inj hd)⟩

/-- A block write that raises no error has passed its checks: now at step 0, earlier at a later step (R169, R202). -/
theorem blockError_of_noError (h : StoreOk s) (hp : s.pend = some p) (he : s.writeBlockError p.addr.toNat p = none) :
    s.blockError p.addr.toNat p.len = none := by
  by_cases hi : p.i = 0
  · rwa [State.writeBlockError, if_pos hi] at he
  · obtain ⟨-, hok, -⟩ := h.underway p hp hi
    exact hok

/-- The bytes done are one more when the next slot is written. -/
theorem blkBytes_succ {n : Nat} {b : Byte} (h : s.blkByte n = some b) : blkBytes s (n + 1) = blkBytes s n ++ [b] := by
  simp [blkBytes, List.range_succ, h]

/-- A payload step: one more byte done, its checksum taken, its operation issued (R170). -/
theorem storeOk_payload (h : StoreOk s) (hp : s.pend = some p) (hop : p.op = 0x12#8)
    (hok : s.blockError p.addr.toNat p.len = none) (hblk : s.blkWritten p.len = true) (hlt : p.i.toNat < p.len) {b : Byte}
    (hb : s.blkByte p.i.toNat = some b) :
    StoreOk { s.writeByte (p.addr.toNat + p.i.toNat) b with
      pend := some { p with i := p.i + 1, acc := csumStep p.acc b } } := by
  obtain ⟨-, hrange⟩ := blockError_eq_none.1 hok
  have hcount : (p.i + 1).toNat = p.i.toNat + 1 := by
    have hlen : p.len < 65536 := BitVec.isLt _
    rw [BitVec.toNat_add]; exact Nat.mod_eq_of_lt (by simp; omega)
  constructor
  case wf => exact h.wf
  case inflight =>
    exact inflightOk_congr (inflightOk_writeByte h.wf (a := p.addr.toNat + p.i.toNat) (by omega) b) rfl rfl rfl
  case underway =>
    rintro q hq -
    obtain rfl := Option.some.inj hq
    exact ⟨hop, hok, hcount.trans_le hlt, hblk⟩
  case running =>
    intro q hq
    obtain rfl := Option.some.inj hq
    calc csumStep p.acc b = csumStep (csum (blkBytes s p.i.toNat)) b := by rw [h.running p hp]
      _ = csum (blkBytes s (p.i.toNat + 1)) := by rw [blkBytes_succ hb, csum_append]
      _ = csum (blkBytes s (p.i + 1).toNat) := by rw [hcount]

/-- Every step of a block write (R169 to R171). -/
theorem storeOk_execNvWriteBlock {a : Addr} (h : StoreOk s) (hp : s.pend = some p)
    (hd : decode p.word = .ok (.nvWriteBlock a)) (hx : execNvWriteBlock a s = .next t) : StoreOk t := by
  obtain ⟨hop, rfl⟩ := op_addr_of_nvWriteBlock hd
  obtain ⟨e, -, rfl⟩ | ⟨-, -, rfl⟩ | ⟨he, -, hslots, hstep⟩ := execNvWriteBlock_cases (command_of_pending hp _) hx
  · exact storeOk_complete h _ _
  · exact h
  · have hok := blockError_of_noError h hp he
    obtain ⟨hlt, b, hb, rfl⟩ | ⟨-, rfl⟩ := hstep
    · have hblk : s.blkWritten p.len = true := by
        by_cases hi : p.i = 0
        · exact hslots hi
        · obtain ⟨-, -, -, hblk⟩ := h.underway p hp hi
          exact hblk
      exact storeOk_payload h hp hop hok hblk hlt hb
    · obtain ⟨-, hrange⟩ := blockError_eq_none.1 hok
      exact storeOk_of_noCommand h.wf (inflightOk_congr (inflightOk_writeByte h.wf hrange p.acc) rfl rfl rfl) rfl

/-! Every step -/

theorem storeOk_exec (h : StoreOk s) (hp : s.pend = some p) (hd : decode p.word = .ok i) (hx : exec i s = .next t) :
    StoreOk t := by
  cases i with
  | nop => cases hx; exact storeOk_complete h _ _
  | serInit =>
    obtain rfl | ⟨d, rfl⟩ := execSerInit_cases hx
    all_goals exact storeOk_of_completed h rfl rfl rfl rfl
  | serWrite b =>
    obtain ⟨-, rfl⟩ | ⟨-, -, rfl⟩ | ⟨-, -, rfl⟩ := execSerWrite_cases hx
    · exact storeOk_of_completed h rfl rfl rfl rfl
    · exact storeOk_complete h _ _
    · exact h
  | serRead =>
    obtain ⟨-, rfl⟩ | ⟨-, rfl⟩ := execSerRead_cases hx
    · exact storeOk_complete h _ _
    · exact storeOk_of_completed h (by simp) (by simp) (by simp) rfl
  | serResetRx => cases hx; exact storeOk_of_completed h rfl rfl rfl rfl
  | rtsigClear m => cases hx; exact storeOk_of_completed h rfl rfl rfl rfl
  | nvRead a =>
    obtain ⟨-, rfl⟩ | ⟨-, -, rfl⟩ | ⟨-, -, rfl⟩ := execNvRead_cases hx
    · exact storeOk_complete h _ _
    · exact storeOk_complete h _ _
    · exact h
  | nvWrite a v =>
    obtain ⟨-, rfl⟩ | ⟨ha, -, rfl⟩ | ⟨-, -, rfl⟩ := execNvWrite_cases hx
    · exact storeOk_complete h _ _
    · exact storeOk_of_noCommand h.wf (inflightOk_congr (inflightOk_writeByte h.wf ha v) rfl rfl rfl) rfl
    · exact h
  | nvWriteBlock a => exact storeOk_execNvWriteBlock h hp hd hx
  | nvReadBlock a =>
    obtain ⟨e, -, rfl⟩ | ⟨-, -, rfl⟩ | ⟨-, -, rfl⟩ := execNvReadBlock_cases rfl hx
    · exact storeOk_complete h _ _
    · exact h
    · exact storeOk_of_completed h rfl rfl rfl rfl
  | bufPut j v =>
    obtain ⟨-, rfl⟩ | ⟨-, rfl⟩ := execBufPut_cases hx
    all_goals exact storeOk_of_completed h rfl rfl rfl rfl
  | bufGet j =>
    obtain ⟨-, rfl⟩ | ⟨-, b, -, rfl⟩ := execBufGet_cases hx
    all_goals exact storeOk_complete h _ _

theorem storeOk_ceStep (h : StoreOk s) (hx : ceStep s = .next t) : StoreOk t := by
  obtain ⟨-, rfl⟩ | ⟨p, e, -, -, rfl⟩ | ⟨p, i, hp, hd, hi⟩ := ceStep_cases hx
  · exact h
  · exact storeOk_complete h _ _
  · exact storeOk_exec h hp hd hi

theorem storeOk_hostStep (h : StoreOk s) (hx : hostStep s = .next t) : StoreOk t := by
  obtain ⟨arg, pend, held, script, reads, rfl, rfl | ⟨w, -, rfl⟩⟩ := hostStep_frame hx
  · exact storeOk_congr h rfl rfl rfl rfl rfl
  · exact storeOk_accepted h rfl rfl rfl rfl

/-- A completed operation is over, and the command part reads no cell (R164). -/
theorem storeOk_finishProgramming (h : StoreOk s) : StoreOk s.finishProgramming :=
  storeOk_of_samePend h (inflightOk_of_idle (by simp)) (by simp) (by simp) (by simp)

theorem storeOk_agentStep (u : Turn) (s t : State) (h : StoreOk s) (hx : agentStep u s = .next t) : StoreOk t := by
  cases u with
  | host => exact storeOk_hostStep h hx
  | ce => exact storeOk_ceStep h hx
  | rxe b =>
    cases hx
    obtain ⟨_, _, _, _, _, _, he, -⟩ := rxeStep_frame b s
    exact he ▸ storeOk_congr h rfl rfl rfl rfl rfl
  | txe =>
    cases hx
    obtain ⟨_, _, _, _, he, -⟩ := txeStep_frame s
    exact he ▸ storeOk_congr h rfl rfl rfl rfl rfl
  | nve => cases hx; exact storeOk_finishProgramming h
  | abort l => cases hx; exact storeOk_congr h rfl rfl rfl rfl rfl
  | reset => cases hx; exact storeOk_of_noCommand (by simpa [resetStep] using h.wf) (inflightOk_of_idle rfl) rfl
  | powerLoss => cases hx; exact storeOk_of_noCommand (by simpa [powerLossStep] using h.wf) (inflightOk_of_idle rfl) rfl

end

/-- Settles O51: only the CE counts bytes and only `writeByte` issues, and both carry the invariant on. -/
theorem storeInvariantIsKept : Obligations.StoreInvariantIsKept := fun _ _ h hx =>
  step_keeps (fun _ _ _ h => storeOk_congr h rfl rfl rfl rfl rfl) storeOk_agentStep h hx

end Sys2Proof.Machine

/-! PROOF. What only a named event changes: the configuration never, `ABORT_IN` by ENV, `SER_EN` down by a reset or power loss,
the observation record at its end (10_state.md R24, R41). -/

namespace Sys2Proof.Machine

section

variable {s t : State} {i : Instr} {u : Turn}

/-- What a step leaves that is neither ENV driving `ABORT_IN` nor a reset nor a power loss. -/
structure LeavesEnv (s t : State) : Prop where
  cfg : t.cfg = s.cfg
  abortIn : t.abortIn = s.abortIn
  serEn : s.serEn = true → t.serEn = true
  obs : s.obs <+: t.obs

theorem leavesEnv_refl (s : State) : LeavesEnv s s := ⟨rfl, rfl, id, List.prefix_refl _⟩

/-- A step that observes nothing and does not touch `SER_EN`. -/
theorem leavesEnv_of_eq (hc : t.cfg = s.cfg) (ha : t.abortIn = s.abortIn) (he : t.serEn = s.serEn) (ho : t.obs = s.obs) :
    LeavesEnv s t := ⟨hc, ha, he.trans, ho ▸ List.prefix_refl _⟩

theorem leavesEnv_complete (s : State) (w : Word) (e : Err) : LeavesEnv s (s.complete w e) :=
  leavesEnv_of_eq rfl rfl rfl rfl

theorem leavesEnv_payload (s : State) (a : Nat) (b : Byte) (q : Option Pend) :
    LeavesEnv s { s.writeByte a b with pend := q } :=
  leavesEnv_of_eq rfl rfl rfl rfl

/-- No command observes anything, and the one that writes `SER_EN` sets it (R113). -/
theorem leavesEnv_exec (hx : exec i s = .next t) : LeavesEnv s t := by
  cases i with
  | nop => cases hx; exact leavesEnv_complete s _ _
  | serInit =>
    obtain rfl | ⟨d, rfl⟩ := execSerInit_cases hx
    · exact leavesEnv_complete s _ _
    · exact ⟨rfl, rfl, fun _ => rfl, List.prefix_refl _⟩
  | serWrite b =>
    obtain ⟨-, rfl⟩ | ⟨-, -, rfl⟩ | ⟨-, -, rfl⟩ := execSerWrite_cases hx
    · exact leavesEnv_of_eq rfl rfl rfl rfl
    · exact leavesEnv_complete s _ _
    · exact leavesEnv_refl _
  | serRead =>
    obtain ⟨-, rfl⟩ | ⟨-, rfl⟩ := execSerRead_cases hx
    · exact leavesEnv_complete s _ _
    · exact leavesEnv_of_eq (by simp) (by simp) (by simp) (by simp)
  | serResetRx => cases hx; exact leavesEnv_of_eq rfl rfl rfl rfl
  | rtsigClear m => cases hx; exact leavesEnv_of_eq rfl rfl rfl rfl
  | nvRead a =>
    obtain ⟨-, rfl⟩ | ⟨-, -, rfl⟩ | ⟨-, -, rfl⟩ := execNvRead_cases hx
    · exact leavesEnv_complete s _ _
    · exact leavesEnv_complete s _ _
    · exact leavesEnv_refl _
  | nvWrite a v =>
    obtain ⟨-, rfl⟩ | ⟨-, -, rfl⟩ | ⟨-, -, rfl⟩ := execNvWrite_cases hx
    · exact leavesEnv_complete s _ _
    · exact leavesEnv_of_eq (by simp) (by simp) (by simp) (by simp)
    · exact leavesEnv_refl _
  | nvWriteBlock a =>
    obtain ⟨e, -, rfl⟩ | ⟨-, -, rfl⟩ | ⟨-, -, -, ⟨-, b, -, rfl⟩ | ⟨-, rfl⟩⟩ := execNvWriteBlock_cases rfl hx
    · exact leavesEnv_complete s _ _
    · exact leavesEnv_refl _
    · exact leavesEnv_payload s _ _ _
    · exact leavesEnv_of_eq (by simp) (by simp) (by simp) (by simp)
  | nvReadBlock a =>
    obtain ⟨e, -, rfl⟩ | ⟨-, -, rfl⟩ | ⟨-, -, rfl⟩ := execNvReadBlock_cases rfl hx
    · exact leavesEnv_complete s _ _
    · exact leavesEnv_refl _
    · exact leavesEnv_of_eq rfl rfl rfl rfl
  | bufPut j v =>
    obtain ⟨-, rfl⟩ | ⟨-, rfl⟩ := execBufPut_cases hx
    all_goals exact leavesEnv_of_eq rfl rfl rfl rfl
  | bufGet j =>
    obtain ⟨-, rfl⟩ | ⟨-, b, -, rfl⟩ := execBufGet_cases hx
    all_goals exact leavesEnv_complete s _ _

theorem leavesEnv_ceStep (hx : ceStep s = .next t) : LeavesEnv s t := by
  obtain ⟨-, rfl⟩ | ⟨p, e, -, -, rfl⟩ | ⟨p, i, -, -, hi⟩ := ceStep_cases hx
  · exact leavesEnv_refl _
  · exact leavesEnv_complete s _ _
  · exact leavesEnv_exec hi

/-- What an agent's step can be for the environment: it leaves it, or it is ENV's own, with the level driven, or a reset or power
loss, which adds one event (R213, R230, R232). -/
theorem agentStep_env_cases (hx : agentStep u s = .next t) :
    LeavesEnv s t ∨ (∃ l, u = .abort l ∧ t = abortStep l s) ∨
    ((u = .reset ∨ u = .powerLoss) ∧ t.cfg = s.cfg ∧ t.abortIn = s.abortIn ∧ ∃ e, t.obs = s.obs ++ [e]) := by
  cases u with
  | host =>
    obtain ⟨arg, pend, held, script, reads, rfl, -⟩ := hostStep_frame hx
    exact .inl (leavesEnv_of_eq rfl rfl rfl rfl)
  | ce => exact .inl (leavesEnv_ceStep hx)
  | rxe b =>
    cases hx
    obtain ⟨_, _, _, _, _, _, he, hobs⟩ := rxeStep_frame b s
    exact .inl (he ▸ ⟨rfl, rfl, id, hobs⟩)
  | txe =>
    cases hx
    obtain ⟨_, _, _, _, he, hobs⟩ := txeStep_frame s
    exact .inl (he ▸ ⟨rfl, rfl, id, hobs⟩)
  | nve =>
    cases hx
    exact .inl (leavesEnv_of_eq (finishProgramming_cfg s) (finishProgramming_abortIn s) (finishProgramming_serEn s)
      (finishProgramming_obs s))
  | abort l => cases hx; exact .inr (.inl ⟨l, rfl, rfl⟩)
  | reset => cases hx; exact .inr (.inr ⟨.inl rfl, by simp [resetStep], by simp [resetStep], .reset, by simp [resetStep]⟩)
  | powerLoss =>
    cases hx
    exact .inr (.inr ⟨.inr rfl, by simp [powerLossStep], by simp [powerLossStep], .powerLoss, by simp [powerLossStep]⟩)

end

/-- Settles O43: the turns that leave the environment, that of `ABORT_IN`, and the two that clear `SER_EN`. -/
theorem onlyTheNamedEventsChange : Obligations.OnlyTheNamedEventsChange := by
  intro s t h
  obtain ⟨-, ⟨-, rfl⟩ | ⟨u, ts, rest, hturns, -, hu⟩⟩ := step_cases h
  · exact ⟨rfl, absurd rfl, fun h1 h0 => absurd (h1.symm.trans h0) nofun, [], (List.append_nil _).symm⟩
  · obtain ⟨hc, ha, he, new, ho⟩ | ⟨l, rfl, rfl⟩ | ⟨hr, hc, ha, e, ho⟩ := agentStep_env_cases hu
    · exact ⟨hc, absurd ha, fun h1 h0 => absurd ((he h1).symm.trans h0) nofun, new, ho.symm⟩
    · exact ⟨rfl, fun _ => ⟨l, ts, hturns, rfl⟩, fun h1 h0 => absurd (h1.symm.trans h0) nofun, [], (List.append_nil _).symm⟩
    · exact ⟨hc, absurd ha, fun _ _ => ⟨u, ts, hturns, hr⟩, [e], ho⟩

end Sys2Proof.Machine

/-! PROOF. The register window (10_state.md R25 to R38): what each access does, which bits each word shows, and the equations of
the step that lets the agents make them (R22). -/

namespace Sys2Proof.Machine

open Sys2Proof.Safety

section

variable {s : State} {p : Pend} {i : Instr} {w : Word} {rest : List ScriptStep}

/-! The step (R22) -/

theorem step_of_no_turn (hw : s.cfg.Wf) (h : s.turns = []) : step s = .next s := by
  rw [step, if_pos hw, h]

theorem step_of_turn {u : Turn} {ts : List Turn} (hw : s.cfg.Wf) (h : s.turns = u :: ts) :
    step s = agentStep u ({ s with turns := ts }.passNamed u) := by
  rw [step, if_pos hw, h]; rfl

theorem ceStep_of_pending (hp : s.pend = some p) (hd : decode p.word = .ok i) : ceStep s = exec i s := by
  simp [ceStep, State.pendingCommand, hp, hd]

/-- A script that stands at the statement naming the turn moves past it (R96). -/
theorem passNamed_of_named {u : Turn} (hh : s.held = none) (hu : u ≠ .host) (hs : s.script = .named u :: rest) :
    s.passNamed u = { s with script := rest } := by
  have hhead : s.script.head? = some (.named u) := by rw [hs]; rfl
  rw [State.passNamed, if_pos ⟨hh, hu, hhead⟩, State.advanceHost, hs]; rfl

/-- Otherwise it stays: a held write, the HOST's own turn, or another statement. -/
theorem passNamed_of_not_named {u : Turn} (h : s.held ≠ none ∨ u = .host ∨ ∀ rest, s.script ≠ .named u :: rest) :
    s.passNamed u = s := by
  refine if_neg ?_
  rintro ⟨hh, hu, hs⟩
  obtain hne | he | hne := h
  · exact hne hh
  · exact hu he
  · obtain ⟨rest, hrest⟩ := List.head?_eq_some_iff.1 hs
    exact hne rest hrest

/-! The accesses of the host (R25, R67, R68, R96) -/

/-- Every register stands at its offset. -/
@[simp] theorem regFor_offset (r : Reg) : regFor 32 r.offset = some r := by cases r <;> rfl

theorem busAccess_read (s : State) (r : Reg) :
    s.busAccess (.read 32 r.offset) = .next (s.advanceHost.returnRead r.offset (s.readReg r)) := by
  simp [State.busAccess]

theorem busAccess_write (s : State) (r : Reg) (w : Word) :
    s.busAccess (.write 32 r.offset w) = .next (s.advanceHost.writeReg r w) := by
  simp [State.busAccess]

theorem busAccess_poll_over {r : Reg} {mask value : Word} (h : s.readReg r &&& mask = value) :
    s.busAccess (.poll r.offset mask value) = .next (s.advanceHost.returnRead r.offset (s.readReg r)) := by
  simp [State.busAccess, h]

theorem busAccess_poll_again {r : Reg} {mask value : Word} (h : s.readReg r &&& mask ≠ value) :
    s.busAccess (.poll r.offset mask value) = .next (s.returnRead r.offset (s.readReg r)) := by
  simp [State.busAccess, h]

/-- Only `ARG` and `CMD` take a write (R68). -/
theorem writeReg_of_readOnly {r : Reg} (hc : r ≠ .cmd) (ha : r ≠ .arg) (w : Word) : s.writeReg r w = s := by
  cases r with
  | cmd => exact absurd rfl hc
  | arg => exact absurd rfl ha
  | _ => rfl

theorem writeReg_cmd_of_idle (hp : s.pend = none) (w : Word) : s.writeReg .cmd w = s.accept w := by
  simp [State.writeReg, State.writeCmd, hp]

theorem writeReg_cmd_of_pending (hp : s.pend ≠ none) (w : Word) : s.writeReg .cmd w = { s with held := some w } := by
  simp [State.writeReg, State.writeCmd, hp]

/-- With no write held the host makes the access its script stands at (R22). -/
theorem hostStep_of_access {op : HostOp} (hh : s.held = none) (hs : s.script = .access op :: rest) :
    hostStep s = s.busAccess op := by
  simp [hostStep, hh, hs]

theorem hostStep_of_write {r : Reg} (hh : s.held = none) (hs : s.script = .access (.write 32 r.offset w) :: rest) :
    hostStep s = .next ({ s with script := rest }.writeReg r w) := by
  rw [hostStep_of_access hh hs, busAccess_write, State.advanceHost, hs]; rfl

theorem hostStep_of_held_waits (hh : s.held = some w) (hp : s.pend ≠ none) : hostStep s = .next s := by
  simp [hostStep, hh, hp]

theorem hostStep_of_held_accepted (hh : s.held = some w) (hp : s.pend = none) :
    hostStep s = .next { s.accept w with held := none } := by
  simp [hostStep, hh, hp]

/-! The fields of a word (R6) -/

/-- A field laid at bit `n` is read back whole there. -/
theorem extract_field {k : Nat} (v : BitVec k) (n : Nat) (h : n + k ≤ 32) :
    (v.setWidth 32 <<< n : Word).extractLsb' n k = v := by
  apply BitVec.eq_of_getLsbD_eq
  intro j hj
  simp [hj, show n + j < 32 by omega]

/-- Elsewhere it shows nothing. -/
theorem extract_field_disjoint {k : Nat} (v : BitVec k) {n m l : Nat} (h : m + l ≤ n ∨ n + k ≤ m) :
    (v.setWidth 32 <<< n : Word).extractLsb' m l = 0 := by
  apply BitVec.eq_of_getLsbD_eq
  intro j hj
  rcases h with h | h
  · simp [show m + j < n by omega]
  · simp [BitVec.getLsbD_of_ge v (m + j - n) (by omega)]

/-- A field laid at bit 0 is not shifted. -/
theorem extract_low {k : Nat} (v : BitVec k) (h : k ≤ 32) : (v.setWidth 32 : Word).extractLsb' 0 k = v := by
  simpa using extract_field v 0 (by omega)

theorem extract_low_disjoint {k : Nat} (v : BitVec k) {m l : Nat} (h : k ≤ m) :
    (v.setWidth 32 : Word).extractLsb' m l = 0 := by
  simpa using extract_field_disjoint v (n := 0) (l := l) (.inr (by omega : 0 + k ≤ m))

/-! The words of the window (R29, R32, R33, R35, R36) -/

/-- The one-bit fields of `STATUS` (R29). -/
theorem statusWord_bits (s : State) :
    s.statusWord.getLsbD 0 = s.pend.isSome ∧ s.statusWord.getLsbD 1 = s.nvInflight.isSome ∧
    s.statusWord.getLsbD 2 = s.serEn ∧ s.statusWord.getLsbD 3 = s.txArmed ∧ s.statusWord.getLsbD 6 = s.doubleSpeed ∧
    s.statusWord.getLsbD 7 = s.abortIn := by
  simp [State.statusWord, bitAt, byteAt]

/-- The wider fields of `STATUS` and its reserved bits (R29). -/
theorem statusWord_fields (s : State) :
    s.statusWord.extractLsb' 4 2 = s.flow.code ∧ s.statusWord.extractLsb' 8 4 = s.err.code ∧
    s.statusWord.extractLsb' 12 4 = 0 ∧ s.statusWord.extractLsb' 16 8 = BitVec.ofNat 8 s.rxOcc ∧
    s.statusWord.extractLsb' 24 8 = BitVec.ofNat 8 s.txOcc := by
  simp [State.statusWord, bitAt, byteAt, BitVec.extractLsb'_or, extract_field, extract_field_disjoint,
    extract_low_disjoint]

theorem idxWord_fields (s : State) :
    s.idxWord.extractLsb' 0 8 = s.rxHead ∧ s.idxWord.extractLsb' 8 8 = s.rxTail ∧
    s.idxWord.extractLsb' 16 8 = s.txHead ∧ s.idxWord.extractLsb' 24 8 = s.txTail := by
  simp [State.idxWord, BitVec.extractLsb'_or, extract_field, extract_field_disjoint, extract_low, extract_low_disjoint]

theorem nvmodeWord_fields (s : State) :
    s.nvmodeWord.extractLsb' 0 2 = s.nvmodeLast.code ∧ s.nvmodeWord.getLsbD 2 = s.nvmodeValid ∧
    s.nvmodeWord.extractLsb' 3 29 = 0 := by
  refine ⟨?_, by simp [State.nvmodeWord, bitAt], ?_⟩
  all_goals
    simp [State.nvmodeWord, bitAt, BitVec.extractLsb'_or, extract_field_disjoint, extract_low, extract_low_disjoint]

theorem cfg0Word_fields (c : Config) :
    (cfg0Word c).extractLsb' 0 8 = BitVec.ofNat 8 (c.rxCap - 1) ∧
    (cfg0Word c).extractLsb' 8 8 = BitVec.ofNat 8 (c.txCap - 1) ∧
    (cfg0Word c).extractLsb' 16 8 = BitVec.ofNat 8 c.highWm ∧ (cfg0Word c).extractLsb' 24 8 = BitVec.ofNat 8 c.lowWm := by
  simp [cfg0Word, byteAt, BitVec.extractLsb'_or, extract_field, extract_field_disjoint, extract_low, extract_low_disjoint]

theorem cfg1Word_fields (c : Config) :
    (cfg1Word c).extractLsb' 0 16 = BitVec.ofNat 16 (c.nvSize - 1) ∧
    (cfg1Word c).extractLsb' 16 8 = BitVec.ofNat 8 (c.blockMax - 1) ∧
    (cfg1Word c).getLsbD 24 = c.flowControl ∧ (cfg1Word c).extractLsb' 25 7 = 0 := by
  refine ⟨?_, ?_, by simp [cfg1Word, byteAt, bitAt], ?_⟩
  all_goals
    simp [cfg1Word, byteAt, bitAt, BitVec.extractLsb'_or, extract_field, extract_field_disjoint, extract_low,
      extract_low_disjoint]

/-- After a reset `STATUS` shows the level of `ABORT_IN` and nothing else (R231). -/
theorem statusWord_resetStep (s : State) : (resetStep s).statusWord = if s.abortIn then 0x00000080 else 0 := by
  have hwords : (resetStep s).statusWord = bitAt s.abortIn 7 := by
    simp [State.statusWord, resetStep, State.rxOcc, State.txOcc, bitAt, byteAt, Flow.code, Err.code]
  rw [hwords]
  cases s.abortIn <;> rfl

/-- After a reset the ring indices are 0 (R231). -/
theorem idxWord_resetStep (s : State) : (resetStep s).idxWord = 0 := by
  simp [State.idxWord, resetStep]

/-- After a reset `NVMODE` shows no decision (R231). -/
theorem nvmodeWord_resetStep (s : State) : (resetStep s).nvmodeWord = 0 := by
  simp [State.nvmodeWord, resetStep, bitAt, NvMode.code]

/-! The counters and the state at the first power-up (R34, R166, R231) -/

theorem bump_get_same (c : ModeCounts) (m : NvMode) : (c.bump m).get m = c.get m + 1 := by cases m <;> rfl

theorem bump_get_other (c : ModeCounts) {m n : NvMode} (h : n ≠ m) : (c.bump m).get n = c.get n := by
  cases m with
  | noOp => cases n with
    | noOp => exact absurd rfl h
    | _ => rfl
  | eraseOnly => cases n with
    | eraseOnly => exact absurd rfl h
    | _ => rfl
  | writeOnly => cases n with
    | writeOnly => exact absurd rfl h
    | _ => rfl
  | eraseAndWrite => cases n with
    | eraseAndWrite => exact absurd rfl h
    | _ => rfl

end
/-! The statements -/

/-- Settles O6: the equations of the step and of the script. -/
theorem stepRunsPendingCommand : Obligations.StepRunsPendingCommand := by
  intro s hw
  refine ⟨fun ts p i ht hp hd => ?_, fun u ts ht => step_of_turn hw ht, fun u rest hh hu hs => passNamed_of_named hh hu hs,
    fun u h => passNamed_of_not_named h, step_of_no_turn hw⟩
  rw [step_of_turn hw ht]
  exact ceStep_of_pending (by simpa using hp) hd

/-- Settles O10: a CMD write, and a held one, each with and without a command pending. -/
theorem cmdWriteAcceptedOrHeld : Obligations.CmdWriteAcceptedOrHeld := by
  intro s w rest p hp
  obtain rfl : p = acceptedCommand w s.arg := hp
  refine ⟨word_acceptedCommand w s.arg, fun hh hs hidle => ?_, fun hh hs hpend => ?_,
    hostStep_of_held_waits, hostStep_of_held_accepted, rfl⟩
  · exact (hostStep_of_write (r := .cmd) hh hs).trans (congrArg _ (writeReg_cmd_of_idle (s := { s with script := rest }) hidle w))
  · exact (hostStep_of_write (r := .cmd) hh hs).trans (congrArg _ (writeReg_cmd_of_pending (s := { s with script := rest }) hpend w))

/-- Settles O11: the record made at acceptance holds `ARG`, and only a write to `ARG` or a reset changes `ARG`. -/
theorem argIsCopiedAtAcceptance : Obligations.ArgIsCopiedAtAcceptance := by
  refine ⟨fun s w rest hh hs => ⟨hostStep_of_write (r := .arg) hh hs, rfl⟩, fun s w hp => ?_,
    fun w arg => ⟨rfl, len_eq _⟩, rfl, fun s => rfl⟩
  rw [writeReg_cmd_of_idle hp, accept_pend]

/-- Settles O13: one equation for each kind of access and register. -/
theorem busSideEffectsOnlyOfArgAndCmd : Obligations.BusSideEffectsOnlyOfArgAndCmd := by
  intro s r w mask value
  refine ⟨busAccess_read s r, fun hc ha => ?_, busAccess_write s .arg w, fun hp => ?_, fun hp => ?_,
    busAccess_poll_over, busAccess_poll_again, rfl, rfl, rfl, rfl, rfl, rfl, ?_,
    rfl, rfl, rfl, rfl, rfl, rfl, rfl, rfl, rfl, rfl, rfl, rfl, rfl, rfl, rfl, rfl, rfl, rfl, rfl, rfl⟩
  · exact (busAccess_write s r w).trans (congrArg _ (writeReg_of_readOnly hc ha w))
  · exact (busAccess_write s .cmd w).trans (congrArg _ (writeReg_cmd_of_idle (s := s.advanceHost) hp w))
  · exact (busAccess_write s .cmd w).trans (congrArg _ (writeReg_cmd_of_pending (s := s.advanceHost) hp w))
  · exact BitVec.toNat_setWidth_of_le (by decide)

/-- Settles O14: the fields of the three words, and the words of the reset values. -/
theorem statusWordsShowLiveFields : Obligations.StatusWordsShowLiveFields := by
  intro s v
  obtain ⟨hbusy, hnv, hen, harmed, hdouble, habort⟩ := statusWord_bits s
  obtain ⟨hflow, herr, hreserved, hrx, htx⟩ := statusWord_fields s
  obtain ⟨hrxHead, hrxTail, htxHead, htxTail⟩ := idxWord_fields s
  obtain ⟨hlast, hvalid, hreserved'⟩ := nvmodeWord_fields s
  exact ⟨hbusy, hnv, hen, harmed, hflow, hdouble, habort, herr, hreserved,
    (congrArg BitVec.toNat hrx).trans (BitVec.toNat_ofNat ..), (congrArg BitVec.toNat htx).trans (BitVec.toNat_ofNat ..),
    rfl, rfl, rfl, rfl, rfl, rfl, rfl, rfl, rfl, hrxHead, hrxTail, htxHead, htxTail, hlast, hvalid, hreserved',
    rfl, rfl, rfl, rfl, statusWord_resetStep s, idxWord_resetStep s, nvmodeWord_resetStep s⟩

/-- Settles O15: the fields of the two words are wide enough for every well-formed configuration (R4). -/
theorem configurationWords : Obligations.ConfigurationWords := by
  intro s hw
  obtain ⟨⟨hrx, htx, hnv, hblk⟩, ⟨-, hlow, hhigh⟩, -⟩ := hw
  obtain ⟨hrxCap, htxCap, hhighWm, hlowWm⟩ := cfg0Word_fields s.cfg
  obtain ⟨hnvSize, hblockMax, hflow, hreserved⟩ := cfg1Word_fields s.cfg
  have byte : ∀ {n : Nat}, n < 256 → (BitVec.ofNat 8 n).toNat = n := fun h => Nat.mod_eq_of_lt h
  have half : ∀ {n : Nat}, n < 65536 → (BitVec.ofNat 16 n).toNat = n := fun h => Nat.mod_eq_of_lt h
  simp only [State.readReg]
  rw [hrxCap, htxCap, hhighWm, hlowWm, hnvSize, hblockMax]
  exact ⟨byte (by omega), byte (by omega), byte (by omega), byte (by omega), half (by omega), byte (by omega), hflow,
    hreserved⟩

/-- Settles O25: the counter counted is the mode's own, and it is 32 bits wide. -/
theorem modeCountersWrap : Obligations.ModeCountersWrap := by
  refine fun c m n => ⟨?_, bump_get_other c⟩
  rw [bump_get_same, BitVec.toNat_add]; rfl

/-- Settles O52: the rings are empty, nothing is pending and nothing is in flight. -/
theorem invariantsHoldAtReset : Obligations.InvariantsHoldAtReset := by
  have hregisters : RegistersOk State.reset := by constructor <;> decide
  obtain ⟨hrx, htx, hnv, hblk⟩ := reset_memories_wf
  exact ⟨hregisters, ⟨hrx, htx, hnv, hblk⟩, ⟨hregisters, nofun, nofun⟩, ⟨hregisters, nofun⟩,
    storeOk_of_noCommand hregisters.wf (inflightOk_of_idle rfl) rfl⟩

end Sys2Proof.Machine

/-! PROOF. The bus (20_memory.md R67): which accesses fault, and that a step faults for nothing else but an unwritten block slot
(60_exceptions.md R203). -/

namespace Sys2Proof.Machine

section

variable {s : State} {f : Fault}

/-- The register an access reaches; a poll is a read of 32 bits (R67, R96). -/
def HostOp.target : HostOp → Option Reg
  | .read width offset => regFor width offset
  | .write width offset _ => regFor width offset
  | .poll offset _ _ => regFor 32 offset

theorem busAccess_of_no_target {op : HostOp} (h : op.target = none) : s.busAccess op = .fault .busAccess := by
  cases op
  all_goals
    simp only [HostOp.target] at h
    simp only [State.busAccess, h]

theorem busAccess_answers {op : HostOp} (h : op.target ≠ none) : ∃ t, s.busAccess op = .next t := by
  obtain ⟨r, hr⟩ := Option.ne_none_iff_exists'.1 h
  cases op
  all_goals
    simp only [HostOp.target] at hr
    simp only [State.busAccess, hr]
    exact ⟨_, rfl⟩

/-- An access faults exactly when it reaches no register, and only in one way (R67). -/
theorem busAccess_fault_iff {op : HostOp} : s.busAccess op = .fault f ↔ f = .busAccess ∧ op.target = none := by
  constructor
  · intro h
    have ht : op.target = none := by
      by_contra hne
      obtain ⟨t, hn⟩ := busAccess_answers (s := s) hne
      cases hn.symm.trans h
    exact ⟨(Host.Outcome.fault.inj ((busAccess_of_no_target ht).symm.trans h)).symm, ht⟩
  · rintro ⟨rfl, ht⟩
    exact busAccess_of_no_target ht

theorem poll_target_eq_none {offset : Nat} {mask value : Word} :
    (HostOp.poll offset mask value).target = none ↔ ¬ (offset % 4 = 0 ∧ offset ≤ 0x3C) := by
  simp only [HostOp.target, regFor_eq_none, true_and]

/-- A HOST step faults only in an access of its script, which it makes with no write held (R26, R67). -/
theorem hostStep_fault (h : hostStep s = .fault f) :
    ∃ op rest, s.held = none ∧ s.script = .access op :: rest ∧ s.busAccess op = .fault f := by
  unfold hostStep at h
  split at h
  · cases h
  · rename_i hheld
    split at h
    · cases h
    · rename_i op rest hscript
      exact ⟨op, rest, hheld, hscript, h⟩
    · cases h

/-- A CE step faults only in the meaning of the command pending (R92, R93). -/
theorem ceStep_fault (h : ceStep s = .fault f) :
    ∃ p i, s.pend = some p ∧ decode p.word = .ok i ∧ exec i s = .fault f := by
  unfold ceStep State.pendingCommand at h
  cases hp : s.pend with
  | none => simp [hp] at h
  | some p =>
    cases hd : decode p.word with
    | error e => simp [hp, hd, execIllegal] at h
    | ok i => exact ⟨p, i, rfl, hd, by simpa [hp, hd] using h⟩

/-- A step faults only in the step of the agent whose turn it is. -/
theorem step_fault (h : step s = .fault f) :
    ∃ u ts, s.turns = u :: ts ∧ agentStep u ({ s with turns := ts }.passNamed u) = .fault f := by
  by_cases hw : s.cfg.Wf
  · cases ht : s.turns with
    | nil => cases (step_of_no_turn hw ht).symm.trans h
    | cons u ts => exact ⟨u, ts, rfl, (step_of_turn hw ht).symm.trans h⟩
  · cases (step_of_not_wf hw).symm.trans h

end

/-! The statements -/

/-- Settles O12: a fault is an access that reaches no register, and the registers stand at the word boundaries of the window. -/
theorem busAccessFaultsOutsideWindow : Obligations.BusAccessFaultsOutsideWindow := by
  intro s width offset w mask value
  simp only [busAccess_fault_iff, true_and]
  refine ⟨regFor_eq_none, regFor_eq_none, poll_target_eq_none, fun hin => ?_⟩
  have hreg : regFor width offset ≠ none := fun h => regFor_eq_none.1 h hin
  obtain ⟨-, hwindow⟩ := hin
  exact ⟨busAccess_answers hreg, busAccess_answers hreg, busAccess_answers fun h => poll_target_eq_none.1 h hwindow⟩

/-- Settles O8: the HOST's and the CE's are the only steps that fault, each in one place. -/
theorem faultsOnlyAsListed : Obligations.FaultsOnlyAsListed := by
  intro s f h
  obtain ⟨u, ts, hturns, hu⟩ := step_fault h
  cases u with
  | host =>
    rw [passNamed_host] at hu
    obtain ⟨op, rest, hheld, hscript, hb⟩ := hostStep_fault hu
    obtain ⟨rfl, htarget⟩ := busAccess_fault_iff.1 hb
    refine .inl ⟨rfl, op, rest, ts, hturns, hheld, hscript, ?_⟩
    cases op with
    | read width offset => exact .inl ⟨width, offset, 0, .inl rfl, regFor_eq_none.1 htarget⟩
    | write width offset w => exact .inl ⟨width, offset, w, .inr rfl, regFor_eq_none.1 htarget⟩
    | poll offset mask value => exact .inr ⟨offset, mask, value, rfl, poll_target_eq_none.1 htarget⟩
  | ce =>
    obtain ⟨rest, hpass, -⟩ := passNamed_eq { s with turns := ts } .ce
    rw [hpass] at hu
    obtain ⟨p, i, hp, hd, hx⟩ := ceStep_fault hu
    obtain ⟨rfl, ⟨j, rfl, hj, hslot⟩ | ⟨a, rfl, hidle, j, hj, hslot⟩⟩ := exec_fault hx
    · exact .inr ⟨rfl, ts, p, hturns, hp, .inl ⟨j, hd, hj, hslot⟩⟩
    · rw [command_of_pending hp] at hj
      exact .inr ⟨rfl, ts, p, hturns, hp, .inr ⟨a, hd, hidle, j, hj, hslot⟩⟩
  | rxe | txe | nve | abort | reset | powerLoss => cases hu

end Sys2Proof.Machine

/-! PROOF. What a command leaves unchanged (20_memory.md R71): a serial command changes only the link, a command of the store only
the operation in flight, the instrumentation and the block buffer; both change the command slot. -/

namespace Sys2Proof.Machine

open Sys2Proof.Safety

section

variable {s t : State}

/-- Only the serial link and the command slot differ. -/
def LinkOnly (s t : State) : Prop :=
  t = { s with
    serEn := t.serEn, rate := t.rate, doubleSpeed := t.doubleSpeed, rxHead := t.rxHead, rxTail := t.rxTail,
    rxMem := t.rxMem, txHead := t.txHead, txTail := t.txTail, txMem := t.txMem, txArmed := t.txArmed, flow := t.flow,
    rtsig := t.rtsig, result := t.result, err := t.err, pend := t.pend }

/-- Only the store without its cells and the command slot differ. -/
def StoreOnly (s t : State) : Prop :=
  t = { s with
    nvInflight := t.nvInflight, nvmodeLast := t.nvmodeLast, nvmodeValid := t.nvmodeValid, cnt := t.cnt, blk := t.blk,
    result := t.result, err := t.err, pend := t.pend }

theorem sameStore_of_linkOnly (h : LinkOnly s t) : SameStore s t := by
  rw [h]
  exact ⟨fun _ => rfl, rfl, rfl, rfl, rfl, fun _ => rfl⟩

theorem sameRest_of_linkOnly (h : LinkOnly s t) : SameRest s t := by
  rw [h]
  exact ⟨rfl, rfl, rfl, rfl, rfl, rfl, rfl, rfl, rfl⟩

theorem sameSerial_of_storeOnly (h : StoreOnly s t) : SameSerial s t := by
  rw [h]
  exact ⟨rfl, rfl, rfl, rfl, rfl, fun _ => rfl, rfl, rfl, fun _ => rfl, rfl, rfl, rfl⟩

theorem sameRest_of_storeOnly (h : StoreOnly s t) : SameRest s t := by
  rw [h]
  exact ⟨rfl, rfl, rfl, rfl, rfl, rfl, rfl, rfl, rfl⟩

theorem checkXon_frame (s : State) : ∃ armed flow, s.checkXon = { s with txArmed := armed, flow := flow } := by
  unfold State.checkXon
  split_ifs
  · exact ⟨_, _, rfl⟩
  · exact ⟨_, _, rfl⟩

/-- A write to one slot of TX_MEM leaves the others (R62). -/
theorem txSlot_write {j k : Nat} {b : Byte} (h : k ≠ j) (hm : t.txMem = s.txMem.write j b)
    (hl : t.powerLosses = s.powerLosses) : t.txSlot k = s.txSlot k := by
  rw [State.txSlot, State.txSlot, hm, hl, Memory.read_write_other _ _ h]

/-- Clearing runtime signals touches none of the five upper bits of `RTSIG` (R30, R117). -/
theorem clearSignals_upper (s : State) (mask : Byte) : (s.clearSignals mask).rtsig >>> 3 = s.rtsig >>> 3 := by
  apply BitVec.eq_of_getLsbD_eq
  intro n hn
  have hlow : ∀ k < 8, (0x07#8 : Byte).getLsbD (3 + k) = false := by decide
  simp only [State.clearSignals, BitVec.getLsbD_ushiftRight, BitVec.getLsbD_and, BitVec.getLsbD_not, hlow n hn,
    Bool.and_false, Bool.not_false, Bool.and_true]
  simpa using BitVec.lt_of_getLsbD

/-- `writeByte` issues and counts, and touches nothing else (R165, R166). -/
theorem writeByte_frame (s : State) (a : Nat) (b : Byte) :
    ∃ f last valid cnt, s.writeByte a b =
      { s with nvInflight := f, nvmodeLast := last, nvmodeValid := valid, cnt := cnt } :=
  ⟨_, _, _, _, rfl⟩

/-- A cell write touches what `writeByte` does and the command slot (R165). -/
theorem execNvWrite_frame {a : Addr} {v : Byte} (h : execNvWrite a v s = .next t) :
    ∃ f last valid cnt result err pend,
      t = { s with
        nvInflight := f, nvmodeLast := last, nvmodeValid := valid, cnt := cnt, result := result, err := err, pend := pend } := by
  obtain ⟨-, rfl⟩ | ⟨-, -, rfl⟩ | ⟨-, -, rfl⟩ := execNvWrite_cases h
  · exact ⟨_, _, _, _, _, _, _, rfl⟩
  · obtain ⟨f, last, valid, cnt, he⟩ := writeByte_frame s a.toNat v
    exact ⟨f, last, valid, cnt, _, _, _, by rw [he]; rfl⟩
  · exact ⟨_, _, _, _, _, _, _, rfl⟩

/-- The same of a block write, whichever of its steps it is (R169 to R171). -/
theorem execNvWriteBlock_frame {a : Addr} (h : execNvWriteBlock a s = .next t) :
    ∃ f last valid cnt result err pend,
      t = { s with
        nvInflight := f, nvmodeLast := last, nvmodeValid := valid, cnt := cnt, result := result, err := err, pend := pend } := by
  obtain ⟨e, -, rfl⟩ | ⟨-, -, rfl⟩ | ⟨-, -, -, ⟨-, b, -, rfl⟩ | ⟨-, rfl⟩⟩ := execNvWriteBlock_cases rfl h
  · exact ⟨_, _, _, _, _, _, _, rfl⟩
  · exact ⟨_, _, _, _, _, _, _, rfl⟩
  · obtain ⟨f, last, valid, cnt, he⟩ := writeByte_frame s
      (a.toNat + (s.command (.nvWriteBlock a)).i.toNat) b
    exact ⟨f, last, valid, cnt, _, _, _, by rw [he]⟩
  · obtain ⟨f, last, valid, cnt, he⟩ := writeByte_frame s
      (a.toNat + (s.command (.nvWriteBlock a)).len) (s.command (.nvWriteBlock a)).acc
    exact ⟨f, last, valid, cnt, _, _, _, by rw [State.blockFinalStep, he]; rfl⟩

end

/-- Settles O37: each outcome of each of the six differs from the state before it in the fields named. -/
theorem serialCommandsFrame : Obligations.SerialCommandsFrame := by
  intro i s t h
  refine ⟨?nop, ?serInit, ?serWrite, ?serRead, ?serResetRx, ?rtsigClear⟩
  case nop =>
    rintro rfl
    cases h
    exact ⟨sameSerial_of_storeOnly rfl, sameStore_of_linkOnly rfl, sameRest_of_linkOnly rfl⟩
  case serInit =>
    rintro rfl
    obtain rfl | ⟨d, rfl⟩ := execSerInit_cases h
    all_goals exact ⟨sameStore_of_linkOnly rfl, sameRest_of_linkOnly rfl, sameSerial_of_storeOnly rfl⟩
  case serWrite =>
    rintro b rfl
    obtain ⟨-, rfl⟩ | ⟨-, -, rfl⟩ | ⟨-, -, rfl⟩ := execSerWrite_cases h
    · exact ⟨sameStore_of_linkOnly rfl, sameRest_of_linkOnly rfl, sameSerial_of_storeOnly rfl,
        fun j hj => txSlot_write hj rfl rfl⟩
    all_goals
      exact ⟨sameStore_of_linkOnly rfl, sameRest_of_linkOnly rfl, sameSerial_of_storeOnly rfl, fun _ _ => rfl⟩
  case serRead =>
    rintro rfl
    obtain ⟨-, rfl⟩ | ⟨-, rfl⟩ := execSerRead_cases h
    · exact ⟨sameStore_of_linkOnly rfl, sameRest_of_linkOnly rfl, sameSerial_of_storeOnly rfl⟩
    · obtain ⟨armed, flow, he⟩ := checkXon_frame s.rxPop
      rw [he]
      exact ⟨sameStore_of_linkOnly rfl, sameRest_of_linkOnly rfl, sameSerial_of_storeOnly rfl⟩
  case serResetRx =>
    rintro rfl
    cases h
    exact ⟨sameStore_of_linkOnly rfl, sameRest_of_linkOnly rfl, sameSerial_of_storeOnly rfl⟩
  case rtsigClear =>
    rintro m rfl
    cases h
    exact ⟨sameStore_of_linkOnly rfl, sameRest_of_linkOnly rfl, sameSerial_of_storeOnly rfl, clearSignals_upper s m⟩

/-- Settles O38: the two reads answer only; the two writes issue; the two that fill the block buffer write their own slots. -/
theorem storeCommandsFrame : Obligations.StoreCommandsFrame := by
  intro i s t h
  refine ⟨?reads, ?writes, ?fills, ?put, ?readBlock⟩
  case reads =>
    rintro (⟨a, rfl⟩ | ⟨j, rfl⟩)
    · obtain ⟨-, rfl⟩ | ⟨-, -, rfl⟩ | ⟨-, -, rfl⟩ := execNvRead_cases h
      all_goals exact ⟨sameSerial_of_storeOnly rfl, sameStore_of_linkOnly rfl, sameRest_of_linkOnly rfl⟩
    · obtain ⟨-, rfl⟩ | ⟨-, b, -, rfl⟩ := execBufGet_cases h
      all_goals exact ⟨sameSerial_of_storeOnly rfl, sameStore_of_linkOnly rfl, sameRest_of_linkOnly rfl⟩
  case writes =>
    rintro (⟨a, v, rfl⟩ | ⟨a, rfl⟩)
    · obtain ⟨_, _, _, _, _, _, _, rfl⟩ := execNvWrite_frame h
      exact ⟨sameSerial_of_storeOnly rfl, sameRest_of_storeOnly rfl, sameStore_of_linkOnly rfl⟩
    · obtain ⟨_, _, _, _, _, _, _, rfl⟩ := execNvWriteBlock_frame h
      exact ⟨sameSerial_of_storeOnly rfl, sameRest_of_storeOnly rfl, sameStore_of_linkOnly rfl⟩
  case fills =>
    rintro (⟨j, v, rfl⟩ | ⟨a, rfl⟩)
    · obtain ⟨-, rfl⟩ | ⟨-, rfl⟩ := execBufPut_cases h
      all_goals exact ⟨sameSerial_of_storeOnly rfl, sameRest_of_storeOnly rfl, sameStore_of_linkOnly rfl⟩
    · obtain ⟨e, -, rfl⟩ | ⟨-, -, rfl⟩ | ⟨-, -, rfl⟩ := execNvReadBlock_cases rfl h
      all_goals exact ⟨sameSerial_of_storeOnly rfl, sameRest_of_storeOnly rfl, sameStore_of_linkOnly rfl⟩
  case put =>
    rintro j v rfl k hk
    obtain ⟨-, rfl⟩ | ⟨-, rfl⟩ := execBufPut_cases h
    · rfl
    · exact Memory.read_write_other _ v hk
  case readBlock =>
    rintro a p rfl hp k hk
    obtain ⟨e, -, rfl⟩ | ⟨-, -, rfl⟩ | ⟨-, -, rfl⟩ := execNvReadBlock_cases (command_of_pending hp _) h
    · rfl
    · rfl
    · have hout : ¬ (0 ≤ k ∧ k - 0 < (s.nvBytes a.toNat p.len).length) := by simpa using hk
      exact (Memory.read_writeFrom ..).trans (dif_neg hout)

end Sys2Proof.Machine

/-! PROOF. The rings (20_memory.md R60 to R63, R71): what one step of any agent can do to a ring, and what the bytes it holds are
after it. -/

namespace Sys2Proof.Machine

open Sys2Proof.Safety

section

variable {s t : State} {cap : Nat} {m m' : Memory} {head tail head' tail' : Byte}

/-! One ring -/

/-- What a step can do to a ring of a capacity, a memory and two indices (R61 to R63). -/
inductive RingStep (cap : Nat) (m : Memory) (head tail : Byte) : Memory → Byte → Byte → Prop
  /-- nothing -/
  | stays : RingStep cap m head tail m head tail
  /-- the producer writes the head's slot and advances the head of a ring that is not full -/
  | push (b : Byte) (hfree : inc head cap ≠ tail) : RingStep cap m head tail (m.write head.toNat b) (inc head cap) tail
  /-- the consumer advances the tail of a ring that is not empty -/
  | pop (hne : head ≠ tail) : RingStep cap m head tail m head (inc tail cap)
  /-- the ring is emptied by its indices -/
  | clear (i : Byte) : RingStep cap m head tail m i i
  /-- the memory is lost with the power -/
  | lose (i : Byte) : RingStep cap m head tail [] i i

/-- Every slot from the tail up to the head has been written (R63). -/
def RingWritten (cap : Nat) (m : Memory) (head tail : Byte) : Prop :=
  ∀ k < occ head tail cap, (m.read ((tail.toNat + k) % cap)).isSome = true

theorem ringWritten_of_empty (i : Byte) : RingWritten cap m i i := fun k hk => by simp at hk

/-- A push writes the one slot that joins. -/
theorem ringWritten_push (h : RingWritten cap m head tail) (hh : head.toNat < cap) (ht : tail.toNat < cap) (hc : cap ≤ 256)
    (hfree : inc head cap ≠ tail) (b : Byte) : RingWritten cap (m.write head.toNat b) (inc head cap) tail := by
  intro k hk
  rw [occ_inc_head hh ht hc hfree] at hk
  rw [Memory.read_write]
  split_ifs with hslot
  · rfl
  · refine h k (Nat.lt_of_le_of_ne (Nat.le_of_lt_succ hk) ?_)
    rintro rfl
    exact hslot (slot_occ hh ht)

/-- A pop only lets the first slot go. -/
theorem ringWritten_pop (h : RingWritten cap m head tail) (hh : head.toNat < cap) (ht : tail.toNat < cap) (hc : cap ≤ 256)
    (hne : head ≠ tail) : RingWritten cap m head (inc tail cap) := by
  intro k hk
  rw [slot_inc k ht hc]
  refine h (k + 1) ?_
  rw [occ_inc_tail hh ht hc hne]
  exact Nat.succ_lt_succ hk

theorem ringWritten_step (hstep : RingStep cap m head tail m' head' tail') (h : RingWritten cap m head tail)
    (hh : head.toNat < cap) (ht : tail.toNat < cap) (hc : cap ≤ 256) : RingWritten cap m' head' tail' := by
  cases hstep with
  | stays => exact h
  | push b hfree => exact ringWritten_push h hh ht hc hfree b
  | pop hne => exact ringWritten_pop h hh ht hc hne
  | clear => exact ringWritten_of_empty _
  | lose => exact ringWritten_of_empty _

/-- The memory of a ring stays canonical. -/
theorem ringMemory_wf_step (hstep : RingStep cap m head tail m' head' tail') (h : m.wf = true) : m'.wf = true := by
  cases hstep with
  | stays => exact h
  | push b _ => exact Memory.wf_write _ b h
  | pop _ => exact h
  | clear => exact h
  | lose => rfl

/-! The two rings of the machine -/

/-- What a step does to RX (R60). -/
def RxStep (s t : State) : Prop := RingStep s.cfg.rxCap s.rxMem s.rxHead s.rxTail t.rxMem t.rxHead t.rxTail

/-- What a step does to TX (R62). -/
def TxStep (s t : State) : Prop := RingStep s.cfg.txCap s.txMem s.txHead s.txTail t.txMem t.txHead t.txTail

/-- The CE's share of the ownership table (R71): the read side of RX, the write side of TX, the block buffer, and no cell. -/
structure CeShare (s t : State) : Prop where
  rxHead : t.rxHead = s.rxHead
  rxMem : t.rxMem = s.rxMem
  txTail : t.txTail = s.txTail
  nv : t.nv = s.nv
  rx : RxStep s t
  tx : TxStep s t
  blk : s.blk.wf = true → t.blk.wf = true

theorem ceShare_refl (s : State) : CeShare s s := ⟨rfl, rfl, rfl, rfl, .stays, .stays, id⟩

theorem ceShare_complete (s : State) (w : Word) (e : Err) : CeShare s (s.complete w e) :=
  ⟨rfl, rfl, rfl, rfl, .stays, .stays, id⟩

theorem txFull_eq_false : s.txFull = false ↔ inc s.txHead s.cfg.txCap ≠ s.txTail := by simp [State.txFull]

/-- Every command keeps to the CE's share. -/
theorem ceShare_exec {i : Instr} (hx : exec i s = .next t) : CeShare s t := by
  cases i with
  | nop => cases hx; exact ceShare_complete s _ _
  | serInit =>
    obtain rfl | ⟨d, rfl⟩ := execSerInit_cases hx
    · exact ceShare_complete s _ _
    · exact ⟨rfl, rfl, rfl, rfl, .stays, .stays, id⟩
  | serWrite b =>
    obtain ⟨hfree, rfl⟩ | ⟨-, -, rfl⟩ | ⟨-, -, rfl⟩ := execSerWrite_cases hx
    · exact ⟨rfl, rfl, rfl, rfl, .stays, .push b (txFull_eq_false.1 hfree), id⟩
    · exact ceShare_complete s _ _
    · exact ceShare_refl _
  | serRead =>
    obtain ⟨-, rfl⟩ | ⟨hne, rfl⟩ := execSerRead_cases hx
    · exact ceShare_complete s _ _
    · obtain ⟨armed, flow, he⟩ := checkXon_frame s.rxPop
      rw [he]
      exact ⟨rfl, rfl, rfl, rfl, .pop hne, .stays, id⟩
  | serResetRx => cases hx; exact ⟨rfl, rfl, rfl, rfl, .clear _, .stays, id⟩
  | rtsigClear m => cases hx; exact ⟨rfl, rfl, rfl, rfl, .stays, .stays, id⟩
  | nvRead a =>
    obtain ⟨-, rfl⟩ | ⟨-, -, rfl⟩ | ⟨-, -, rfl⟩ := execNvRead_cases hx
    · exact ceShare_complete s _ _
    · exact ceShare_complete s _ _
    · exact ceShare_refl _
  | nvWrite a v =>
    obtain ⟨_, _, _, _, _, _, _, rfl⟩ := execNvWrite_frame hx
    exact ⟨rfl, rfl, rfl, rfl, .stays, .stays, id⟩
  | nvWriteBlock a =>
    obtain ⟨_, _, _, _, _, _, _, rfl⟩ := execNvWriteBlock_frame hx
    exact ⟨rfl, rfl, rfl, rfl, .stays, .stays, id⟩
  | nvReadBlock a =>
    obtain ⟨e, -, rfl⟩ | ⟨-, -, rfl⟩ | ⟨-, -, rfl⟩ := execNvReadBlock_cases rfl hx
    · exact ceShare_complete s _ _
    · exact ceShare_refl _
    · exact ⟨rfl, rfl, rfl, rfl, .stays, .stays, Memory.wf_writeFrom _ _⟩
  | bufPut j v =>
    obtain ⟨-, rfl⟩ | ⟨-, rfl⟩ := execBufPut_cases hx
    · exact ceShare_complete s _ _
    · exact ⟨rfl, rfl, rfl, rfl, .stays, .stays, Memory.wf_write _ _⟩
  | bufGet j =>
    obtain ⟨-, rfl⟩ | ⟨-, b, -, rfl⟩ := execBufGet_cases hx
    all_goals exact ceShare_complete s _ _

theorem ceShare_ceStep (hx : ceStep s = .next t) : CeShare s t := by
  obtain ⟨-, rfl⟩ | ⟨p, e, -, -, rfl⟩ | ⟨p, i, -, -, hi⟩ := ceStep_cases hx
  · exact ceShare_refl _
  · exact ceShare_complete s _ _
  · exact ceShare_exec hi

/-- RXE only pushes, and only into a ring that is not full (R131 to R133). -/
theorem rxStep_rxeStep (b : Byte) (s : State) : RxStep s (rxeStep b s) := by
  unfold rxeStep
  split_ifs
  · exact .stays
  · unfold State.realtime
    split_ifs
    all_goals exact .stays
  · unfold State.buffer
    split_ifs with hfull
    · exact .stays
    · obtain ⟨armed, flow, he⟩ := checkXoff_frame ((s.emit (.lineIn b)).rxPush b)
      rw [he]
      exact .push b fun h => hfull (beq_iff_eq.2 h)

/-- TXE only pops, and only from a ring that is not empty (R135). -/
theorem txStep_txeStep (s : State) : TxStep s (txeStep s) := by
  unfold txeStep
  split_ifs
  · obtain ⟨armed, he⟩ := disarm_frame s.transmit
    rw [he]
    unfold State.transmit
    split_ifs with _ _ hempty
    · exact .stays
    · exact .stays
    · exact .stays
    · exact .pop fun h => hempty (beq_iff_eq.2 h)
  · exact .stays

/-- Every agent does to each ring one of the things of `RingStep` (R61 to R63, R71, R231, R232). -/
theorem agentStep_rings {u : Turn} (hx : agentStep u s = .next t) : RxStep s t ∧ TxStep s t := by
  cases u with
  | host =>
    obtain ⟨arg, pend, held, script, reads, rfl, -⟩ := hostStep_frame hx
    exact ⟨.stays, .stays⟩
  | ce =>
    have hce := ceShare_ceStep hx
    exact ⟨hce.rx, hce.tx⟩
  | rxe b =>
    cases hx
    refine ⟨rxStep_rxeStep b s, ?_⟩
    obtain ⟨_, _, _, _, _, _, he, -⟩ := rxeStep_frame b s
    rw [he]
    exact .stays
  | txe =>
    cases hx
    refine ⟨?_, txStep_txeStep s⟩
    obtain ⟨_, _, _, _, he, -⟩ := txeStep_frame s
    rw [he]
    exact .stays
  | nve =>
    cases hx
    simp only [RxStep, TxStep, nveStep, finishProgramming_rxMem, finishProgramming_rxHead, finishProgramming_rxTail,
      finishProgramming_txMem, finishProgramming_txHead, finishProgramming_txTail]
    exact ⟨.stays, .stays⟩
  | abort l => cases hx; exact ⟨.stays, .stays⟩
  | reset =>
    cases hx
    simp only [RxStep, TxStep, resetStep, resetValues_rxMem, resetValues_txMem, finishProgramming_rxMem,
      finishProgramming_txMem]
    exact ⟨.clear _, .clear _⟩
  | powerLoss => cases hx; exact ⟨.lose _, .lose _⟩

/-- No agent changes the configuration (R41). -/
theorem agentStep_cfg {u : Turn} (hx : agentStep u s = .next t) : t.cfg = s.cfg := by
  obtain ⟨hc, -, -, -⟩ | ⟨l, -, rfl⟩ | ⟨-, hc, -⟩ := agentStep_env_cases hx
  · exact hc
  · rfl
  · exact hc

theorem ringsWritten_agentStep (u : Turn) (s t : State) (h : RingsWritten s) (hx : agentStep u s = .next t) :
    RingsWritten t := by
  obtain ⟨hregs, hrx, htx⟩ := h
  obtain ⟨hrxCap, htxCap⟩ := caps_le_of_registersOk hregs
  obtain ⟨hrxStep, htxStep⟩ := agentStep_rings hx
  have hcfg := agentStep_cfg hx
  refine ⟨registersOk_agentStep u s t hregs hx, ?_, ?_⟩
  · have hwritten := ringWritten_step hrxStep hrx hregs.rxHead hregs.rxTail hrxCap
    rwa [← hcfg] at hwritten
  · have hwritten := ringWritten_step htxStep htx hregs.txHead hregs.txTail htxCap
    rwa [← hcfg] at hwritten

/-! The store's cells (R64, R65, R233) -/

theorem interruptProgramming_of_idle (h : s.nvInflight = none) : s.interruptProgramming = s := by
  simp [State.interruptProgramming, h]

/-- The one cell an interruption changes. -/
theorem interruptProgramming_of_inflight {f : InFlight} (h : s.nvInflight = some f) :
    s.interruptProgramming =
      { s with nv := s.nv.write f.addr.toNat (Config.interruptedCell s.powerLosses), nvInflight := none } := by
  simp [State.interruptProgramming, h]

/-- The memories of the store stay canonical: one cell is written at a time, and block slots in order. -/
theorem storeMemories_wf_agentStep {u : Turn} (h : MemoriesOk s) (hx : agentStep u s = .next t) :
    t.nv.wf = true ∧ t.blk.wf = true := by
  cases u with
  | host =>
    obtain ⟨arg, pend, held, script, reads, rfl, -⟩ := hostStep_frame hx
    exact ⟨h.nv, h.blk⟩
  | ce =>
    have hce := ceShare_ceStep hx
    exact ⟨hce.nv ▸ h.nv, hce.blk h.blk⟩
  | rxe b =>
    cases hx
    obtain ⟨_, _, _, _, _, _, he, -⟩ := rxeStep_frame b s
    rw [he]
    exact ⟨h.nv, h.blk⟩
  | txe =>
    cases hx
    obtain ⟨_, _, _, _, he, -⟩ := txeStep_frame s
    rw [he]
    exact ⟨h.nv, h.blk⟩
  | nve => cases hx; exact ⟨finishProgramming_nv_wf h, (finishProgramming_blk s).symm ▸ h.blk⟩
  | abort l => cases hx; exact ⟨h.nv, h.blk⟩
  | reset => cases hx; exact ⟨finishProgramming_nv_wf (s := s.emit .reset) ⟨h.rx, h.tx, h.nv, h.blk⟩, rfl⟩
  | powerLoss => cases hx; exact ⟨interruptProgramming_nv_wf (s := s.emit .powerLoss) ⟨h.rx, h.tx, h.nv, h.blk⟩, rfl⟩

theorem memoriesOk_agentStep (u : Turn) (s t : State) (h : MemoriesOk s) (hx : agentStep u s = .next t) :
    MemoriesOk t := by
  obtain ⟨hrxStep, htxStep⟩ := agentStep_rings hx
  obtain ⟨hnv, hblk⟩ := storeMemories_wf_agentStep h hx
  exact ⟨ringMemory_wf_step hrxStep h.rx, ringMemory_wf_step htxStep h.tx, hnv, hblk⟩

end

/-! The statements -/

/-- Settles O49: a push writes the slot that joins, and no other step makes a slot unread. -/
theorem ringSlotsAreWrittenBeforeRead : Obligations.RingSlotsAreWrittenBeforeRead := fun _ _ h hx =>
  step_keeps
    (fun _ _ _ h => ⟨registersOk_congr h.registers rfl rfl rfl rfl rfl rfl rfl, h.rx, h.tx⟩) ringsWritten_agentStep h hx

/-- Settles O53: a byte that is buffered is one push, and a read of a non-empty ring one pop. -/
theorem rxIsFifo : Obligations.RxIsFifo := by
  intro s t h
  refine ⟨?buffered, ?read⟩
  case buffered =>
    rintro b hen hrt hspace rfl
    have hfree := (inc_ne_iff h.rxHead h.rxTail (caps_le_of_registersOk h).1).2 hspace
    have hstep : rxeStep b s = ((s.emit (.lineIn b)).rxPush b).checkXoff := by
      simp [rxeStep, State.buffer, State.rxFull, hen, hrt, hfree]
    obtain ⟨hcheck, -⟩ := rx_congr (s := (s.emit (.lineIn b)).rxPush b) (t := rxeStep b s)
      (by simp [hstep]) (by simp [hstep]) (by simp [hstep]) (by simp [hstep]) (by simp [hstep])
    obtain ⟨hpush, -⟩ := rxContents_push (b := b) (registersOk_emit h (.lineIn b)) hfree
    exact hcheck.trans hpush
  case read =>
    intro hne hx
    obtain ⟨he, -⟩ | ⟨-, rfl⟩ := execSerRead_cases hx
    · exact absurd he hne
    · obtain ⟨hpop, -, -⟩ := rxContents_pop h hne
      obtain ⟨hcheck, -⟩ := rx_congr (s := s.rxPop) (t := s.rxPop.checkXon.complete (resultData s.rxFront) .ok)
        (by simp) (by simp) (by simp) (by simp) (by simp)
      exact ⟨s.rxFront, rfl, by rw [hpop, hcheck]⟩

/-- Settles O42: the frame of each agent's step names the fields of its share. -/
theorem ownershipTableIsKept : Obligations.OwnershipTableIsKept := by
  intro u s t hx hreset hloss
  cases u with
  | host =>
    obtain ⟨arg, pend, held, script, reads, rfl, -⟩ := hostStep_frame hx
    exact ⟨fun _ => ⟨rfl, rfl⟩, fun _ => ⟨rfl, rfl, rfl⟩, fun _ => rfl, fun _ => ⟨rfl, rfl, rfl⟩, nofun, fun _ => rfl,
      fun _ _ => rfl⟩
  | ce =>
    have hce := ceShare_ceStep hx
    exact ⟨fun _ => ⟨hce.rxHead, hce.rxMem⟩, absurd rfl, fun _ => hce.txTail, by simp, nofun, fun _ => hce.nv,
      fun _ => absurd rfl⟩
  | rxe b =>
    cases hx
    obtain ⟨_, _, _, _, _, _, he, -⟩ := rxeStep_frame b s
    rw [he]
    exact ⟨fun h => absurd rfl (h b), fun _ => ⟨rfl, rfl, rfl⟩, fun _ => rfl, by simp, nofun, fun _ => rfl,
      fun _ _ => rfl⟩
  | txe =>
    cases hx
    obtain ⟨_, _, _, _, he, -⟩ := txeStep_frame s
    rw [he]
    exact ⟨fun _ => ⟨rfl, rfl⟩, fun _ => ⟨rfl, rfl, rfl⟩, absurd rfl, by simp, fun _ => rfl, fun _ => rfl, fun _ _ => rfl⟩
  | nve => cases hx; simp [nveStep]
  | abort l =>
    cases hx
    exact ⟨fun _ => ⟨rfl, rfl⟩, fun _ => ⟨rfl, rfl, rfl⟩, fun _ => rfl, fun _ => ⟨rfl, rfl, rfl⟩, nofun, fun _ => rfl,
      fun _ _ => rfl⟩
  | reset => exact absurd rfl hreset
  | powerLoss => exact absurd rfl hloss

/-- Settles O48: a memory is only ever written one byte at a time, or lost. -/
theorem memoriesStayCanonical : Obligations.MemoriesStayCanonical := fun _ _ h hx =>
  step_keeps (fun _ _ _ h => ⟨h.rx, h.tx, h.nv, h.blk⟩) memoriesOk_agentStep h hx

/-- Settles O45: the cell in flight is the one both events write. -/
theorem inflightCellAtResetAndPowerLoss : Obligations.InflightCellAtResetAndPowerLoss := by
  intro s a
  refine ⟨?inflight, ?others, rfl, rfl⟩
  case inflight =>
    rintro f hf rfl
    rw [nvByte_resetStep, nvByte_powerLossStep, finishProgramming_of_inflight hf, interruptProgramming_of_inflight hf,
      nvByte_write, nvByte_write, if_pos rfl, if_pos rfl]
    exact ⟨rfl, rfl⟩
  case others =>
    intro hne
    rw [nvByte_resetStep, nvByte_powerLossStep]
    cases hf : s.nvInflight with
    | none => rw [finishProgramming_of_idle hf, interruptProgramming_of_idle hf]; exact ⟨rfl, rfl⟩
    | some f =>
      rw [finishProgramming_of_inflight hf, interruptProgramming_of_inflight hf, nvByte_write, nvByte_write,
        if_neg (hne f hf), if_neg (hne f hf)]
      exact ⟨rfl, rfl⟩

end Sys2Proof.Machine

/-! PROOF. The encoding (30_encoding.md R90 to R97): what the word of a command says of its fields, that a word decodes to a command
exactly when the bits the command takes are the command's own word, and what becomes of every other word. -/

namespace Sys2Proof

section

variable {a : Addr} {d o : Byte} {w : Word} {i : Instr}

/-! The word (R90, R97) -/

/-- The three fields lie side by side, so the word's number is their sum in place (R97). -/
theorem packWord_toNat (a : Addr) (d o : Byte) : (packWord a d o).toNat = a.toNat * 65536 + d.toNat * 256 + o.toNat := by
  have hlow : d.toNat <<< 8 + o.toNat = d.toNat <<< 8 ||| o.toNat := Nat.shiftLeft_add_eq_or_of_lt o.isLt _
  have hhigh : a.toNat <<< 16 + (d.toNat <<< 8 + o.toNat) = a.toNat <<< 16 ||| (d.toNat <<< 8 + o.toNat) :=
    Nat.shiftLeft_add_eq_or_of_lt (by omega) _
  have ha : (a.setWidth 32 <<< 16).toNat = a.toNat <<< 16 := by
    simp only [BitVec.toNat_shiftLeft, BitVec.toNat_setWidth]; omega
  have hd : (d.setWidth 32 <<< 8).toNat = d.toNat <<< 8 := by
    simp only [BitVec.toNat_shiftLeft, BitVec.toNat_setWidth]; omega
  have ho : (o.setWidth 32).toNat = o.toNat := BitVec.toNat_setWidth_of_le (by decide)
  calc (packWord a d o).toNat
      = a.toNat <<< 16 ||| (d.toNat <<< 8 ||| o.toNat) := by
        rw [packWord, BitVec.toNat_or, BitVec.toNat_or, ha, hd, ho, Nat.or_assoc]
    _ = a.toNat <<< 16 + (d.toNat <<< 8 + o.toNat) := by rw [hhigh, hlow]
    _ = a.toNat * 65536 + d.toNat * 256 + o.toNat := by simp only [Nat.shiftLeft_eq]; omega

/-- Two words are equal exactly when their three fields are. -/
theorem packWord_inj {a' : Addr} {d' o' : Byte} : packWord a d o = packWord a' d' o' ↔ a = a' ∧ d = d' ∧ o = o' := by
  constructor
  · intro h
    exact ⟨by simpa using congrArg addrField h, by simpa using congrArg dataField h, by simpa using congrArg opField h⟩
  · rintro ⟨rfl, rfl, rfl⟩; rfl

/-! What is left of a word under the mask of a command that takes neither field, one of them, or both (R92). -/

@[simp] theorem packWord_and_op : packWord a d o &&& 0x000000FF#32 = packWord 0 0 o := by
  rw [show 0x000000FF#32 = packWord 0 0 (BitVec.allOnes 8) from rfl, Laws.Fields.packWord_and]
  simp only [BitVec.and_allOnes, BitVec.ofNat_eq_ofNat, BitVec.and_zero]

@[simp] theorem packWord_and_op_data : packWord a d o &&& 0x0000FFFF#32 = packWord 0 d o := by
  rw [show 0x0000FFFF#32 = packWord 0 (BitVec.allOnes 8) (BitVec.allOnes 8) from rfl, Laws.Fields.packWord_and]
  simp only [BitVec.and_allOnes, BitVec.ofNat_eq_ofNat, BitVec.and_zero]

@[simp] theorem packWord_and_op_addr : packWord a d o &&& 0xFFFF00FF#32 = packWord a 0 o := by
  rw [show 0xFFFF00FF#32 = packWord (BitVec.allOnes 16) 0 (BitVec.allOnes 8) from rfl, Laws.Fields.packWord_and]
  simp only [BitVec.and_allOnes, BitVec.ofNat_eq_ofNat, BitVec.and_zero]

@[simp] theorem packWord_and_all : packWord a d o &&& 0xFFFFFFFF#32 = packWord a d o := BitVec.and_allOnes

/-! Which words are commands (R92, R94, R95) -/

/-- Fields decode to a command exactly when the bits the command takes of their word are the command's own word: one case per row
of R92, read from `OP` in one direction and from the command in the other. -/
theorem decodeFields_eq_ok_iff : decodeFields a d o = .ok i ↔ packWord a d o &&& usedBits i = encode i := by
  constructor
  · intro h
    unfold decodeFields at h
    split at h
    case h_13 => cases h
    all_goals
      rename_i hop
      cases h
      -- both sides hold the same fields, and `OP` is known as a number
      simp [usedBits, encode, ← BitVec.toNat_inj, packWord_toNat, hop]
  · intro h
    cases i
    all_goals
      simp only [usedBits, encode, packWord_and_op, packWord_and_op_data, packWord_and_op_addr, packWord_and_all,
        packWord_inj, true_and] at h
      simp [decodeFields, h]

/-- A word is a command exactly when the bits the command takes of it are the command's own word (R92, R94, R97). -/
theorem decode_eq_ok_iff : decode w = .ok i ↔ w &&& usedBits i = encode i := by
  rw [← packWord_fields w, decode_packWord, decodeFields_eq_ok_iff]

/-- The family `Fields` as one statement of every command. -/
theorem fields_of_instr : ∀ i : Instr, Laws.Fields.Statement i
  | .nop => Laws.Fields.nop
  | .serInit => Laws.Fields.serInit
  | .serWrite b => Laws.Fields.serWrite b
  | .serRead => Laws.Fields.serRead
  | .serResetRx => Laws.Fields.serResetRx
  | .rtsigClear m => Laws.Fields.rtsigClear m
  | .nvRead a => Laws.Fields.nvRead a
  | .nvWrite a v => Laws.Fields.nvWrite a v
  | .nvWriteBlock a => Laws.Fields.nvWriteBlock a
  | .nvReadBlock a => Laws.Fields.nvReadBlock a
  | .bufPut j v => Laws.Fields.bufPut j v
  | .bufGet j => Laws.Fields.bufGet j

/-- The word laid down for a command has 0 in every bit the command does not take (R97). -/
theorem encode_and_usedBits (i : Instr) : encode i &&& usedBits i = encode i := by
  obtain ⟨-, h, -⟩ := fields_of_instr i
  exact h

/-- The opcodes R92 gives no command (R93). -/
abbrev IllegalOp (o : Byte) : Prop := (0x06 ≤ o.toNat ∧ o.toNat ≤ 0x0F) ∨ 0x16 ≤ o.toNat

/-- A word is the illegal command of its `OP` exactly when R92 gives that `OP` no command (R93, R95). -/
theorem decode_eq_error_iff {e : DecodeError} :
    decode w = .error e ↔ e = .illegalOpcode (opField w) ∧ IllegalOp (opField w) := by
  unfold decode decodeFields
  constructor
  · intro h
    split at h
    case h_13 =>
      -- the rows of R92 are the cases before this one, so `OP` is none of their opcodes
      cases h
      exact ⟨rfl, by grind⟩
    all_goals cases h
  · rintro ⟨rfl, hop⟩
    split
    case h_13 => rfl
    all_goals
      rename_i h
      rw [IllegalOp, h] at hop
      omega

end

/-- Settles O1: a command's word lays down only bits the command takes. -/
theorem decodeInvertsEncode : Obligations.DecodeInvertsEncode := fun i => decode_eq_ok_iff.2 (encode_and_usedBits i)

/-- Settles O3: `OP` decides between the two, and a word that is a command holds the command's own word in the bits it takes. -/
theorem decodingIsTotal : Obligations.DecodingIsTotal := by
  intro w
  cases hd : decode w with
  | ok i =>
    have hlegal : ¬ IllegalOp (opField w) := fun hop => by
      rw [decode_eq_error_iff.2 ⟨rfl, hop⟩] at hd
      cases hd
    exact .inl ⟨⟨i, rfl, (decode_eq_ok_iff.1 hd).symm⟩, not_or.1 hlegal⟩
  | error e =>
    obtain ⟨rfl, hop⟩ := decode_eq_error_iff.1 hd
    exact .inr ⟨rfl, hop⟩

/-- Settles O4: the bits a command takes decide by themselves whether a word decodes to it. -/
theorem ignoredFieldsDoNotMatter : Obligations.IgnoredFieldsDoNotMatter := fun _ _ _ hw hv =>
  decode_eq_ok_iff.2 (hv.trans (decode_eq_ok_iff.1 hw))

/-- Settles O2: the fields lie side by side. -/
theorem wordLaysOutFields : Obligations.WordLaysOutFields := fun a d o =>
  ⟨packWord_toNat a d o, opField_packWord a d o, dataField_packWord a d o, addrField_packWord a d o⟩

/-- Settles O5: each word is evaluated. -/
theorem specWordsDecode : Obligations.SpecWordsDecode := ⟨rfl, rfl, rfl, rfl, rfl, rfl, rfl, rfl⟩

namespace Machine

/-- The CE step of a pending word that is no command is the error of the illegal opcode (R93). -/
theorem ceStep_of_illegal {s : State} {p : Pend} {e : DecodeError} (hp : s.pend = some p) (hd : decode p.word = .error e) :
    ceStep s = .next (s.raiseErr .opcode) := by
  simp [ceStep, State.pendingCommand, hp, hd, execIllegal]

/-- Settles O9: the word is accepted, decodes to no command, and the error leaves no pending record. -/
theorem illegalOpcodeCompletesWithError : Obligations.IllegalOpcodeCompletesWithError := by
  intro s w hp hop
  have hd : decode (acceptedCommand w s.arg).word = .error (.illegalOpcode (opField w)) := by
    rw [word_acceptedCommand]
    exact decode_eq_error_iff.2 ⟨rfl, hop⟩
  rw [writeReg_cmd_of_idle hp, ceStep_of_illegal (accept_pend s w) hd]
  rfl

end Machine

end Sys2Proof

/-! PROOF. The serial-link commands (40_serial_commands.md R112 to R117): the equation of each outcome, what the end of any command
in an error leaves (60_exceptions.md R201), and the `SER_WRITE` that nothing but ENV can free (70_reset_and_hazards.md R239). -/

namespace Sys2Proof.Machine

open Sys2Proof.Safety

section

variable {s t : State} {i : Instr} {b : Byte}

/-! The outcomes (R113 to R115, R117) -/

theorem execSerInit_of_rate_zero (h : (s.command .serInit).rate = 0) : execSerInit s = .next (s.raiseErr .arg) := if_pos h

theorem execSerInit_of_rate_ne_zero (h : (s.command .serInit).rate ≠ 0) :
    execSerInit s = .next ({ s with
      rate := (s.command .serInit).rate, doubleSpeed := decide (s.cfg.rateThreshold < (s.command .serInit).rate),
      serEn := true }.complete 0 .ok) := if_neg h

theorem txFull_eq_true : s.txFull = true ↔ inc s.txHead s.cfg.txCap = s.txTail := beq_iff_eq

theorem execSerWrite_of_space (h : s.txFull = false) :
    execSerWrite b s = .next ({ s.txPush b with txArmed := true }.complete 0 .ok) := if_pos h

theorem execSerWrite_of_abort (hfull : s.txFull = true) (ha : s.abortIn = true) :
    execSerWrite b s = .next (s.complete resultNotSent .ok) := by
  simp [execSerWrite, hfull, ha]

theorem execSerRead_of_empty (h : s.rxHead = s.rxTail) : execSerRead s = .next (s.complete resultNone .ok) :=
  if_pos (beq_iff_eq.2 h)

theorem execSerRead_of_unread (h : s.rxHead ≠ s.rxTail) :
    execSerRead s = .next (s.rxPop.checkXon.complete (resultData s.rxFront) .ok) :=
  if_neg fun he => h (beq_iff_eq.1 he)

/-- A runtime signal is cleared by its mask bit, and only the three signals of R30 can be. -/
theorem clearSignals_getLsbD (s : State) (mask : Byte) {n : Nat} (hn : n < 8) :
    (s.clearSignals mask).rtsig.getLsbD n = (s.rtsig.getLsbD n && !(mask.getLsbD n && decide (n < 3))) := by
  have hsignals : ∀ k < 8, (0x07#8 : Byte).getLsbD k = decide (k < 3) := by decide
  simp only [State.clearSignals, BitVec.getLsbD_and, BitVec.getLsbD_not, hn, hsignals n hn, decide_true, Bool.true_and]

/-! The end of a command (R111, R201) -/

/-- A step that frees the slot of a pending command ends it in `OK`, or changes nothing but what an error does. -/
theorem exec_completes (hp : s.pend ≠ none) (hx : exec i s = .next t) (hfree : t.pend = none) :
    t.err = .ok ∨ ∃ e, t = s.raiseErr e := by
  cases i with
  | nop | serResetRx | rtsigClear => cases hx; exact .inl rfl
  | serInit =>
    obtain rfl | ⟨d, rfl⟩ := execSerInit_cases hx
    · exact .inr ⟨_, rfl⟩
    · exact .inl rfl
  | serWrite b =>
    obtain ⟨-, rfl⟩ | ⟨-, -, rfl⟩ | ⟨-, -, rfl⟩ := execSerWrite_cases hx
    · exact .inl rfl
    · exact .inl rfl
    · exact absurd hfree hp
  | serRead =>
    obtain ⟨-, rfl⟩ | ⟨-, rfl⟩ := execSerRead_cases hx
    all_goals exact .inl rfl
  | nvRead a =>
    obtain ⟨-, rfl⟩ | ⟨-, -, rfl⟩ | ⟨-, -, rfl⟩ := execNvRead_cases hx
    · exact .inr ⟨_, rfl⟩
    · exact .inl rfl
    · exact absurd hfree hp
  | nvWrite a v =>
    obtain ⟨-, rfl⟩ | ⟨-, -, rfl⟩ | ⟨-, -, rfl⟩ := execNvWrite_cases hx
    · exact .inr ⟨_, rfl⟩
    · exact .inl rfl
    · exact absurd hfree hp
  | nvWriteBlock a =>
    obtain ⟨e, -, rfl⟩ | ⟨-, -, rfl⟩ | ⟨-, -, -, ⟨-, b, -, rfl⟩ | ⟨-, rfl⟩⟩ := execNvWriteBlock_cases rfl hx
    · exact .inr ⟨e, rfl⟩
    · exact absurd hfree hp
    · cases hfree
    · exact .inl rfl
  | nvReadBlock a =>
    obtain ⟨e, -, rfl⟩ | ⟨-, -, rfl⟩ | ⟨-, -, rfl⟩ := execNvReadBlock_cases rfl hx
    · exact .inr ⟨e, rfl⟩
    · exact absurd hfree hp
    · exact .inl rfl
  | bufPut j v =>
    obtain ⟨-, rfl⟩ | ⟨-, rfl⟩ := execBufPut_cases hx
    · exact .inr ⟨_, rfl⟩
    · exact .inl rfl
  | bufGet j =>
    obtain ⟨-, rfl⟩ | ⟨-, b, -, rfl⟩ := execBufGet_cases hx
    · exact .inr ⟨_, rfl⟩
    · exact .inl rfl

/-! The write that waits on a full TX before `SER_INIT` (R114, R134, R239) -/

/-- A `SER_WRITE` is pending, TX is full, `ABORT_IN` is 0, the link is off and the store idle. -/
structure WaitsOnFullTx (s : State) : Prop where
  pending : ∃ p b, s.pend = some p ∧ decode p.word = .ok (.serWrite b)
  full : s.txFull = true
  abortIn : s.abortIn = false
  serEn : s.serEn = false
  idle : s.nvInflight = none

/-- It reads seven fields. -/
theorem waitsOnFullTx_congr (h : WaitsOnFullTx s) (hp : t.pend = s.pend) (hc : t.cfg = s.cfg) (hh : t.txHead = s.txHead)
    (ht : t.txTail = s.txTail) (ha : t.abortIn = s.abortIn) (he : t.serEn = s.serEn) (hn : t.nvInflight = s.nvInflight) :
    WaitsOnFullTx t where
  pending := hp ▸ h.pending
  full := by rw [State.txFull, hc, hh, ht]; exact h.full
  abortIn := ha ▸ h.abortIn
  serEn := he ▸ h.serEn
  idle := hn ▸ h.idle

theorem serWrite_disabled (h : WaitsOnFullTx s) : commandEnabled (.serWrite b) s = false := by
  simp [commandEnabled, h.full, h.abortIn]

theorem txeEnabled_of_waits (h : WaitsOnFullTx s) : s.txeEnabled = false := by simp [State.txeEnabled, h.serEn]

/-- No agent of SLNV has an enabled step (R239). -/
theorem stuck_of_waits (h : WaitsOnFullTx s) : stuck s := by
  obtain ⟨p, b, hp, hd⟩ := h.pending
  have hce : s.ceEnabled = false := by
    simpa only [State.ceEnabled, State.pendingCommand, hp, Option.map_some, hd] using serWrite_disabled h
  exact ⟨by simp [hp], hce, txeEnabled_of_waits h, nvIdle_iff.2 h.idle⟩

/-- A command is pending, so the run is not over (R250). -/
theorem not_runOver_of_waits (h : WaitsOnFullTx s) : ¬ runOver s := by
  rintro ⟨-, -, hfree, -⟩
  obtain ⟨p, -, hp, -⟩ := h.pending
  cases hp.symm.trans hfree

/-- No agent frees it but ENV, by an abort, a reset or a power loss: the HOST's writes to `CMD` are held, RXE drops what the line
delivers, and the CE, TXE and NVE have no step. -/
theorem waitsOnFullTx_agentStep {u : Turn} (h : WaitsOnFullTx s) (hx : agentStep u s = .next t) (ha : u ≠ .abort true)
    (hr : u ≠ .reset) (hl : u ≠ .powerLoss) : WaitsOnFullTx t := by
  obtain ⟨p, b, hp, hd⟩ := h.pending
  cases u with
  | host =>
    obtain ⟨arg, pend, held, script, reads, rfl, rfl | ⟨w, hfree, -⟩⟩ := hostStep_frame hx
    · exact waitsOnFullTx_congr h rfl rfl rfl rfl rfl rfl rfl
    · cases hp.symm.trans hfree
  | ce =>
    cases ((ceStep_of_pending hp hd).trans (exec_of_disabled (serWrite_disabled h))).symm.trans hx
    exact h
  | rxe c =>
    cases hx
    obtain ⟨_, _, _, _, _, _, he, -⟩ := rxeStep_frame c s
    exact he ▸ waitsOnFullTx_congr h rfl rfl rfl rfl rfl rfl rfl
  | txe =>
    cases hx
    rwa [txeStep, txeEnabled_of_waits h, if_neg Bool.false_ne_true]
  | nve => cases hx; rwa [nveStep, finishProgramming_of_idle h.idle]
  | abort l =>
    cases hx
    cases l with
    | true => exact absurd rfl ha
    | false => exact waitsOnFullTx_congr h rfl rfl rfl rfl h.abortIn.symm rfl rfl
  | reset => exact absurd rfl hr
  | powerLoss => exact absurd rfl hl

end

/-! The statements -/

/-- Settles O35: a step that frees the slot of a pending command ends it in `OK` or is `raiseErr`. -/
theorem errorsArePrecise : Obligations.ErrorsArePrecise := by
  intro i s t hp hx hfree herr
  have hbusy : s.pend ≠ none := Option.isSome_iff_ne_none.1 hp
  obtain hok | ⟨e, rfl⟩ := exec_completes hbusy hx hfree
  · exact absurd hok herr
  · rfl

/-- Settles O59: the waiting state is stuck and not over, and every other turn leads to a waiting state. -/
theorem fullTxBeforeInitIsStuck : Obligations.FullTxBeforeInitIsStuck := by
  intro s w b arg hd hp hfull he ha hn
  have hd : decode (acceptedCommand w arg).word = .ok (.serWrite b) := by rwa [word_acceptedCommand]
  have h : WaitsOnFullTx s := ⟨⟨_, b, hp, hd⟩, hfull, ha, he, hn⟩
  refine ⟨stuck_of_waits h, not_runOver_of_waits h, fun u t hx habort hreset hloss => ?_⟩
  obtain ⟨rest, hpass, -⟩ := passNamed_eq s u
  rw [turnStep, hpass] at hx
  have hpassed : WaitsOnFullTx { s with script := rest } := waitsOnFullTx_congr h rfl rfl rfl rfl rfl rfl rfl
  have ht : WaitsOnFullTx t := waitsOnFullTx_agentStep hpassed hx habort hreset hloss
  exact ⟨stuck_of_waits ht, not_runOver_of_waits ht⟩

/-- Settles O16: `NOP` has one outcome. -/
theorem nopCompletes : Obligations.NopCompletes := fun _ => rfl

/-- Settles O17: the command works on the `ARG` of its record, compared with 0 and with the threshold as numbers. -/
theorem serInitTakesTheRate : Obligations.SerInitTakesTheRate := by
  intro s p hp
  have hrate : (s.command .serInit).rate = p.arg := congrArg Pend.rate (command_of_pending hp _)
  constructor
  · intro h0
    exact execSerInit_of_rate_zero (hrate.trans h0)
  · intro hne
    refine ⟨decide (s.cfg.rateThreshold < p.arg), ?_, decide_eq_true_iff.trans BitVec.lt_def⟩
    rw [← hrate]
    exact execSerInit_of_rate_ne_zero (hrate ▸ hne)

/-- Settles O18: TX with space, full with an abort, full without one. -/
theorem serWriteEnqueuesAbortsOrHolds : Obligations.SerWriteEnqueuesAbortsOrHolds := by
  intro s b
  refine ⟨fun hspace => ?_, fun hfull ha => ?_, fun hfull ha => ?_⟩
  · exact execSerWrite_of_space (txFull_eq_false.2 hspace)
  · exact execSerWrite_of_abort (txFull_eq_true.2 hfull) ha
  · exact exec_of_disabled (by simp [commandEnabled, txFull_eq_true.2 hfull, ha])

/-- Settles O19: the check of `FLOW` after the dequeue is the only choice of a read that finds a byte. -/
theorem serReadDequeues : Obligations.SerReadDequeues := by
  intro s
  refine ⟨execSerRead_of_empty, fun hunread => ⟨?low, ?notLow⟩⟩
  case low =>
    rintro ⟨hf, hx, hocc⟩
    rw [exec, execSerRead_of_unread hunread, checkXon_of_low (s := s.rxPop) hf hx hocc]
    rfl
  case notLow =>
    intro hlow
    rw [exec, execSerRead_of_unread hunread, checkXon_of_not (s := s.rxPop) hlow]
    rfl

/-- Settles O20: `SER_RESET_RX` has one outcome. -/
theorem serResetRxClearsLogically : Obligations.SerResetRxClearsLogically := fun _ => rfl

/-- Settles O21: `RTSIG_CLEAR` has one outcome, read bit by bit. -/
theorem rtsigClearClearsMaskedBits : Obligations.RtsigClearClearsMaskedBits := fun s mask =>
  ⟨(s.clearSignals mask).rtsig, rfl, fun _ hn => clearSignals_getLsbD s mask hn⟩

end Sys2Proof.Machine

/-! PROOF. The serial engines (41_serial_engines.md): the equation of each outcome of the RXE and TXE steps (R130 to R137), what they
and every other agent do to the unread bytes of RX (R140), and the order in which bytes leave (R141, R142). -/

namespace Sys2Proof.Machine

open Sys2Proof.Safety

section

variable {s t : State} {b : Byte}

/-! The RXE step (R130 to R133) -/

theorem emit_emit (s : State) (e f : Event) : (s.emit e).emit f = { s with obs := s.obs ++ [e, f] } := by
  simp [State.emit]

theorem rxeStep_of_off (he : s.serEn = false) : rxeStep b s = s.emit (.rxDrop b) := if_pos he

theorem rxeStep_of_realtime (he : s.serEn = true) (hr : isRealtime s.cfg b = true) :
    rxeStep b s = (s.emit (.lineIn b)).realtime b := by
  simp [rxeStep, he, hr]

theorem rxeStep_of_full (he : s.serEn = true) (hr : isRealtime s.cfg b = false)
    (hfull : inc s.rxHead s.cfg.rxCap = s.rxTail) : rxeStep b s = (s.emit (.lineIn b)).emit (.rxDrop b) := by
  simp [rxeStep, State.buffer, State.rxFull, he, hr, hfull]

theorem rxeStep_of_space (he : s.serEn = true) (hr : isRealtime s.cfg b = false)
    (hspace : inc s.rxHead s.cfg.rxCap ≠ s.rxTail) :
    rxeStep b s = ((s.emit (.lineIn b)).rxPush b).checkXoff := by
  simp [rxeStep, State.buffer, State.rxFull, he, hr, hspace]

/-! Which realtime byte does what: the four are distinct on a well-formed configuration (R4, R131). -/

theorem realtime_rtStatus (s : State) : s.realtime s.cfg.rtStatus = s.signal 0x01#8 := if_pos rfl

theorem realtime_rtCycleStart (h : s.cfg.RealtimeBytesDistinct) :
    s.realtime s.cfg.rtCycleStart = s.signal 0x02#8 := by
  obtain ⟨hcs, -⟩ := h
  rw [State.realtime, if_neg hcs.symm, if_pos rfl]

theorem realtime_rtFeedHold (h : s.cfg.RealtimeBytesDistinct) : s.realtime s.cfg.rtFeedHold = s.signal 0x04#8 := by
  obtain ⟨-, hfs, -, hfc, -⟩ := h
  rw [State.realtime, if_neg hfs.symm, if_neg hfc.symm, if_pos rfl]

theorem realtime_rtReset (h : s.cfg.RealtimeBytesDistinct) : s.realtime s.cfg.rtReset = s.emit .abortHook := by
  obtain ⟨-, -, hrs, -, hrc, hrf⟩ := h
  rw [State.realtime, if_neg hrs.symm, if_neg hrc.symm, if_neg hrf.symm, if_pos rfl]

/-- A realtime byte touches `RTSIG` and the record (R131). -/
theorem realtime_frame (s : State) (b : Byte) : ∃ rtsig obs, s.realtime b = { s with rtsig := rtsig, obs := obs } := by
  unfold State.realtime
  split_ifs
  all_goals exact ⟨_, _, rfl⟩

/-! The TXE step (R134 to R137) -/

theorem txeStep_of_enabled (he : s.serEn = true) (ha : s.txArmed = true) : txeStep s = s.transmit.disarm := by
  simp [txeStep, State.txeEnabled, he, ha]

theorem txeStep_of_not_enabled (h : ¬ (s.serEn = true ∧ s.txArmed = true)) : txeStep s = s :=
  if_neg fun he => h (Bool.and_eq_true_iff.1 he)

theorem txeStep_of_xoffPending (he : s.serEn = true) (ha : s.txArmed = true) (hf : s.cfg.flowControl = true)
    (hx : s.flow = .xoffPending) :
    txeStep s = ({ s.emit (.lineOut s.cfg.xoffByte) with flow := s.flowAfterXoff } : State).disarm := by
  rw [txeStep_of_enabled he ha, State.transmit, if_pos ⟨hf, hx⟩]

theorem txeStep_of_xonPending (he : s.serEn = true) (ha : s.txArmed = true) (hf : s.cfg.flowControl = true)
    (hx : s.flow = .xonPending) :
    txeStep s = ({ s.emit (.lineOut s.cfg.xonByte) with flow := s.flowAfterXon } : State).disarm := by
  have hnot : s.flow ≠ .xoffPending := fun h => by cases hx.symm.trans h
  rw [txeStep_of_enabled he ha, State.transmit, if_neg fun h => hnot h.2, if_pos ⟨hf, hx⟩]

/-! The disarm check adds no event, so the record grows by the flow byte alone (R24, R137). -/

theorem txeStep_obs_of_xoffPending (he : s.serEn = true) (ha : s.txArmed = true) (hf : s.cfg.flowControl = true)
    (hx : s.flow = .xoffPending) : (txeStep s).obs = s.obs ++ [.lineOut s.cfg.xoffByte] := by
  rw [txeStep_of_xoffPending he ha hf hx, disarm_obs, emit_obs]

theorem txeStep_obs_of_xonPending (he : s.serEn = true) (ha : s.txArmed = true) (hf : s.cfg.flowControl = true)
    (hx : s.flow = .xonPending) : (txeStep s).obs = s.obs ++ [.lineOut s.cfg.xonByte] := by
  rw [txeStep_of_xonPending he ha hf hx, disarm_obs, emit_obs]

/-! Payload (R135, R137) -/

/-- With no flow byte pending, neither of the branches that send one is taken. -/
theorem transmit_of_no_flow (hp : s.flowPending = false) :
    s.transmit = if s.txEmpty then s else s.txPop.emit (.lineOut s.txFront) := by
  have hnot : ∀ f : Flow, f.pending = true → ¬ (s.cfg.flowControl = true ∧ s.flow = f) := by
    rintro f hpending ⟨hf, rfl⟩
    simp [State.flowPending, hf, hpending] at hp
  rw [State.transmit, if_neg (hnot .xoffPending rfl), if_neg (hnot .xonPending rfl)]

theorem transmit_of_payload (hp : s.flowPending = false) (hne : s.txHead ≠ s.txTail) :
    s.transmit = s.txPop.emit (.lineOut s.txFront) :=
  (transmit_of_no_flow hp).trans (if_neg fun h => hne (beq_iff_eq.1 h))

theorem transmit_of_empty (hp : s.flowPending = false) (he : s.txHead = s.txTail) : s.transmit = s :=
  (transmit_of_no_flow hp).trans (if_pos (beq_iff_eq.2 he))

/-- With no flow byte pending an armed path stays armed exactly while payload is left (R137). -/
theorem disarm_of_no_flow (ha : s.txArmed = true) (hp : s.flowPending = false) :
    s.disarm = { s with txArmed := decide (s.txHead ≠ s.txTail) } := by
  by_cases he : s.txHead = s.txTail
  · rw [disarm_of_drained he hp, decide_eq_false (not_not.2 he)]
  · rw [disarm_of_payload he, decide_eq_true he, ← ha]

/-- One payload byte is sent (R135). -/
theorem txeStep_of_payload (he : s.serEn = true) (ha : s.txArmed = true) (hp : s.flowPending = false)
    (hne : s.txHead ≠ s.txTail) :
    txeStep s = { s.txPop.emit (.lineOut s.txFront) with txArmed := decide (s.txHead ≠ s.txPop.txTail) } := by
  rw [txeStep_of_enabled he ha, transmit_of_payload hp hne]
  exact disarm_of_no_flow ha hp

/-! What a step does to the unread bytes of RX (R140) -/

/-- The frames of the twelve commands have this part in common (R71). -/
theorem sameRest_exec {i : Instr} (hx : exec i s = .next t) : SameRest s t := by
  obtain ⟨hnop, hinit, hwrite, hread, hreset, hclear⟩ := serialCommandsFrame i s t hx
  obtain ⟨hreads, hissues, hfills, -⟩ := storeCommandsFrame i s t hx
  cases i with
  | nop => exact (hnop rfl).2.2
  | serInit => exact (hinit rfl).2.1
  | serWrite b => exact (hwrite b rfl).2.1
  | serRead => exact (hread rfl).2.1
  | serResetRx => exact (hreset rfl).2.1
  | rtsigClear m => exact (hclear m rfl).2.1
  | nvRead a => exact (hreads (.inl ⟨a, rfl⟩)).2.2
  | bufGet j => exact (hreads (.inr ⟨j, rfl⟩)).2.2
  | nvWrite a v => exact (hissues (.inl ⟨a, v, rfl⟩)).2.1
  | nvWriteBlock a => exact (hissues (.inr ⟨a, rfl⟩)).2.1
  | bufPut j v => exact (hfills (.inl ⟨j, v, rfl⟩)).2.1
  | nvReadBlock a => exact (hfills (.inr ⟨a, rfl⟩)).2.1

theorem ceStep_powerLosses (hx : ceStep s = .next t) : t.powerLosses = s.powerLosses := by
  obtain ⟨-, rfl⟩ | ⟨p, e, -, -, rfl⟩ | ⟨p, i, -, -, hi⟩ := ceStep_cases hx
  · rfl
  · rfl
  · exact (sameRest_exec hi).powerLosses

/-- No agent but power loss begins a new draw of the ring slots (R232). -/
theorem agentStep_powerLosses {u : Turn} (hx : agentStep u s = .next t) (hu : u ≠ .powerLoss) :
    t.powerLosses = s.powerLosses := by
  cases u with
  | host =>
    obtain ⟨_, _, _, _, _, rfl, -⟩ := hostStep_frame hx
    rfl
  | ce => exact ceStep_powerLosses hx
  | rxe b =>
    cases hx
    obtain ⟨_, _, _, _, _, _, he, -⟩ := rxeStep_frame b s
    rw [he]
  | txe =>
    cases hx
    obtain ⟨_, _, _, _, he, -⟩ := txeStep_frame s
    rw [he]
  | nve => cases hx; exact finishProgramming_powerLosses s
  | abort l => cases hx; rfl
  | reset => cases hx; simp [resetStep]
  | powerLoss => exact absurd rfl hu

/-- A step leaves the tail of a ring, advances it past a byte, or empties the ring. -/
theorem tail_of_ringStep {cap : Nat} {m m' : Memory} {head tail head' tail' : Byte}
    (hstep : RingStep cap m head tail m' head' tail') :
    tail' = tail ∨ (head ≠ tail ∧ tail' = inc tail cap) ∨ head' = tail' := by
  cases hstep with
  | stays => exact .inl rfl
  | push b _ => exact .inl rfl
  | pop hne => exact .inr (.inl ⟨hne, rfl⟩)
  | clear i => exact .inr (.inr rfl)
  | lose i => exact .inr (.inr rfl)

theorem rxContents_of_empty (h : t.rxHead = t.rxTail) : rxContents t = [] := by simp [rxContents, State.rxOcc, h]

/-- Where the write side of RX stays, only unread bytes can go (R71). -/
theorem rxContents_subset (h : RegistersOk s) (hstep : RxStep s t) (hhead : t.rxHead = s.rxHead)
    (hmem : t.rxMem = s.rxMem) (hcfg : t.cfg = s.cfg) (hdraw : t.powerLosses = s.powerLosses) :
    rxContents t ⊆ rxContents s := by
  obtain htail | ⟨hne, htail⟩ | hempty := tail_of_ringStep hstep
  · obtain ⟨hsame, -⟩ := rx_congr hcfg hhead htail hmem hdraw
    exact hsame ▸ List.Subset.refl _
  · obtain ⟨hsame, -⟩ := rx_congr (s := s.rxPop) hcfg hhead htail hmem hdraw
    obtain ⟨hpop, -⟩ := rxContents_pop h hne
    rw [hsame, hpop]
    exact List.subset_cons_self _ _
  · rw [rxContents_of_empty hempty]
    exact List.nil_subset _

/-- A byte joins the unread ones only if it is no realtime byte (R131, R132). -/
theorem rxContents_rxeStep (h : RegistersOk s) (b : Byte) :
    rxContents (rxeStep b s) = rxContents s ∨
      isRealtime s.cfg b = false ∧ rxContents (rxeStep b s) = rxContents s ++ [b] := by
  cases he : s.serEn with
  | false => exact .inl (by rw [rxeStep_of_off he]; rfl)
  | true =>
    cases hr : isRealtime s.cfg b with
    | true =>
      obtain ⟨_, _, hframe⟩ := realtime_frame (s.emit (.lineIn b)) b
      exact .inl (by rw [rxeStep_of_realtime he hr, hframe]; rfl)
    | false =>
      by_cases hfull : inc s.rxHead s.cfg.rxCap = s.rxTail
      · exact .inl (by rw [rxeStep_of_full he hr hfull]; rfl)
      · have hspace := (inc_ne_iff h.rxHead h.rxTail (caps_le_of_registersOk h).1).1 hfull
        exact .inr ⟨rfl, (rxIsFifo s _ h).1 b he hr hspace rfl⟩

/-- The unread bytes after a turn were unread before it, or are the byte the line delivered, which is then no realtime
byte. -/
theorem mem_rxContents_agentStep {u : Turn} (h : RegistersOk s) (hx : agentStep u s = .next t) (hb : b ∈ rxContents t) :
    b ∈ rxContents s ∨ isRealtime s.cfg b = false := by
  cases u with
  | rxe c =>
    cases hx
    obtain hsame | ⟨hr, hjoin⟩ := rxContents_rxeStep h c
    · exact .inl (hsame ▸ hb)
    · rw [hjoin, List.mem_append, List.mem_singleton] at hb
      exact hb.imp_right fun hbc : b = c => hbc ▸ hr
  | reset | powerLoss => cases hx; rw [rxContents_of_empty rfl] at hb; cases hb
  | host | ce | txe | nve | abort =>
    obtain ⟨hwrite, -⟩ := ownershipTableIsKept _ s t hx nofun nofun
    obtain ⟨hhead, hmem⟩ := hwrite nofun
    exact .inl (rxContents_subset h (agentStep_rings hx).1 hhead hmem (agentStep_cfg hx)
      (agentStep_powerLosses hx nofun) hb)

theorem realtimeExcluded_agentStep (u : Turn) (s t : State) (h : RealtimeExcluded s) (hx : agentStep u s = .next t) :
    RealtimeExcluded t := by
  refine ⟨registersOk_agentStep u s t h.registers hx, fun b hb => ?_⟩
  rw [agentStep_cfg hx]
  exact (mem_rxContents_agentStep h.registers hx hb).elim (h.unread b) id

/-! What TXE sends while no flow byte is pending (R135, R142) -/

/-- One transmit-ready event sends the oldest byte and leaves the others, with the path armed exactly while there are any. -/
theorem txeStep_sends_oldest (h : RegistersOk s) (he : s.serEn = true) (hp : s.flow.pending = false)
    (hne : s.txHead ≠ s.txTail) :
    txContents s = s.txFront :: txContents (txeStep s) ∧ s.txOcc = (txeStep s).txOcc + 1 ∧
      (txeStep s).obs = s.obs ++ [.lineOut s.txFront] ∧ (txeStep s).serEn = true ∧ (txeStep s).flow = s.flow ∧
      (txeStep s).txArmed = decide ((txeStep s).txHead ≠ (txeStep s).txTail) := by
  have hidle : s.flowPending = false := by simp [State.flowPending, hp]
  obtain ⟨hcontents, hocc, -⟩ := txContents_pop h hne
  rw [txeStep_of_payload he (h.payloadArmed hne) hidle hne]
  exact ⟨hcontents, hocc, rfl, he, rfl, rfl⟩

/-- As many transmit-ready events as there are unsent bytes, of a path armed exactly while there are any. -/
theorem txeStep_iterate_drains (n : Nat) (h : RegistersOk s) (he : s.serEn = true) (hp : s.flow.pending = false)
    (ha : s.txArmed = decide (s.txHead ≠ s.txTail)) (hn : s.txOcc = n) :
    (txeStep^[n] s).obs = s.obs ++ (txContents s).map .lineOut ∧
      (txeStep^[n] s).txHead = (txeStep^[n] s).txTail ∧ (txeStep^[n] s).txArmed = false := by
  induction n generalizing s with
  | zero =>
    have hempty : s.txHead = s.txTail := (occ_eq_zero h.txHead h.txTail).1 hn
    exact ⟨by simp [txContents, hn], hempty, by simp [ha, hempty]⟩
  | succ n ih =>
    have hne : s.txHead ≠ s.txTail := fun hempty => by simp [State.txOcc, hempty] at hn
    obtain ⟨hcontents, hocc, hobs, hon, hflow, harmed⟩ := txeStep_sends_oldest h he hp hne
    obtain ⟨hsent, hdrained⟩ := ih (registersOk_txeStep h) hon (hflow ▸ hp) harmed (by omega)
    rw [Function.iterate_succ_apply]
    exact ⟨by rw [hsent, hobs, hcontents]; simp, hdrained⟩

end

/-! The statements -/

/-- Settles O50: the byte that joins is no realtime byte, and `SER_READ` answers the oldest of the unread. -/
theorem realtimeBytesAreNeverRead : Obligations.RealtimeBytesAreNeverRead := by
  refine ⟨fun s t h hx => ?kept, fun s t h hne hx => ?answered⟩
  case kept =>
    exact step_keeps (fun _ _ _ h => ⟨registersOk_congr h.registers rfl rfl rfl rfl rfl rfl rfl, h.unread⟩)
      realtimeExcluded_agentStep h hx
  case answered =>
    obtain ⟨b, hresult, hcontents⟩ := (rxIsFifo s t h.registers).2 hne hx
    rw [hresult, extract_low b (by decide)]
    exact h.unread b (hcontents ▸ List.mem_cons_self)

/-- Settles O41: a flow byte pending, XOFF or XON, with the opposite watermark reached or not; payload; nothing. A re-check that
schedules another flow byte keeps the path armed. -/
theorem txeSendsFlowBytesFirst : Obligations.TxeSendsFlowBytesFirst := by
  intro s
  refine ⟨txeStep_of_not_enabled, fun he ha => ⟨?xoffLow, ?xoff, ?xonHigh, ?xon, ?payload, ?empty⟩⟩
  case xoffLow =>
    intro hf hx hocc
    rw [txeStep_of_xoffPending he ha hf hx, State.flowAfterXoff, if_pos hocc]
    exact disarm_of_flowPending ((Bool.and_true _).trans hf)
  case xoff =>
    intro hf hx hocc
    rw [txeStep_of_xoffPending he ha hf hx, State.flowAfterXoff, if_neg (Nat.not_lt.2 hocc)]
    exact disarm_of_no_flow ha (Bool.and_false _)
  case xonHigh =>
    intro hf hx hocc
    rw [txeStep_of_xonPending he ha hf hx, State.flowAfterXon, if_pos hocc]
    exact disarm_of_flowPending ((Bool.and_true _).trans hf)
  case xon =>
    intro hf hx hocc
    rw [txeStep_of_xonPending he ha hf hx, State.flowAfterXon, if_neg (Nat.not_le.2 hocc)]
    exact disarm_of_no_flow ha (Bool.and_false _)
  case payload => exact txeStep_of_payload he ha
  case empty =>
    intro hidle hempty
    rw [txeStep_of_enabled he ha, transmit_of_empty hidle hempty, disarm_of_drained hempty hidle]

/-- Settles O54: a write with space is one push, and the armed path sends one byte an event until none is left. -/
theorem txDrainsInOrder : Obligations.TxDrainsInOrder := by
  refine ⟨fun s t b h hspace hx => ?appended, fun s h he hp hne => ?drained⟩
  case appended =>
    have hfree := (inc_ne_iff h.txHead h.txTail (caps_le_of_registersOk h).2).2 hspace
    cases (execSerWrite_of_space (b := b) (txFull_eq_false.2 hfree)).symm.trans hx
    exact (txContents_push h hfree).1
  case drained =>
    have ha : s.txArmed = decide (s.txHead ≠ s.txTail) := by rw [h.payloadArmed hne, decide_eq_true hne]
    exact txeStep_iterate_drains s.txOcc h he hp ha rfl

/-- Settles O55: the check after the append, or after the dequeue, leaves a flow byte pending and the path armed. -/
theorem flowBytePrecedesPayload : Obligations.FlowBytePrecedesPayload := by
  intro s t h he hf
  refine ⟨?append, ?read⟩
  case append =>
    rintro b hx hr hspace hhigh rfl
    have hfree := (inc_ne_iff h.rxHead h.rxTail (caps_le_of_registersOk h).1).2 hspace
    obtain ⟨-, hocc⟩ := rxContents_push (b := b) (registersOk_emit h (.lineIn b)) hfree
    have hstep : rxeStep b s = ((s.emit (.lineIn b)).rxPush b).scheduleFlow .xoffPending := by
      rw [rxeStep_of_space he hr hfree]
      exact checkXoff_of_high hf hx (hocc ▸ hhigh)
    rw [hstep]
    exact ⟨rfl, txeStep_obs_of_xoffPending he rfl hf rfl⟩
  case read =>
    intro hx hne hlow hexec
    obtain ⟨-, hocc, -⟩ := rxContents_pop h hne
    have hcheck : s.rxPop.checkXon = s.rxPop.scheduleFlow .xonPending :=
      checkXon_of_low hf hx (show s.rxPop.rxOcc < s.cfg.lowWm by omega)
    cases ((execSerRead_of_unread hne).trans (by rw [hcheck])).symm.trans hexec
    exact ⟨rfl, txeStep_obs_of_xonPending he rfl hf rfl⟩

/-- Settles O39: the line before `SER_INIT`, and the four bytes after it. -/
theorem rxeActsOnRealtimeBytes : Obligations.RxeActsOnRealtimeBytes := by
  intro s b ⟨_, _, _, hdistinct⟩
  refine ⟨rxeStep_of_off, fun he => ⟨?status, ?cycleStart, ?feedHold, ?reset⟩⟩
  all_goals
    rintro rfl
    rw [rxeStep_of_realtime he (by simp [isRealtime])]
  case status => exact realtime_rtStatus _
  case cycleStart => exact realtime_rtCycleStart (s := s.emit _) hdistinct
  case feedHold => exact realtime_rtFeedHold (s := s.emit _) hdistinct
  case reset => exact (realtime_rtReset (s := s.emit _) hdistinct).trans (emit_emit s _ _)

/-- Settles O40: RX full; an append that reaches the high watermark with the remote released; any other append. -/
theorem rxeBuffersOtherBytes : Obligations.RxeBuffersOtherBytes := by
  intro s b he hr
  refine ⟨fun hfull => ?full, fun hspace => ⟨?high, ?notHigh⟩⟩
  case full => exact (rxeStep_of_full he hr hfull).trans (emit_emit s _ _)
  all_goals
    intro hhigh
    rw [rxeStep_of_space he hr hspace]
  case high =>
    obtain ⟨hf, hx, hocc⟩ := hhigh
    exact checkXoff_of_high (s := (s.emit _).rxPush b) hf hx hocc
  case notHigh => exact checkXoff_of_not (s := (s.emit _).rxPush b) hhigh

end Sys2Proof.Machine

/-! PROOF. The commands of the non-volatile store (42_nv_store.md): the mode decision and what it programs (R162 to R164), and the
equation of each outcome of each command (R161, R165 to R173). -/

namespace Sys2Proof.Machine

section

variable {s t : State} {p : Pend} {a j : Addr} {old v b : Byte} {e : Err}

/-! The mode decision (R162) -/

/-- "Some bit must rise" fails exactly when every bit of the value is there already. -/
theorem no_rise_iff : (old ^^^ v) &&& v = 0 ↔ ∀ n < 8, v.getLsbD n = true → old.getLsbD n = true := by
  constructor
  · intro h n _ hv
    have hold : (old &&& v).getLsbD n = v.getLsbD n := by rw [and_eq_right_of_clears h]
    simpa [hv] using hold
  · intro h
    apply BitVec.eq_of_getLsbD_eq
    intro n hn
    cases hv : v.getLsbD n with
    | false => simp [hv]
    | true => simp [hv, h n hn hv]

theorem selectMode_of_rise (h : (old ^^^ v) &&& v ≠ 0) :
    selectMode old v = if v = 0xFF then .eraseOnly else .eraseAndWrite := by
  by_cases hv : v = 0xFF <;> simp_all [selectMode]

theorem selectMode_of_no_rise (h : (old ^^^ v) &&& v = 0) :
    selectMode old v = if old = v then .noOp else .writeOnly := by
  simp [selectMode, h, BitVec.xor_eq_zero_iff]

/-! Programming one cell (R163 to R166) -/

theorem issued_toNat (a : Addr) (m : NvMode) (v : Byte) :
    issued a.toNat m v = if m = .noOp then none else some ⟨a, m, v⟩ := by
  simp [issued]

theorem nvByte_congr (h : t.nv = s.nv) (c : Nat) : t.nvByte c = s.nvByte c := by simp only [State.nvByte, h]

/-- The NVE step of what the decided mode issued leaves the value in its cell, NoOp included, and every other cell alone. -/
theorem nvByte_finishProgramming_of_issued {k : Nat} (hk : k < 65536) (hcells : t.nv = s.nv)
    (hissued : t.nvInflight = issued k (selectMode (s.nvByte k) v) v) (c : Nat) :
    t.finishProgramming.nvByte c = if c = k then v else s.nvByte c := by
  have hold := nvByte_congr hcells
  have hprog := programmed_selectMode (s.nvByte k) v
  by_cases hm : selectMode (s.nvByte k) v = .noOp
  · have hsame : s.nvByte k = v := by rwa [hm] at hprog
    rw [finishProgramming_of_idle (by simp [hissued, issued, hm]), hold]
    split_ifs with hc
    · rw [hc, hsame]
    · rfl
  · have haddr : (BitVec.ofNat 16 k).toNat = k := Nat.mod_eq_of_lt hk
    rw [finishProgramming_of_inflight (hissued.trans (if_neg hm)), nvByte_write]
    simp only [haddr, hold, hprog]

/-! `NV_READ` and `NV_WRITE` (R161, R165) -/

theorem execNvRead_of_illegal (h : s.cfg.nvSize ≤ a.toNat) : execNvRead a s = .next (s.raiseErr .addr) :=
  if_pos ((nvLegal_false_iff _).2 h)

theorem execNvRead_of_idle (h : a.toNat < s.cfg.nvSize) (hn : s.nvInflight = none) :
    execNvRead a s = .next (s.complete (resultData (s.nvByte a.toNat)) .ok) := by
  simp [execNvRead, h, hn]

theorem execNvWrite_of_illegal (h : s.cfg.nvSize ≤ a.toNat) : execNvWrite a v s = .next (s.raiseErr .addr) :=
  if_pos ((nvLegal_false_iff _).2 h)

theorem execNvWrite_of_idle (h : a.toNat < s.cfg.nvSize) (hn : s.nvInflight = none) :
    execNvWrite a v s = .next ((s.writeByte a.toNat v).complete 0 .ok) := by
  simp [execNvWrite, h, hn]

/-! `NV_WRITE_BLOCK` (R169 to R171) -/

theorem writeBlockError_of_blockError {k : Nat} (hi : p.i = 0) : s.writeBlockError k p = s.blockError k p.len := if_pos hi

/-- A block within the limits raises no error at any of its steps. -/
theorem writeBlockError_of_legal {k : Nat} (hlen : p.len ≤ s.cfg.blockMax) (hrange : k + p.len < s.cfg.nvSize) :
    s.writeBlockError k p = none := by
  unfold State.writeBlockError
  split_ifs
  · exact blockError_eq_none.2 ⟨hlen, hrange⟩
  · rfl

theorem blkWritten_eq_false {n : Nat} : s.blkWritten n = false ↔ ∃ k < n, s.blkByte k = none := by
  simp [State.blkWritten]

theorem execNvWriteBlock_of_error (hp : s.pend = some p) (he : s.writeBlockError a.toNat p = some e) :
    execNvWriteBlock a s = .next (s.raiseErr e) := by
  simp [execNvWriteBlock, command_of_pending hp, he]

theorem execNvWriteBlock_of_unwritten (hp : s.pend = some p) (he : s.writeBlockError a.toNat p = none)
    (hn : s.nvInflight = none) (hi : p.i = 0) (hblk : s.blkWritten p.len = false) :
    execNvWriteBlock a s = .fault .unwrittenBlk := by
  simp [execNvWriteBlock, command_of_pending hp, he, hn, hi, hblk]

theorem execNvWriteBlock_of_payload (hp : s.pend = some p) (he : s.writeBlockError a.toNat p = none)
    (hn : s.nvInflight = none) (hblk : s.blkWritten p.len = true) (hlt : p.i.toNat < p.len)
    (hb : s.blkByte p.i.toNat = some b) :
    execNvWriteBlock a s = .next { s.writeByte (a.toNat + p.i.toNat) b with
      pend := some { p with i := p.i + 1, acc := csumStep p.acc b } } := by
  simp [execNvWriteBlock, command_of_pending hp, he, hn, hblk, hlt, State.blockPayloadStep, hb]

/-- The final step looks at no slot: with no byte done the block has none. -/
theorem execNvWriteBlock_of_final (hp : s.pend = some p) (he : s.writeBlockError a.toNat p = none)
    (hn : s.nvInflight = none) (hi : p.i.toNat = p.len) : execNvWriteBlock a s = .next (s.blockFinalStep a.toNat p) := by
  have hslots : p.i = 0 → s.blkWritten p.len = true := by
    intro h0
    have hlen : p.len = 0 := by rw [← hi, h0]; rfl
    exact blkWritten_iff.2 fun k hk => absurd (hlen ▸ hk) (Nat.not_lt_zero k)
  simpa [execNvWriteBlock, command_of_pending hp, he, hn, hi] using hslots

/-! `NV_READ_BLOCK` (R172, R173) -/

theorem execNvReadBlock_of_error (hp : s.pend = some p) (he : s.blockError a.toNat p.len = some e) :
    execNvReadBlock a s = .next (s.raiseErr e) := by
  simp [execNvReadBlock, command_of_pending hp, he]

theorem execNvReadBlock_of_idle (hp : s.pend = some p) (he : s.blockError a.toNat p.len = none) (hn : s.nvInflight = none) :
    execNvReadBlock a s = .next (({ s with blk := s.blk.writeFrom 0 (s.nvBytes a.toNat p.len) } : State).complete
      (resultBlock (csum (s.nvBytes a.toNat p.len)) (s.nvByte (a.toNat + p.len))) .ok) := by
  simp [execNvReadBlock, command_of_pending hp, he, hn]

/-- The fields of a block read's result and its reserved bits (R28). -/
theorem resultBlock_fields (sum stored : Byte) :
    (resultBlock sum stored).extractLsb' 0 8 = stored ∧ (resultBlock sum stored).extractLsb' 8 2 = 0 ∧
    (resultBlock sum stored).extractLsb' 11 5 = 0 ∧ (resultBlock sum stored).extractLsb' 16 8 = sum ∧
    (resultBlock sum stored).extractLsb' 24 8 = 0 := by
  simp [resultBlock, BitVec.extractLsb'_or, extract_field, extract_field_disjoint, extract_low, extract_low_disjoint]

/-- `VERIFIED` (R28, R173). -/
theorem resultBlock_verified {sum stored : Byte} : (resultBlock sum stored).getLsbD 10 = true ↔ sum = stored := by
  simp [resultBlock]

/-- The slots after the bytes of a list are stored from slot 0 on (R172). -/
theorem read_writeFrom_zero (m : Memory) (bs : List Byte) (k : Nat) :
    (m.writeFrom 0 bs).read k = if h : k < bs.length then some bs[k] else m.read k := by
  simp [Memory.read_writeFrom]

/-! `BUF_PUT` and `BUF_GET` (R167, R168) -/

theorem execBufPut_of_illegal (h : s.cfg.blockMax ≤ j.toNat) : execBufPut j v s = .next (s.raiseErr .addr) := if_pos h

theorem execBufPut_of_legal (h : j.toNat < s.cfg.blockMax) :
    execBufPut j v s = .next (({ s with blk := s.blk.write j.toNat v } : State).complete 0 .ok) :=
  if_neg (Nat.not_le.2 h)

theorem execBufGet_of_illegal (h : s.cfg.blockMax ≤ j.toNat) : execBufGet j s = .next (s.raiseErr .addr) := if_pos h

theorem execBufGet_of_written (h : j.toNat < s.cfg.blockMax) (hb : s.blkByte j.toNat = some b) :
    execBufGet j s = .next (s.complete (resultData b) .ok) := by
  simp [execBufGet, h, hb]

theorem execBufGet_of_unwritten (h : j.toNat < s.cfg.blockMax) (hb : s.blkByte j.toNat = none) :
    execBufGet j s = .fault .unwrittenBlk := by
  simp [execBufGet, h, hb]

end

/-! The statements -/

/-- Settles O24: a bit must rise or none must; the value then says which of two modes. -/
theorem modeDecisionIsFourWay : Obligations.ModeDecisionIsFourWay := by
  intro old value
  rw [← no_rise_iff]
  by_cases h : (old ^^^ value) &&& value = 0
  · rw [selectMode_of_no_rise h]
    by_cases he : old = value <;> simp [h, he, NvMode.code]
  · have hne : old ≠ value := by
      rintro rfl
      exact h (by simp)
    rw [selectMode_of_rise h]
    by_cases hv : value = 0xFF <;> simp_all [NvMode.code]

/-- Settles O26. -/
theorem programmingYieldsTheValue : Obligations.ProgrammingYieldsTheValue := programmed_selectMode

/-- Settles O22: an illegal address, an idle NV and a busy one. -/
theorem nvReadReturnsTheCell : Obligations.NvReadReturnsTheCell := by
  intro s a
  refine ⟨execNvRead_of_illegal, execNvRead_of_idle, fun hlegal hbusy => ?_⟩
  exact exec_of_disabled (by simp [commandEnabled, hlegal, hbusy])

/-- Settles O23: an illegal address, an idle NV and a busy one. -/
theorem nvWriteIssuesTheOperation : Obligations.NvWriteIssuesTheOperation := by
  intro s a v
  refine ⟨execNvWrite_of_illegal, fun hlegal hidle m hm => ?idle, fun hlegal hbusy => ?busy⟩
  case idle =>
    subst hm
    rw [← issued_toNat]
    exact execNvWrite_of_idle hlegal hidle
  case busy => exact exec_of_disabled (by simp [commandEnabled, hlegal, hbusy])

/-- Settles O27: `finishProgramming`, idle and in flight. -/
theorem nveCompletesTheOperation : Obligations.NveCompletesTheOperation := by
  intro s
  refine ⟨finishProgramming_of_idle, fun f hf => ?_⟩
  rw [nveStep, finishProgramming_of_inflight hf]
  refine ⟨rfl, ?_, fun c hc => ?_, rfl⟩
  · rw [nvByte_write, if_pos rfl]
  · rw [nvByte_write, if_neg hc]

/-- Settles O28: the two errors, the wait, and the fault, in the order of the checks. -/
theorem nvWriteBlockChecksFirst : Obligations.NvWriteBlockChecksFirst := by
  intro s a p hp hi
  have herr : s.writeBlockError a.toNat p = s.blockError a.toNat p.len := writeBlockError_of_blockError hi
  refine ⟨fun hlong => ?len, fun hlen hout => ?addr, fun hlen hrange hbusy => ?busy, fun hlen hrange hidle hslot => ?slot⟩
  case len => exact execNvWriteBlock_of_error hp (herr.trans (blockError_len hlong))
  case addr => exact execNvWriteBlock_of_error hp (herr.trans (blockError_addr hlen hout))
  case busy =>
    have hok := writeBlockError_of_legal hlen hrange
    exact exec_of_disabled (by simp [commandEnabled, command_of_pending hp, hok, hbusy])
  case slot =>
    exact execNvWriteBlock_of_unwritten hp (writeBlockError_of_legal hlen hrange) hidle hi (blkWritten_eq_false.2 hslot)

/-- Settles O29. -/
theorem nvWriteBlockPayloadStep : Obligations.NvWriteBlockPayloadStep := by
  intro s a p b m hp hlt hlen hrange hidle hslots hb hm
  subst hm
  have hblk : s.blkWritten p.len = true := blkWritten_iff.2 fun k hk => Option.isSome_iff_ne_none.2 (hslots k hk)
  exact execNvWriteBlock_of_payload hp (writeBlockError_of_legal hlen hrange) hidle hblk hlt hb

/-- Settles O30. -/
theorem nvWriteBlockFinalStep : Obligations.NvWriteBlockFinalStep := by
  intro s a p m hp hi hlen hrange hidle hm
  subst hm
  exact execNvWriteBlock_of_final hp (writeBlockError_of_legal hlen hrange) hidle hi

/-- Settles O31: the two errors, the wait, and the read with the fields of its result and the slots it fills. -/
theorem nvReadBlockVerifies : Obligations.NvReadBlockVerifies := by
  intro s a p hp
  refine ⟨fun hlong => ?len, fun hlen hout => ?addr, fun hlen hrange hbusy => ?busy, fun hlen hrange hidle => ?read⟩
  case len => exact execNvReadBlock_of_error hp (blockError_len hlong)
  case addr => exact execNvReadBlock_of_error hp (blockError_addr hlen hout)
  case busy =>
    have hok := blockError_eq_none.2 ⟨hlen, hrange⟩
    exact exec_of_disabled (by simp [commandEnabled, command_of_pending hp, hok, hbusy])
  case read =>
    have hread := execNvReadBlock_of_idle hp (blockError_eq_none.2 ⟨hlen, hrange⟩) hidle
    obtain ⟨hdata, hlow, hmid, hsum, hhigh⟩ :=
      resultBlock_fields (csum (s.nvBytes a.toNat p.len)) (s.nvByte (a.toNat + p.len))
    refine ⟨_, _, hread, rfl, hdata, resultBlock_verified, hsum, hlow, hmid, hhigh, fun k hk => ?_, fun k hk => ?_, rfl⟩
    · refine (read_writeFrom_zero ..).trans ((dif_pos (by simpa using hk)).trans ?_)
      simp [State.nvBytes]
    · exact (read_writeFrom_zero ..).trans (dif_neg (by simpa using hk))

/-- Settles O32: a write of one slot, read back there and elsewhere. -/
theorem bufPutWritesTheSlot : Obligations.BufPutWritesTheSlot := by
  intro s j v
  refine ⟨execBufPut_of_illegal, fun hlegal => ⟨_, execBufPut_of_legal hlegal, ?_, fun k hk => ?_, rfl⟩⟩
  · exact Memory.read_write_same _ _ v
  · exact Memory.read_write_other _ v hk

/-- Settles O33: an illegal index, a written slot and an unwritten one. -/
theorem bufGetReadsTheSlot : Obligations.BufGetReadsTheSlot := fun _ _ =>
  ⟨execBufGet_of_illegal, fun _ => execBufGet_of_written, execBufGet_of_unwritten⟩

/-- Settles O56: the NVE step leaves the value the write was decided for, and the store is idle for the read. -/
theorem byteRoundTrip : Obligations.ByteRoundTrip := by
  intro s t a v hlegal hidle hwrite
  cases (execNvWrite_of_idle hlegal hidle).symm.trans hwrite
  have hcell : (nveStep ((s.writeByte a.toNat v).complete 0 .ok)).nvByte a.toNat = v :=
    (nvByte_finishProgramming_of_issued a.isLt rfl rfl a.toNat).trans (if_pos rfl)
  refine ⟨hcell, _, execNvRead_of_idle (by simpa [nveStep] using hlegal) (finishProgramming_nvInflight ..), ?_⟩
  rw [complete_result, hcell, resultData]

end Sys2Proof.Machine

/-! PROOF. Runs of the store (42_nv_store.md R169 to R174): a block write by turns of the CE and the NVE, byte after byte, and a read
that a fair run completes (R214). -/

namespace Sys2Proof.Machine

open Sys2Proof.Safety

section

variable {s t : State} {p : Pend} {a : Addr} {v : Byte} {ts : List Turn}

/-! A run of several steps -/

/-- A run goes on where a shorter one ended. -/
theorem run_add {M : Host.Core} {x y : M.State} (m n : Nat) (h : M.run m x = .next y) : M.run (m + n) x = M.run n y := by
  induction m generalizing x with
  | zero =>
    obtain rfl := Host.Outcome.next.inj h
    rw [Nat.zero_add]
  | succ m ih =>
    cases hx : M.step x with
    | next z =>
      rw [run_succ m hx] at h
      rw [Nat.add_right_comm, run_succ (m + n) hx, ih h]
    | fault r => simp [Host.Core.run, hx] at h
    | refused r => simp [Host.Core.run, hx] at h

theorem run_two {s t u : State} (hs : step s = .next t) (ht : step t = .next u) :
    Host.Core.run Sys2Proof.core 2 s = .next u := by
  rw [core_run_succ 1 hs, core_run_succ 0 ht, core_run_zero]

/-! One byte issued by the CE and completed by the NVE (R164, R165) -/

/-- `t` is `s` with the byte `v` decided for cell `k` and its operation, if any, issued. -/
structure Issues (s : State) (k : Nat) (v : Byte) (t : State) : Prop where
  cfg : t.cfg = s.cfg
  blk : t.blk = s.blk
  turns : t.turns = s.turns
  nv : t.nv = s.nv
  inflight : t.nvInflight = issued k (selectMode (s.nvByte k) v) v

theorem issues_writeByte (s : State) (k : Nat) (v : Byte) : Issues s k v (s.writeByte k v) := ⟨rfl, rfl, rfl, rfl, rfl⟩

/-- The end of a command issues nothing more. -/
theorem issues_complete {k : Nat} (h : Issues s k v t) (r : Word) (e : Err) : Issues s k v (t.complete r e) :=
  ⟨h.cfg, h.blk, h.turns, h.nv, h.inflight⟩

/-- Nor does a change of its record. -/
theorem issues_pend {k : Nat} (h : Issues s k v t) (q : Option Pend) : Issues s k v { t with pend := q } :=
  ⟨h.cfg, h.blk, h.turns, h.nv, h.inflight⟩

/-- `t` is `s` with the byte `v` stored in cell `k`, the store idle again and the turns `ts` left. -/
structure Stores (s : State) (k : Nat) (v : Byte) (ts : List Turn) (t : State) : Prop where
  cfg : t.cfg = s.cfg
  blk : t.blk = s.blk
  idle : t.nvInflight = none
  turns : t.turns = ts
  cells : ∀ c, t.nvByte c = if c = k then v else s.nvByte c

/-- The NVE's turn stores the byte issued and leaves the command slot. -/
theorem step_nve_stores {k : Nat} (hk : k < 65536) (hw : t.cfg.Wf) (hissues : Issues s k v t) (hturns : t.turns = .nve :: ts) :
    ∃ u, step t = .next u ∧ Stores s k v ts u ∧ u.result = t.result ∧ u.err = t.err ∧ u.pend = t.pend := by
  refine ⟨_, step_of_turn hw hturns, ⟨?cfg, ?blk, finishProgramming_nvInflight, ?turns, ?cells⟩, ?_, ?_, ?_⟩
  case cfg => simpa [nveStep] using hissues.cfg
  case blk => simpa [nveStep] using hissues.blk
  case turns => simp [nveStep]
  case cells =>
    exact nvByte_finishProgramming_of_issued hk ((passNamed_nv _ _).trans hissues.nv)
      ((passNamed_nvInflight _ _).trans hissues.inflight)
  all_goals simp [nveStep]

/-! The bytes of a block over the cells (R170, R171) -/

/-- The cells with the bytes of a list in their place from `k` on. -/
def overlay (cells : Nat → Byte) (k : Nat) (bs : List Byte) (c : Nat) : Byte :=
  if k ≤ c then (bs[c - k]?).getD (cells c) else cells c

theorem overlay_nil (cells : Nat → Byte) (k : Nat) : overlay cells k [] = cells := by
  funext c
  simp [overlay]

theorem overlay_append (cells : Nat → Byte) (k : Nat) (bs : List Byte) (b : Byte) (c : Nat) :
    overlay cells k (bs ++ [b]) c = if c = k + bs.length then b else overlay cells k bs c := by
  unfold overlay
  by_cases hc : c = k + bs.length
  · simp [hc]
  · rw [if_neg hc]
    split_ifs with hk
    · congr 1
      rcases Nat.lt_or_ge (c - k) bs.length with hlt | hge
      · exact List.getElem?_append_left hlt
      · rw [List.getElem?_eq_none hge, List.getElem?_eq_none (by simp; omega)]
    · rfl

theorem overlay_inside (cells : Nat → Byte) (k : Nat) (bs : List Byte) {j : Nat} (h : j < bs.length) :
    overlay cells k bs (k + j) = bs[j] := by
  simp [overlay, h]

theorem overlay_outside (cells : Nat → Byte) {k c : Nat} {bs : List Byte} (h : c < k ∨ k + bs.length ≤ c) :
    overlay cells k bs c = cells c := by
  unfold overlay
  split_ifs with hk
  · rw [List.getElem?_eq_none (by omega), Option.getD_none]
  · rfl

/-! A block write (R169 to R171) -/

/-- A block write just accepted, legal, its slots holding `bytes`, the store idle. -/
structure BlockAccepted (s : State) (w : Word) (a : Addr) (bytes : List Byte) : Prop where
  wf : s.cfg.Wf
  decoded : decode w = .ok (.nvWriteBlock a)
  pend : s.pend = some (acceptedCommand w s.arg)
  idle : s.nvInflight = none
  length : bytes.length = s.arg.toNat % 65536
  fits : bytes.length ≤ s.cfg.blockMax
  range : a.toNat + bytes.length < s.cfg.nvSize
  slots : ∀ j, (h : j < bytes.length) → s.blkByte j = some bytes[j]

/-- The record of a block write with its first `k` bytes done (R39, R170). -/
def blockRecord (w arg : Word) (bytes : List Byte) (k : Nat) : Pend :=
  { acceptedCommand w arg with i := BitVec.ofNat 17 k, acc := csum (bytes.take k) }

/-- The turns of `n` rounds of the CE and the NVE, and those after them. -/
def rounds (n : Nat) (ts : List Turn) : List Turn := (List.replicate n [Turn.ce, Turn.nve]).flatten ++ ts

theorem rounds_succ (n : Nat) (ts : List Turn) : rounds (n + 1) ts = .ce :: .nve :: rounds n ts := by
  simp [rounds, List.replicate_succ]

/-- `t` is `s` with the first `k` bytes of its block write done, the store idle and the turns `ts` left. -/
structure BytesDone (s : State) (w : Word) (a : Addr) (bytes : List Byte) (k : Nat) (ts : List Turn) (t : State) :
    Prop where
  cfg : t.cfg = s.cfg
  blk : t.blk = s.blk
  idle : t.nvInflight = none
  turns : t.turns = ts
  pend : t.pend = some (blockRecord w s.arg bytes k)
  cells : ∀ c, t.nvByte c = overlay s.nvByte a.toNat (bytes.take k) c

variable {w : Word} {bytes : List Byte} {k : Nat}

theorem len_acceptedCommand (h : BlockAccepted s w a bytes) : (acceptedCommand w s.arg).len = bytes.length :=
  (len_eq _).trans h.length.symm

theorem len_blockRecord (h : BlockAccepted s w a bytes) (k : Nat) : (blockRecord w s.arg bytes k).len = bytes.length :=
  len_acceptedCommand h

theorem i_blockRecord (h : BlockAccepted s w a bytes) (hk : k ≤ bytes.length) :
    (blockRecord w s.arg bytes k).i.toNat = k := by
  have hlength := h.length
  exact Nat.mod_eq_of_lt (by omega)

theorem decode_blockRecord (h : BlockAccepted s w a bytes) (k : Nat) :
    decode (blockRecord w s.arg bytes k).word = .ok (.nvWriteBlock a) :=
  (congrArg decode (word_acceptedCommand w s.arg)).trans h.decoded

/-- One more byte is one more in the count and in the checksum. -/
theorem blockRecord_succ (w arg : Word) (hk : k < bytes.length) :
    blockRecord w arg bytes (k + 1) = { blockRecord w arg bytes k with
      i := (blockRecord w arg bytes k).i + 1, acc := csumStep (blockRecord w arg bytes k).acc bytes[k] } := by
  simp only [blockRecord, BitVec.ofNat_add, List.take_succ_eq_append_getElem hk, csum_append]
  rfl

/-- The cells of the block are addresses of 16 bits (R4). -/
theorem cell_lt (h : BlockAccepted s w a bytes) (hk : k ≤ bytes.length) : a.toNat + k < 65536 := by
  obtain ⟨⟨-, -, ⟨-, hsize⟩, -⟩, -⟩ := h.wf
  have hrange := h.range
  omega

theorem bytesDone_accepted (h : BlockAccepted s w a bytes) (hturns : s.turns = ts) : BytesDone s w a bytes 0 ts s :=
  ⟨rfl, rfl, h.idle, hturns, h.pend, fun c => by rw [List.take_zero, overlay_nil]⟩

/-- The CE's turn is the step of the block write, at the state with the turn taken and the script wherever that leaves it. -/
theorem step_ce_of_bytesDone (h : BlockAccepted s w a bytes) (ht : BytesDone s w a bytes k (.ce :: ts) t) :
    ∃ x, step t = execNvWriteBlock a x ∧ BytesDone s w a bytes k ts x := by
  have hp := (passNamed_pend { t with turns := ts } .ce).trans ht.pend
  refine ⟨_, (step_of_turn (ht.cfg ▸ h.wf) ht.turns).trans (ceStep_of_pending hp (decode_blockRecord h k)), ?_⟩
  exact
    { cfg := (passNamed_cfg _ _).trans ht.cfg
      blk := (passNamed_blk _ _).trans ht.blk
      idle := (passNamed_nvInflight _ _).trans ht.idle
      turns := passNamed_turns _ _
      pend := hp
      cells := fun c => (nvByte_congr (passNamed_nv _ _) c).trans (ht.cells c) }

/-- A legal block write raises no error at any of its steps. -/
theorem writeBlockError_of_bytesDone (h : BlockAccepted s w a bytes) (ht : BytesDone s w a bytes k ts t) :
    t.writeBlockError a.toNat (blockRecord w s.arg bytes k) = none := by
  apply writeBlockError_of_legal
  · rw [len_blockRecord h, ht.cfg]; exact h.fits
  · rw [len_blockRecord h, ht.cfg]; exact h.range

/-- The step of the CE while bytes are left issues the next one and counts it (R170). -/
theorem exec_issues_payload (h : BlockAccepted s w a bytes) (hk : k < bytes.length) (ht : BytesDone s w a bytes k ts t) :
    ∃ u, execNvWriteBlock a t = .next u ∧ Issues t (a.toNat + k) bytes[k] u ∧
      u.pend = some (blockRecord w s.arg bytes (k + 1)) := by
  have hi := i_blockRecord h hk.le
  have hslot : ∀ j, (hj : j < bytes.length) → t.blkByte j = some bytes[j] := by
    unfold State.blkByte
    rw [ht.blk]
    exact h.slots
  have hwritten : t.blkWritten (blockRecord w s.arg bytes k).len = true := by
    rw [len_blockRecord h, blkWritten_iff]
    exact fun j hj => Option.isSome_iff_exists.2 ⟨_, hslot j hj⟩
  have hstep := execNvWriteBlock_of_payload ht.pend (writeBlockError_of_bytesDone h ht) ht.idle hwritten
    (by rwa [hi, len_blockRecord h]) (by rw [hi]; exact hslot k hk)
  rw [hi, ← blockRecord_succ w s.arg hk] at hstep
  exact ⟨_, hstep, issues_pend (issues_writeByte ..) _, rfl⟩

/-- The step of the CE with every byte done issues the checksum and completes the command (R171). -/
theorem exec_issues_checksum (h : BlockAccepted s w a bytes) (ht : BytesDone s w a bytes bytes.length ts t) :
    ∃ u, execNvWriteBlock a t = .next u ∧ Issues t (a.toNat + bytes.length) (csum bytes) u ∧
      u.result = resultCsum (csum bytes) ∧ u.err = .ok ∧ u.pend = none := by
  have hacc : (blockRecord w s.arg bytes bytes.length).acc = csum bytes := congrArg csum List.take_length
  have hstep := execNvWriteBlock_of_final ht.pend (writeBlockError_of_bytesDone h ht) ht.idle
    ((i_blockRecord h le_rfl).trans (len_blockRecord h _).symm)
  rw [State.blockFinalStep, len_blockRecord h, hacc] at hstep
  exact ⟨_, hstep, issues_complete (issues_writeByte ..) _ _, rfl, rfl, rfl⟩

/-- A round of the CE and the NVE stores the next byte. -/
theorem run_payload_round (h : BlockAccepted s w a bytes) (hk : k < bytes.length)
    (ht : BytesDone s w a bytes k (.ce :: .nve :: ts) t) :
    ∃ u, Host.Core.run Sys2Proof.core 2 t = .next u ∧ BytesDone s w a bytes (k + 1) ts u := by
  obtain ⟨x, hce, hx⟩ := step_ce_of_bytesDone h ht
  obtain ⟨y, hexec, hissues, hpend⟩ := exec_issues_payload h hk hx
  have hcfg : y.cfg = s.cfg := hissues.cfg.trans hx.cfg
  obtain ⟨u, hnve, hstores, -, -, hpend'⟩ :=
    step_nve_stores (cell_lt h hk.le) (hcfg ▸ h.wf) hissues (hissues.turns.trans hx.turns)
  refine ⟨u, run_two (hce.trans hexec) hnve, hstores.cfg.trans hx.cfg, hstores.blk.trans hx.blk, hstores.idle,
    hstores.turns, hpend'.trans hpend, fun c => ?_⟩
  rw [hstores.cells, hx.cells, List.take_succ_eq_append_getElem hk, overlay_append, List.length_take_of_le hk.le]

/-- The rounds of the payload, one after another. -/
theorem run_payload_rounds (h : BlockAccepted s w a bytes) (k n : Nat) (hk : k ≤ bytes.length)
    (hturns : s.turns = rounds (k + n) ts) :
    ∃ t, Host.Core.run Sys2Proof.core (2 * k) s = .next t ∧ BytesDone s w a bytes k (rounds n ts) t := by
  induction k generalizing n with
  | zero => exact ⟨s, core_run_zero s, bytesDone_accepted h (by rwa [Nat.zero_add] at hturns)⟩
  | succ k ih =>
    obtain ⟨t, hrun, ht⟩ := ih (n + 1) (Nat.le_of_succ_le hk) (by rwa [Nat.add_right_comm] at hturns)
    rw [rounds_succ] at ht
    obtain ⟨u, hround, hu⟩ := run_payload_round h hk ht
    exact ⟨u, (run_add (2 * k) 2 hrun).trans hround, hu⟩

/-- The last round stores the checksum after the payload. -/
theorem run_final_round (h : BlockAccepted s w a bytes) (ht : BytesDone s w a bytes bytes.length (.ce :: .nve :: ts) t) :
    ∃ u, Host.Core.run Sys2Proof.core 2 t = .next u ∧ u.cfg = s.cfg ∧ u.nvInflight = none ∧
      u.result = resultCsum (csum bytes) ∧ u.err = .ok ∧ u.pend = none ∧
      ∀ c, u.nvByte c = overlay s.nvByte a.toNat (bytes ++ [csum bytes]) c := by
  obtain ⟨x, hce, hx⟩ := step_ce_of_bytesDone h ht
  obtain ⟨y, hexec, hissues, hresult, herr, hpend⟩ := exec_issues_checksum h hx
  have hcfg : y.cfg = s.cfg := hissues.cfg.trans hx.cfg
  obtain ⟨u, hnve, hstores, hresult', herr', hpend'⟩ :=
    step_nve_stores (cell_lt h le_rfl) (hcfg ▸ h.wf) hissues (hissues.turns.trans hx.turns)
  refine ⟨u, run_two (hce.trans hexec) hnve, hstores.cfg.trans hx.cfg, hstores.idle, hresult'.trans hresult,
    herr'.trans herr, hpend'.trans hpend, fun c => ?_⟩
  rw [hstores.cells, hx.cells, List.take_length, overlay_append]

/-- The whole block write: every byte in its cell, the checksum after them, and nothing else in the cells changed. -/
theorem run_block_write (h : BlockAccepted s w a bytes) (hturns : s.turns = rounds (bytes.length + 1) ts) :
    ∃ t, Host.Core.run Sys2Proof.core (2 * (bytes.length + 1)) s = .next t ∧ t.cfg = s.cfg ∧ t.nvInflight = none ∧
      t.result = resultCsum (csum bytes) ∧ t.err = .ok ∧ t.pend = none ∧
      ∀ c, t.nvByte c = overlay s.nvByte a.toNat (bytes ++ [csum bytes]) c := by
  obtain ⟨t, hrun, ht⟩ := run_payload_rounds h bytes.length 1 le_rfl hturns
  rw [rounds_succ] at ht
  obtain ⟨u, hround, hu⟩ := run_final_round h ht
  exact ⟨u, (run_add (2 * bytes.length) 2 hrun).trans hround, hu⟩

/-- A record whose cells hold the bytes of a list is read as that list (R172). -/
theorem nvBytes_eq (h : ∀ j, (hj : j < bytes.length) → s.nvByte (k + j) = bytes[j]) :
    s.nvBytes k bytes.length = bytes := by
  refine List.ext_getElem (length_nvBytes _ _) fun j _ hj => ?_
  simp [State.nvBytes, h j hj]

/-- A block read of cells that hold a list and then its checksum verifies, and fills the slots with the list (R172, R173). -/
theorem execNvReadBlock_of_record (hp : s.pend = some p) (hlen : p.len = bytes.length) (hfits : bytes.length ≤ s.cfg.blockMax)
    (hrange : a.toNat + bytes.length < s.cfg.nvSize) (hidle : s.nvInflight = none)
    (hpayload : ∀ j, (h : j < bytes.length) → s.nvByte (a.toNat + j) = bytes[j])
    (hsum : s.nvByte (a.toNat + bytes.length) = csum bytes) :
    ∃ t, execNvReadBlock a s = .next t ∧ t.result.getLsbD 10 = true ∧
      ∀ j, (h : j < bytes.length) → t.blkByte j = some bytes[j] := by
  have hread := execNvReadBlock_of_idle hp (blockError_eq_none.2 ⟨hlen.trans_le hfits, by rwa [hlen]⟩) hidle
  rw [hlen, nvBytes_eq hpayload, hsum] at hread
  exact ⟨_, hread, resultBlock_verified.2 rfl, fun j hj => (read_writeFrom_zero ..).trans (dif_pos hj)⟩

/-! A pending read on a fair run (R161, R164, R214) -/

/-- While `NV_READ` is pending nothing replaces it and nothing issues an operation, and the NVE ends the one in flight. -/
theorem agentStep_of_pending_nvRead (hp : s.pend = some p) (hd : decode p.word = .ok (.nvRead a)) {u : Turn}
    (hx : agentStep u s = .next t) (hbusy : t.pend ≠ none) :
    t.pend = some p ∧ (s.nvInflight = none ∨ u = .nve → t.nvInflight = none) := by
  cases u with
  | host =>
    obtain ⟨_, _, _, _, _, rfl, rfl | ⟨w, hfree, -⟩⟩ := hostStep_frame hx
    · exact ⟨hp, fun h => h.resolve_right nofun⟩
    · cases hp.symm.trans hfree
  | ce =>
    obtain ⟨-, rfl⟩ | ⟨-, -, rfl⟩ | ⟨-, -, rfl⟩ := execNvRead_cases ((ceStep_of_pending hp hd).symm.trans hx)
    · exact absurd rfl hbusy
    · exact absurd rfl hbusy
    · exact ⟨hp, fun h => h.resolve_right nofun⟩
  | rxe b =>
    cases hx
    obtain ⟨_, _, _, _, _, _, he, -⟩ := rxeStep_frame b s
    exact he ▸ ⟨hp, fun h => h.resolve_right nofun⟩
  | txe =>
    cases hx
    obtain ⟨_, _, _, _, he, -⟩ := txeStep_frame s
    exact he ▸ ⟨hp, fun h => h.resolve_right nofun⟩
  | nve => cases hx; exact ⟨(finishProgramming_pend s).trans hp, fun _ => finishProgramming_nvInflight⟩
  | abort l => cases hx; exact ⟨hp, fun h => h.resolve_right nofun⟩
  | reset | powerLoss => cases hx; exact absurd rfl hbusy

/-- The same of a turn, which may move the script besides. -/
theorem turnStep_of_pending_nvRead (hp : s.pend = some p) (hd : decode p.word = .ok (.nvRead a)) {u : Turn}
    (hx : turnStep u s = .next t) (hbusy : t.pend ≠ none) :
    t.pend = some p ∧ (s.nvInflight = none ∨ u = .nve → t.nvInflight = none) := by
  simpa using agentStep_of_pending_nvRead ((passNamed_pend s u).trans hp) hd hx hbusy

/-- With the store idle the read has an enabled step, and the CE's turn takes it (R161). -/
theorem ceEnabled_of_idle_nvRead (hp : s.pend = some p) (hd : decode p.word = .ok (.nvRead a)) (hn : s.nvInflight = none) :
    s.ceEnabled = true := by
  simp [State.ceEnabled, State.pendingCommand, hp, hd, commandEnabled, hn]

theorem ceTurn_completes_nvRead (hp : s.pend = some p) (hd : decode p.word = .ok (.nvRead a)) (hn : s.nvInflight = none)
    (hx : turnStep .ce s = .next t) : t.pend = none := by
  have hexec : execNvRead a (s.passNamed .ce) = .next t :=
    (ceStep_of_pending ((passNamed_pend s .ce).trans hp) hd).symm.trans hx
  obtain ⟨-, rfl⟩ | ⟨-, -, rfl⟩ | ⟨-, hbusy, -⟩ := execNvRead_cases hexec
  · rfl
  · rfl
  · exact absurd ((passNamed_nvInflight s .ce).trans hn) hbusy

/-- A run in which the slot never becomes free keeps the read pending, and an idle store idle. -/
theorem nvRead_stays_pending {schedule : Nat → Turn} {run : Nat → State} (hf : Follows schedule run) {m : Nat}
    (hp : (run m).pend = some p) (hd : decode p.word = .ok (.nvRead a)) (hnever : ∀ l, m < l → (run l).pend ≠ none) {l : Nat}
    (hl : m ≤ l) : (run l).pend = some p ∧ ((run m).nvInflight = none → (run l).nvInflight = none) := by
  induction l, hl using Nat.le_induction with
  | base => exact ⟨hp, id⟩
  | succ l hl ih =>
    obtain ⟨hpl, hidle⟩ := ih
    obtain ⟨hp', hidle'⟩ := turnStep_of_pending_nvRead hpl hd (hf l) (hnever _ (Nat.lt_succ_of_le hl))
    exact ⟨hp', fun h => hidle' (.inl (hidle h))⟩

/-- Fairness to the NVE: a read that stays pending finds the store idle at some point. -/
theorem nvRead_finds_idle {schedule : Nat → Turn} {run : Nat → State} (hf : Follows schedule run)
    (hfair : FairTo .nve schedule run) {m : Nat} (hp : (run m).pend = some p) (hd : decode p.word = .ok (.nvRead a))
    (hnever : ∀ l, m < l → (run l).pend ≠ none) : ∃ l, m ≤ l ∧ (run l).nvInflight = none := by
  obtain ⟨l, hl, hturn | hdisabled⟩ := hfair m
  · obtain ⟨hpl, -⟩ := nvRead_stays_pending hf hp hd hnever hl
    obtain ⟨-, hidle⟩ := turnStep_of_pending_nvRead hpl hd (hf l) (hnever _ (Nat.lt_succ_of_le hl))
    exact ⟨l + 1, Nat.le_succ_of_le hl, hidle (.inr hturn)⟩
  · exact ⟨l, hl, by simpa [State.enabled] using hdisabled⟩

end

/-! The statements -/

/-- Settles O57: the rounds of the payload, the round of the checksum, and the read of the cells they leave. -/
theorem blockRoundTrip : Obligations.BlockRoundTrip := by
  intro s w a bytes ts hw hd hp hidle hlength hfits hrange hslots hturns
  have haccepted : BlockAccepted s w a bytes := ⟨hw, hd, hp, hidle, hlength, hfits, hrange, hslots⟩
  obtain ⟨t, hrun, hcfg, hidle', hresult, herr, hpend, hcells⟩ := run_block_write haccepted hturns
  have hpayload : ∀ j, (h : j < bytes.length) → t.nvByte (a.toNat + j) = bytes[j] := by
    intro j hj
    rw [hcells, overlay_inside _ _ _ (by simp; omega), List.getElem_append_left hj]
  have hsum : t.nvByte (a.toNat + bytes.length) = csum bytes := by
    rw [hcells, overlay_append, if_pos rfl]
  have hothers : ∀ c, c < a.toNat ∨ a.toNat + bytes.length < c → t.nvByte c = s.nvByte c := by
    intro c hc
    exact (hcells c).trans (overlay_outside _ (hc.imp_right fun h => by simp; omega))
  obtain ⟨u, hread, hverified, hslots'⟩ :=
    execNvReadBlock_of_record (s := { t with pend := some (acceptedCommand (encode (.nvReadBlock a)) s.arg) }) rfl
      ((len_eq _).trans hlength.symm) (hcfg ▸ hfits) (hcfg ▸ hrange) hidle' hpayload hsum
  exact ⟨t, u, hrun, hpend, herr, hresult, hpayload, hsum, hothers, hread, hverified, hslots'⟩

/-- Settles O60: were the read pending for ever, the NVE's fairness would leave the store idle and the CE's would then complete it. -/
theorem fairRunsCompleteNvReads : Obligations.FairRunsCompleteNvReads := by
  rintro schedule run n p a hf ⟨-, hnve, hce⟩ hp hd
  by_contra hnone
  have hnever : ∀ l, n < l → (run l).pend ≠ none := fun l hl hfree => hnone ⟨l, hl, hfree⟩
  obtain ⟨m, hm, hidle⟩ := nvRead_finds_idle hf hnve hp hd hnever
  obtain ⟨hpm, -⟩ := nvRead_stays_pending hf hp hd hnever hm
  obtain ⟨l, hl, hturn⟩ := hce m
  obtain ⟨hpl, hidle'⟩ := nvRead_stays_pending hf hpm hd (fun k hk => hnever k (hm.trans_lt hk)) hl
  have hturn : schedule l = .ce :=
    hturn.resolve_right (by simp [State.enabled, ceEnabled_of_idle_nvRead hpl hd (hidle' hidle)])
  have hstep : turnStep .ce (run l) = .next (run (l + 1)) := hturn ▸ hf l
  exact hnever _ (by omega) (ceTurn_completes_nvRead hpl hd (hidle' hidle) hstep)

end Sys2Proof.Machine

/-! PROOF. The error each command ends in (60_exceptions.md): the table of R200 and the order of the checks of R202, command by
command. -/

namespace Sys2Proof.Machine

section

variable {s t : State} {p : Pend} {a j : Addr} {v b : Byte} {e : Err} {o : Option Err} {x : Host.Outcome State Fault Refusal}

/-- The outcome of a CE step at a state answers what an error table names: the named error at once, and with none named no
completion but one with `OK`. -/
def EndsIn (s : State) (x : Host.Outcome State Fault Refusal) (named : Option Err) : Prop :=
  (∀ e, named = some e → x = .next (s.raiseErr e)) ∧ (named = none → ∀ t, x = .next t → t.pend = none → t.err = .ok)

theorem endsIn_some (h : x = .next (s.raiseErr e)) : EndsIn s x (some e) :=
  ⟨fun _ he => Option.some.inj he ▸ h, nofun⟩

theorem endsIn_none (h : ∀ t, x = .next t → t.pend = none → t.err = .ok) : EndsIn s x none :=
  ⟨nofun, fun _ => h⟩

/-- One line of the table: a check and, where it finds nothing, the lines after it. -/
theorem endsIn_ite {c : Prop} [Decidable c] (herr : c → x = .next (s.raiseErr e)) (hrest : ¬ c → EndsIn s x o) :
    EndsIn s x (if c then some e else o) := by
  split_ifs with h
  · exact endsIn_some (herr h)
  · exact hrest h

/-! The table, command by command (R200) -/

theorem execSerInit_endsIn (hp : s.pend = some p) : EndsIn s (execSerInit s) (if p.arg = 0 then some .arg else none) := by
  have hrate : (s.command .serInit).rate = p.arg := congrArg Pend.rate (command_of_pending hp _)
  rw [← hrate]
  refine endsIn_ite execSerInit_of_rate_zero fun hne => endsIn_none fun t hx _ => ?_
  cases (execSerInit_of_rate_ne_zero hne).symm.trans hx
  rfl

theorem execSerWrite_endsIn (hp : s.pend = some p) : EndsIn s (execSerWrite b s) none := by
  refine endsIn_none fun t hx hfree => ?_
  obtain ⟨-, rfl⟩ | ⟨-, -, rfl⟩ | ⟨-, -, rfl⟩ := execSerWrite_cases hx
  · rfl
  · rfl
  · cases hp.symm.trans hfree

theorem execSerRead_endsIn (s : State) : EndsIn s (execSerRead s) none := by
  refine endsIn_none fun t hx _ => ?_
  obtain ⟨-, rfl⟩ | ⟨-, rfl⟩ := execSerRead_cases hx
  all_goals rfl

theorem execNvRead_endsIn (hp : s.pend = some p) :
    EndsIn s (execNvRead a s) (if s.cfg.nvSize ≤ a.toNat then some .addr else none) := by
  refine endsIn_ite execNvRead_of_illegal fun hlegal => endsIn_none fun t hx hfree => ?_
  obtain ⟨hill, -⟩ | ⟨-, -, rfl⟩ | ⟨-, -, rfl⟩ := execNvRead_cases hx
  · exact absurd hill hlegal
  · rfl
  · cases hp.symm.trans hfree

theorem execNvWrite_endsIn (hp : s.pend = some p) :
    EndsIn s (execNvWrite a v s) (if s.cfg.nvSize ≤ a.toNat then some .addr else none) := by
  refine endsIn_ite execNvWrite_of_illegal fun hlegal => endsIn_none fun t hx hfree => ?_
  obtain ⟨hill, -⟩ | ⟨-, -, rfl⟩ | ⟨-, -, rfl⟩ := execNvWrite_cases hx
  · exact absurd hill hlegal
  · rfl
  · cases hp.symm.trans hfree

/-- A payload step keeps the slot, so of the steps after the checks only the final one completes (R170, R171). -/
theorem execNvWriteBlock_endsIn (hp : s.pend = some p) :
    EndsIn s (execNvWriteBlock a s) (s.writeBlockError a.toNat p) := by
  refine ⟨fun e he => execNvWriteBlock_of_error hp he, fun hok t hx hfree => ?_⟩
  obtain ⟨e, he, -⟩ | ⟨-, -, rfl⟩ | ⟨-, -, -, ⟨-, b, -, rfl⟩ | ⟨-, rfl⟩⟩ :=
    execNvWriteBlock_cases (command_of_pending hp _) hx
  · cases hok.symm.trans he
  · cases hp.symm.trans hfree
  · cases hfree
  · rfl

theorem execNvReadBlock_endsIn (hp : s.pend = some p) :
    EndsIn s (execNvReadBlock a s) (s.blockError a.toNat p.len) := by
  refine ⟨fun e he => execNvReadBlock_of_error hp he, fun hok t hx hfree => ?_⟩
  obtain ⟨e, he, -⟩ | ⟨-, -, rfl⟩ | ⟨-, -, rfl⟩ := execNvReadBlock_cases (command_of_pending hp _) hx
  · cases hok.symm.trans he
  · cases hp.symm.trans hfree
  · rfl

theorem execBufPut_endsIn (s : State) :
    EndsIn s (execBufPut j v s) (if s.cfg.blockMax ≤ j.toNat then some .addr else none) := by
  refine endsIn_ite execBufPut_of_illegal fun hlegal => endsIn_none fun t hx _ => ?_
  cases (execBufPut_of_legal (Nat.lt_of_not_le hlegal)).symm.trans hx
  rfl

theorem execBufGet_endsIn (s : State) :
    EndsIn s (execBufGet j s) (if s.cfg.blockMax ≤ j.toNat then some .addr else none) := by
  refine endsIn_ite execBufGet_of_illegal fun hlegal => endsIn_none fun t hx _ => ?_
  obtain ⟨hill, -⟩ | ⟨-, b, -, rfl⟩ := execBufGet_cases hx
  · exact absurd hill hlegal
  · rfl

/-! The checks of a block, on the operands as numbers (R202) -/

theorem blockError_eq (s : State) (p : Pend) (k : Nat) :
    s.blockError k p.len =
      if s.cfg.blockMax < p.arg.toNat % 65536 then some .len
      else if s.cfg.nvSize ≤ k + p.arg.toNat % 65536 then some .addr else none := by
  rw [← len_eq]
  rfl

theorem writeBlockError_eq (s : State) (p : Pend) (k : Nat) :
    s.writeBlockError k p = if p.i ≠ 0 then none else s.blockError k p.len := (ite_not ..).symm

end

/-! The statement -/

/-- Settles O36: the table line of each command, the checks of a block read on the numbers of its operands. -/
theorem errorsAreTheListedOnes : Obligations.ErrorsAreTheListedOnes := by
  intro i s p hp
  cases i with
  | nop | serResetRx | rtsigClear => exact endsIn_none fun t hx _ => by cases hx; rfl
  | serInit => exact execSerInit_endsIn hp
  | serWrite b => exact execSerWrite_endsIn hp
  | serRead => exact execSerRead_endsIn s
  | nvRead a => exact execNvRead_endsIn hp
  | nvWrite a v => exact execNvWrite_endsIn hp
  | nvWriteBlock a =>
    have h : EndsIn s (execNvWriteBlock a s) _ := execNvWriteBlock_endsIn hp
    rw [writeBlockError_eq, blockError_eq] at h
    exact h
  | nvReadBlock a =>
    have h : EndsIn s (execNvReadBlock a s) _ := execNvReadBlock_endsIn hp
    rw [blockError_eq] at h
    exact h
  | bufPut j v => exact execBufPut_endsIn s
  | bufGet j => exact execBufGet_endsIn s

end Sys2Proof.Machine

/-! PROOF. Reset and power loss (70_reset_and_hazards.md): both are the reset values of R231 around what becomes of the cell in
flight (R233) and the event. -/

namespace Sys2Proof.Machine

/-! The two events as record updates of the reset values (R230, R232) -/

/-- Completing the operation in flight reaches only its cell (R233). -/
theorem resetStep_eq (s : State) :
    resetStep s = { s.resetValues with nv := s.finishProgramming.nv, obs := s.obs ++ [.reset] } := by
  simp only [resetStep, State.finishProgramming, emit_nvInflight]
  cases s.nvInflight <;> rfl

/-- Interrupting the operation in flight reaches only its cell (R233). -/
theorem powerLossStep_eq (s : State) :
    powerLossStep s =
      { s.resetValues with
        nv := s.interruptProgramming.nv, rxMem := [], txMem := [], obs := s.obs ++ [.powerLoss],
        powerLosses := s.powerLosses + 1 } := by
  simp only [powerLossStep, State.interruptProgramming, emit_nvInflight]
  cases s.nvInflight <;> rfl

/-! The statements -/

/-- Settles O44: the reset values field by field, the cells by the case of the one not in flight, and the word of `STATUS`. -/
theorem resetLeavesTheListedValues : Obligations.ResetLeavesTheListedValues := by
  rintro s t rfl
  have hcells (a : Nat) (ha : ∀ f, s.nvInflight = some f → a ≠ f.addr.toNat) : (resetStep s).nvByte a = s.nvByte a := by
    obtain ⟨-, hothers, -⟩ := inflightCellAtResetAndPowerLoss s a
    exact (hothers ha).1
  have hstatus := statusWord_resetStep s
  rw [resetStep_eq] at hcells hstatus ⊢
  exact ⟨rfl, rfl, rfl, rfl, rfl, rfl, rfl, rfl, rfl, rfl, rfl, rfl, rfl, rfl, rfl, rfl, rfl, rfl, fun _ => rfl,
    rfl, rfl, rfl, rfl, hcells, hstatus, rfl, rfl⟩

/-- Settles O46: the two events differ in the fields set aside only, and nothing is left listed in the rings and the block
buffer. -/
theorem powerLossLosesVolatileState : Obligations.PowerLossLosesVolatileState := by
  intro s
  rw [powerLossStep_eq, resetStep_eq]
  exact ⟨rfl, fun _ => rfl, fun _ => rfl, fun _ => rfl, rfl, rfl⟩

end Sys2Proof.Machine
